-- ==== Sys2Proof/Word.lean ====
section
/-! DEFINITION. The words of the block: 32-bit register and buffer words, 8-bit pixel bytes and symbols.
Bit 0 is the least significant bit (00_scope.md R8). No value of the block is signed (R8). -/

namespace Sys2Proof

/-- A register, buffer entry or command word: 32 bits (10_state.md R22). -/
abbrev Word := BitVec 32

/-- A byte of the pixel memory: one channel, 8 bits, unsigned (10_state.md R45). -/
abbrev Byte := BitVec 8

/-- A symbol: a code point 0..255 (00_scope.md R7 `SYM_BITS`, R9). -/
abbrev Symbol := BitVec 8

end Sys2Proof
end

