-- ==== Sys2Proof/Config.lean ====
section
/-! DEFINITION. What a built instance of the block fixes: the fixed values and the parameters of
00_scope.md R7. The parameters are plain data that State carries and no step changes, so a statement
about every state is a statement about every value of every parameter (log 1). -/

namespace Sys2Proof

/-- `DELIM`: the delimiter symbol `#` (00_scope.md R7). -/
def delimSym : Symbol := 0x23#8

/-- `SYM_BITS`: the width of a symbol (00_scope.md R7). -/
def symBits : Nat := 8

/-- `CHANNELS`: channels per pixel (00_scope.md R7). -/
def channels : Nat := 3

/-- `SHIFT_RESET`: the Caesar shift after reset (00_scope.md R7). -/
def shiftReset : BitVec 8 := 3#8

/-- What a pixel byte that memory does not list reads as (log 2).
DESIGN CHOICE, unsafe: the spec makes every byte defined at launch and gives no value (10_state.md R45, I17). -/
def unlistedByte : Byte := 0x00#8

/-- `LEAF_ORDER`: the order of the leaves before the first sort (41_huffman.md R131). -/
inductive LeafOrder where
  | firstOccurrence
  | ascendingSymbol
  deriving DecidableEq, Repr

/-- `CAPACITY_RULE`: the capacity check (42_embedder.md R171). -/
inductive CapacityRule where
  | marginRule
  | exactRule
  deriving DecidableEq, Repr

/-- `HUFF_DECODE_BOUND`: how many stream bits a Huffman decode may examine (41_huffman.md R144). -/
inductive HuffDecodeBound where
  | allBits
  | allButLast
  deriving DecidableEq, Repr

/-- `RAW_NODELIM_POLICY`: a raw or Caesar decode that finds no delimiter (40_codec_raw_caesar.md R108). -/
inductive RawNodelimPolicy where
  | returnText
  | raiseTruncated
  deriving DecidableEq, Repr

/-- The parameters of 00_scope.md R7. `blockId` is not observable (D36). -/
structure Params where
  msgMax       : Nat
  bitMax       : Nat
  textMax      : Nat
  gridBytesMax : Nat
  leafOrder    : LeafOrder
  capacityRule : CapacityRule
  huffBound    : HuffDecodeBound
  rawPolicy    : RawNodelimPolicy
  blockBase    : Nat
  blockId      : Nat
  deriving DecidableEq, Repr

/-- The parameters `State.reset` carries: the spec's defaults (00_scope.md R7) for the four policies.
DESIGN CHOICE, unsafe: the sizes, `BLOCK_BASE` and `BLOCK_ID` are OPEN in the spec (log 1). -/
def Params.chosen : Params where
  msgMax       := 262144
  bitMax       := 262144
  textMax      := 262144
  gridBytesMax := 262144
  leafOrder    := .firstOccurrence
  capacityRule := .marginRule
  huffBound    := .allBits
  rawPolicy    := .returnText
  blockBase    := 0
  blockId      := 0

end Sys2Proof
end

