-- ==== Sys2Proof/Syntax.lean ====
section
/-! DEFINITION. The commands of command set 1: every row of spec/opcode_table.json (30_encoding.md R85),
and the raw fields of the one command format CMD32 (R80). Commands carry no immediates (R89). -/

namespace Sys2Proof

/-- The codec kinds (30_encoding.md R82); KIND 3 is reserved and has no constructor. -/
inductive Kind where
  | raw
  | caesar
  | huff
  deriving DecidableEq, Repr

/-- The operations (30_encoding.md R81); OP 0 and 8..15 are reserved and have no constructor. -/
inductive Op where
  | encode
  | decode
  | write
  | readall
  | embed
  | extract
  | newsession
  deriving DecidableEq, Repr

/-- The commands: one constructor per row of the table of 30_encoding.md R85. -/
inductive Instr where
  | encodeRaw
  | encodeCaesar
  | encodeHuff
  | decodeRaw
  | decodeCaesar
  | decodeHuff
  | write
  | readall
  | embedRaw
  | embedCaesar
  | embedHuff
  | extractRaw
  | extractCaesar
  | extractHuff
  | newsession
  deriving DecidableEq, Repr

/-- The operation of a command: the OP column of 30_encoding.md R85. -/
def Instr.op : Instr → Op
  | .encodeRaw     => .encode
  | .encodeCaesar  => .encode
  | .encodeHuff    => .encode
  | .decodeRaw     => .decode
  | .decodeCaesar  => .decode
  | .decodeHuff    => .decode
  | .write         => .write
  | .readall       => .readall
  | .embedRaw      => .embed
  | .embedCaesar   => .embed
  | .embedHuff     => .embed
  | .extractRaw    => .extract
  | .extractCaesar => .extract
  | .extractHuff   => .extract
  | .newsession    => .newsession

/-- The codec kind of a command, `none` where KIND selects no codec (30_encoding.md R82). -/
def Instr.kind : Instr → Option Kind
  | .encodeRaw     => some .raw
  | .encodeCaesar  => some .caesar
  | .encodeHuff    => some .huff
  | .decodeRaw     => some .raw
  | .decodeCaesar  => some .caesar
  | .decodeHuff    => some .huff
  | .write         => none
  | .readall       => none
  | .embedRaw      => some .raw
  | .embedCaesar   => some .caesar
  | .embedHuff     => some .huff
  | .extractRaw    => some .raw
  | .extractCaesar => some .caesar
  | .extractHuff   => some .huff
  | .newsession    => none

/-- The fields of a CMD32 word (30_encoding.md R80): OP is bits 3:0, KIND bits 5:4, RSV bits 31:6. -/
structure CmdFields where
  op   : BitVec 4
  kind : BitVec 2
  rsv  : BitVec 26
  deriving DecidableEq, Repr

end Sys2Proof
end

