-- ==== Sys2Proof/WellFormed.lean ====
section
/-! DEFINITION. Which terms are well formed: the legality of a command word's fields (30_encoding.md R83)
and the constraints on the parameters (00_scope.md R7). A term of `Instr` has no operand, so every such
term is well formed by its type; the checks are on the raw fields it is encoded in. -/

namespace Sys2Proof

/-- RSV is 0 (30_encoding.md R80, R83). -/
def CmdFields.rsvClear (f : CmdFields) : Bool := f.rsv == 0#26

/-- OP is one of the seven operations (30_encoding.md R81). -/
def CmdFields.opKnown (f : CmdFields) : Bool := 1 ≤ f.op.toNat && f.op.toNat ≤ 7

/-- OP is one of the operations KIND selects a codec for: ENCODE, DECODE, EMBED, EXTRACT (30_encoding.md R82). -/
def CmdFields.opTakesKind (f : CmdFields) : Bool :=
  f.op == 1#4 || f.op == 2#4 || f.op == 5#4 || f.op == 6#4

/-- KIND is not the reserved value 3 (30_encoding.md R82). -/
def CmdFields.kindKnown (f : CmdFields) : Bool := f.kind != 3#2

/-- KIND is 0 where OP takes none (30_encoding.md R82). -/
def CmdFields.kindFits (f : CmdFields) : Bool := f.opTakesKind || f.kind == 0#2

/-- The fields name a command: the four checks together. -/
def CmdFields.wellFormed (f : CmdFields) : Bool :=
  f.rsvClear && f.opKnown && f.kindKnown && f.kindFits

/-- MSG_MAX is 1..262144 (00_scope.md R7). -/
def Params.msgMaxFits (p : Params) : Bool := 1 ≤ p.msgMax && p.msgMax ≤ 262144

/-- GRID_BYTES_MAX ≤ BIT_MAX (00_scope.md R7). -/
def Params.gridFits (p : Params) : Bool := p.gridBytesMax ≤ p.bitMax

/-- BIT_MAX ≤ TEXT_MAX (00_scope.md R7). -/
def Params.bitsFit (p : Params) : Bool := p.bitMax ≤ p.textMax

/-- TEXT_MAX ≤ 262144 (00_scope.md R7). -/
def Params.textFits (p : Params) : Bool := p.textMax ≤ 262144

/-- The constraints of 00_scope.md R7, which the parameters of a built block meet. -/
def Params.wellFormed (p : Params) : Bool :=
  p.msgMaxFits && p.gridFits && p.bitsFit && p.textFits

end Sys2Proof
end

