-- ==== Sys2Proof/Decode.lean ====
section
/-! DEFINITION. From command words to commands (30_encoding.md R80 to R88), total on every 32-bit word,
rejecting by name; then the encoder, written from the table of R85. The block sees whole words only, so
no byte order enters (20_memory.md R62). -/

namespace Sys2Proof

/-- Why a word is no command (30_encoding.md R88). Every rejected word completes with ILLEGAL_CMD (R87). -/
inductive DecodeReject where
  /-- Some bit of RSV, bits 31:6, is set. -/
  | reservedBits
  /-- OP is 0 or 8..15. -/
  | reservedOp
  /-- KIND is 3. -/
  | reservedKind
  /-- KIND is 1 or 2 with OP 3, 4 or 7. -/
  | kindNotAllowed
  deriving DecidableEq, Repr

/-- The fields of a command word (30_encoding.md R80). -/
def cmdFields (w : Word) : CmdFields where
  op   := w.extractLsb' 0 4
  kind := w.extractLsb' 4 2
  rsv  := w.extractLsb' 6 26

/-- `legal(w)` (30_encoding.md R83), in the rule's own two alternatives. -/
def legalWord (w : Word) : Bool :=
  let op := (w.extractLsb' 0 4).toNat
  let kind := (w.extractLsb' 4 2).toNat
  (w.extractLsb' 6 26 == 0#26) &&
    (([1, 2, 5, 6].contains op && [0, 1, 2].contains kind) || ([3, 4, 7].contains op && kind == 0))

/-- The KIND codes (30_encoding.md R82). -/
def decodeKind (k : BitVec 2) : Except DecodeReject Kind :=
  match k.toNat with
  | 0 => .ok .raw
  | 1 => .ok .caesar
  | 2 => .ok .huff
  | _ => .error .reservedKind

/-- ENCODE.k -/
def encodeOf : Kind → Instr
  | .raw => .encodeRaw
  | .caesar => .encodeCaesar
  | .huff => .encodeHuff

/-- DECODE.k -/
def decodeOf : Kind → Instr
  | .raw => .decodeRaw
  | .caesar => .decodeCaesar
  | .huff => .decodeHuff

/-- EMBED.k -/
def embedOf : Kind → Instr
  | .raw => .embedRaw
  | .caesar => .embedCaesar
  | .huff => .embedHuff

/-- EXTRACT.k -/
def extractOf : Kind → Instr
  | .raw => .extractRaw
  | .caesar => .extractCaesar
  | .huff => .extractHuff

/-- An operation that KIND selects no codec for: KIND must be 0 (30_encoding.md R82). -/
def decodePlain (k : BitVec 2) (i : Instr) : Except DecodeReject Instr :=
  match k.toNat with
  | 0 => .ok i
  | 3 => .error .reservedKind
  | _ => .error .kindNotAllowed

/-- The decoding of a word's fields (30_encoding.md R81, R82, R85). -/
def decodeFields (f : CmdFields) : Except DecodeReject Instr :=
  if f.rsv != 0#26 then .error .reservedBits
  else match f.op.toNat with
    | 1 => (decodeKind f.kind).map encodeOf
    | 2 => (decodeKind f.kind).map decodeOf
    | 3 => decodePlain f.kind .write
    | 4 => decodePlain f.kind .readall
    | 5 => (decodeKind f.kind).map embedOf
    | 6 => (decodeKind f.kind).map extractOf
    | 7 => decodePlain f.kind .newsession
    | _ => .error .reservedOp

/-- The command a 32-bit word stands for, or why it is none (30_encoding.md R85, R88). -/
def decode (w : Word) : Except DecodeReject Instr := decodeFields (cmdFields w)

/-- The command word of an instruction whose bits, numbered as the opcode table numbers them, are `w`.
Every command has the one length of 32 bits (30_encoding.md R80); the bits above `nbits` are 0. -/
def tableWord (nbits w : Nat) : Word := BitVec.ofNat 32 (w % 2 ^ nbits)

/-- The instruction the decoder reads from an opcode-table word; a longer word is no command. -/
def decodeTableWord (nbits w : Nat) : Option Instr :=
  if nbits ≤ 32 then (decode (tableWord nbits w)).toOption else none

/-- The OP code of an operation (30_encoding.md R81). -/
def Op.code : Op → BitVec 4
  | .encode => 0x1#4
  | .decode => 0x2#4
  | .write => 0x3#4
  | .readall => 0x4#4
  | .embed => 0x5#4
  | .extract => 0x6#4
  | .newsession => 0x7#4

/-- The KIND code (30_encoding.md R82): 0 where the operation takes no codec. -/
def kindCode : Option Kind → BitVec 2
  | none => 0#2
  | some .raw => 0#2
  | some .caesar => 1#2
  | some .huff => 2#2

/-- The command word of a command: RSV ++ KIND ++ OP (30_encoding.md R80, R85). -/
def encode (i : Instr) : Word := (0#26 ++ kindCode i.kind) ++ i.op.code

end Sys2Proof
end

