-- ==== Sys2Proof/Machine/State.lean ====
section
/-! DEFINITION. The state of the block as plain data (10_state.md R47), with the inputs its environment
supplies, the reasons a step can stop, and the machine right after reset (70_reset_and_hazards.md R241). -/

namespace Sys2Proof.Machine

/-- The reasons of the fault state (60_exceptions.md R222). -/
inductive Fault where
  /-- A host or engine read of a buffer entry or word not written since reset (10_state.md R48).
  Raised by host reads, by the encode stage (MSG), and by the decode and WRITE stages (BITW). Safe: the
  model stops where the hardware reads some unspecified value. -/
  | unwrittenRead
  /-- `findCode` met a node where neither child holds the symbol (41_huffman.md R141). Raised by the Huffman
  encode and decode stages in states that hold no tree of `buildTree`, which no run reaches. Safe. -/
  | internalConsistency
  /-- A host access of the wrong width, misaligned, reserved or out of range (20_memory.md R61, R221).
  Raised by host accesses. Safe: what the host then does is the platform's. -/
  | hostBusError
  /-- A host access forbidden while BUSY = 1 (70_reset_and_hazards.md R247). Raised by host accesses.
  Safe: the model stops where the hardware may race. -/
  | hostHazard
  deriving DecidableEq, Repr

/-- The reasons the model gives no meaning to a step. -/
inductive Refusal where
  /-- A command with no meaning yet. Raised by no arm of `exec`. Safe. -/
  | notModelled (mnemonic : String)
  /-- A host access outside the register window: it does not reach the block (20_memory.md R60, log 9).
  Raised by host accesses. Safe. -/
  | outsideWindow
  deriving DecidableEq, Repr

/-- The error codes of STATUS.ERR (60_exceptions.md R211); codes 9 to 15 are reserved and never produced. -/
inductive ErrorCode where
  | noError
  | format
  | capacity
  | session
  | truncated
  /-- Code 5, kept for an implementation that reports the defect; a conforming model never writes it (R216). -/
  | internal
  | illegalCmd
  | overflow
  | geometry
  deriving DecidableEq, Repr

/-- A node of the tree store (10_state.md R43): `freq` is a natural number, `syms` a 256-bit membership vector. -/
inductive Node where
  | leaf (freq : Nat) (syms : BitVec 256) (sym : Symbol)
  | internal (freq : Nat) (syms : BitVec 256) (left right : Nat)
  deriving DecidableEq, Repr

/-- The tree store (10_state.md R43): the nodes in use, in creation order (41_huffman.md R132), and ROOT.
NNODES is the length of `nodes`. -/
structure TreeStore where
  nodes : List Node
  root  : Nat
  deriving DecidableEq, Repr

/-- A buffer of 32-bit entries: the written entries by index, rising; an unlisted entry is unwritten (10_state.md R48). -/
abbrev Buffer := List (Nat × Word)

/-- The pixel memory: bytes by address, rising; an unlisted byte holds `unlistedByte` (10_state.md R45, log 2). -/
abbrev Memory := List Host.Cell

/-- The two agents of the model (00_scope.md R6). -/
inductive Agent where
  | host
  | engine
  deriving DecidableEq, Repr

/-- What the environment does to the block (00_scope.md R6, 30_encoding.md R91, R92, 70_reset_and_hazards.md R240).
Widths are in bits and addresses are host addresses. -/
inductive HostOp where
  /-- A read of the bus, `rd`. -/
  | busRead (width addr : Nat)
  /-- A write of the bus, `wr`. -/
  | busWrite (width addr : Nat) (value : Word)
  /-- A read of one byte of the pixel memory by the environment's own means. -/
  | pixRead (addr : Nat)
  /-- A write of one byte of the pixel memory by the environment's own means. -/
  | pixWrite (addr : Nat) (value : Byte)
  /-- The pseudo-instruction `poll`: reads STATUS until bit 0 is 0. -/
  | poll
  /-- The platform asserts the reset input. -/
  | reset
  deriving DecidableEq, Repr

/-- The complete state of a model of the block (10_state.md R47), its parameters, and the model's own input and
observation fields (`hostOps`, `turns`, `reads`: logs 5 and 6). -/
structure State where
  pending   : Bool
  latched   : Word
  done      : Bool
  delim     : Bool
  ovr       : Bool
  err       : ErrorCode
  treeValid : Bool
  shift     : BitVec 8
  msgLen    : Nat
  bitLen    : Nat
  textLen   : Nat
  decPos    : Nat
  rows      : BitVec 16
  cols      : BitVec 16
  msg       : Buffer
  bitw      : Buffer
  text      : Buffer
  tree      : TreeStore
  pix       : Memory
  faulted   : Option Fault
  params    : Params
  hostOps   : List HostOp
  turns     : List Agent
  reads     : List Word
  deriving DecidableEq, Repr

/-- The machine right after reset (70_reset_and_hazards.md R241), with the chosen parameters, launch pixel
memory and empty inputs.
DESIGN CHOICE, unsafe: `latched`, `tree`, `pix`, `params`, `hostOps`, `turns` and `reads` (logs 1 to 6). -/
def State.reset : State where
  pending   := false
  latched   := 0#32
  done      := false
  delim     := false
  ovr       := false
  err       := .noError
  treeValid := false
  shift     := shiftReset
  msgLen    := 0
  bitLen    := 0
  textLen   := 0
  decPos    := 0
  rows      := 0#16
  cols      := 0#16
  msg       := []
  bitw      := []
  text      := []
  tree      := { nodes := [], root := 0 }
  pix       := []
  faulted   := none
  params    := Params.chosen
  hostOps   := []
  turns     := []
  reads     := []

end Sys2Proof.Machine
end

