-- ==== Sys2Proof/Machine/Ops.lean ====
section
/-! DEFINITION. The named operations over memory, buffers, bits and registers: sparse cells in canonical
form, the pixel memory (10_state.md R45), the buffers (R40 to R42), bits and symbols (00_scope.md R9, R10),
the stream write (10_state.md R41), command acceptance and completion (30_encoding.md R84, R86), reset
(70_reset_and_hazards.md R241). The block has no trap (60_exceptions.md R210): `complete` is the one shared
operation by which every command ends, with or without an error code, and there is no return. -/

namespace Sys2Proof.Machine

/-! ### Sparse cells: a list of keys, strictly rising, each with its value -/

/-- The value listed at a key. -/
def cellsGet {α : Type} : List (Nat × α) → Nat → Option α
  | [], _ => none
  | (a, v) :: rest, k => if a = k then some v else cellsGet rest k

/-- List a value at a key, keeping the keys rising. -/
def cellsSet {α : Type} : List (Nat × α) → Nat → α → List (Nat × α)
  | [], k, v => [(k, v)]
  | (a, w) :: rest, k, v =>
    if k < a then (k, v) :: (a, w) :: rest
    else if k = a then (k, v) :: rest
    else (a, w) :: cellsSet rest k v

/-- List nothing at a key. -/
def cellsErase {α : Type} : List (Nat × α) → Nat → List (Nat × α)
  | [], _ => []
  | (a, w) :: rest, k => if a = k then cellsErase rest k else (a, w) :: cellsErase rest k

/-- The keys are all at least `lo` and strictly rising. -/
def cellsSortedFrom {α : Type} : Nat → List (Nat × α) → Bool
  | _, [] => true
  | lo, (a, _) :: rest => decide (lo ≤ a) && cellsSortedFrom (a + 1) rest

/-- Every key is below a bound. -/
def cellsBelow {α : Type} (bound : Nat) (m : List (Nat × α)) : Bool := m.all fun c => decide (c.1 < bound)

/-! ### Pixel memory (10_state.md R45, 20_memory.md R65) -/

/-- `MemRead(a, 1)`: every byte holds some value (10_state.md R45). -/
def memRead (m : Memory) (a : Nat) : Byte := (cellsGet m a).getD unlistedByte

/-- `MemWrite(a, 1, v)`, keeping the canonical form. -/
def memWrite (m : Memory) (a : Nat) (v : Byte) : Memory :=
  if v = unlistedByte then cellsErase m a else cellsSet m a v

/-- The canonical form of the pixel memory: addresses strictly rising, no entry equal to what an unlisted
address reads as. -/
def Memory.wf (m : Memory) : Bool := cellsSortedFrom 0 m && m.all fun c => c.2 != unlistedByte

/-! ### Buffers (10_state.md R40, R41, R42, R48) -/

/-- The value of a buffer entry, `none` if it has not been written since reset. -/
def bufferRead (b : Buffer) (k : Nat) : Option Word := cellsGet b k

/-- Write one entry. -/
def bufferWrite (b : Buffer) (k : Nat) (v : Word) : Buffer := cellsSet b k v

/-- Write consecutive entries from entry `k` up. -/
def bufferWriteAll : Buffer → Nat → List Word → Buffer
  | b, _, [] => b
  | b, k, w :: ws => bufferWriteAll (bufferWrite b k w) (k + 1) ws

/-- The canonical form of a buffer of a given depth. -/
def bufferWf (depth : Nat) (b : Buffer) : Bool := cellsSortedFrom 0 b && cellsBelow depth b

/-! ### Bits and symbols (00_scope.md R10) -/

/-- The number a bit string spells, most significant bit first. -/
def natOfBits : List Bool → Nat := List.foldl (fun n b => 2 * n + b.toNat) 0

/-- `bin8(c)`: the 8-bit string of a symbol, `bin8(c)[k] = c[7-k]` (00_scope.md R10). -/
def bin8 (c : Symbol) : List Bool := (List.range symBits).map fun k => c.getLsbD (7 - k)

/-- `val8(s)`: the symbol an 8-bit string spells (00_scope.md R10). -/
def val8 (s : List Bool) : Symbol := BitVec.ofNat 8 (natOfBits s)

/-! ### The stream in words (10_state.md R41) -/

/-- The number of words a stream of `n` bits takes, `ceil(n/32)`. -/
def wordCount (n : Nat) : Nat := (n + 31) / 32

/-- A word of the stream: its first bit is bit 31, and positions past its end are 0 (10_state.md R41). -/
def packWord (bs : List Bool) : Word := BitVec.ofNat 32 (natOfBits (bs ++ List.replicate (32 - bs.length) false))

/-- The words a stream is written as. -/
def packStream (bs : List Bool) : List Word :=
  (List.range (wordCount bs.length)).map fun w => packWord ((bs.drop (32 * w)).take 32)

/-- `BITS <- s` (10_state.md R41): writes BITW[0 .. ceil(|s|/32)-1] and BIT_LEN, nothing above. -/
def State.writeStream (s : State) (bs : List Bool) : State :=
  { s with bitw := bufferWriteAll s.bitw 0 (packStream bs), bitLen := bs.length }

/-- `TEXT[k] <- zext_32(out[k])`, TEXT_LEN, DEC_POS and STATUS.DELIM: what a successful decode stage commits
(40_codec_raw_caesar.md R108); entries at or above the new length keep their contents (10_state.md R42). -/
def State.writeText (s : State) (out : List Symbol) (found : Bool) (pos : Nat) : State :=
  { s with
    text := bufferWriteAll s.text 0 (out.map fun c => c.setWidth 32)
    textLen := out.length
    decPos := pos
    delim := found }

/-- STATUS.TREE_VALID <- 0 (40_codec_raw_caesar.md R107, 43_session.md R198). -/
def State.dropTree (s : State) : State := { s with treeValid := false }

/-- Tree store <- T and STATUS.TREE_VALID <- 1 (41_huffman.md R146). -/
def State.storeTree (s : State) (t : TreeStore) : State := { s with tree := t, treeValid := true }

/-! ### Command lifecycle (30_encoding.md R84, R86) -/

/-- Acceptance of a command word (30_encoding.md R84). -/
def State.accept (s : State) (w : Word) : State :=
  { s with latched := w, pending := true, done := false, err := .noError, delim := false }

/-- Completion with an outcome code (30_encoding.md R86): the end of every command, with or without error. -/
def State.complete (s : State) (e : ErrorCode) : State :=
  { s with err := e, done := true, pending := false }

/-- The illegal command (30_encoding.md R87): it completes with ILLEGAL_CMD and changes nothing else. -/
def State.illegalCommand (s : State) : State := s.complete .illegalCmd

/-- What a stage ends in: it committed its effects; it raised an error code and committed what R224 says; or it
met a fault and the command does not complete (30_encoding.md R86, 60_exceptions.md R224). -/
inductive StageOutcome where
  | ok (s : State)
  | error (e : ErrorCode) (s : State)
  | fault (r : Fault)
  deriving DecidableEq, Repr

/-- A second stage runs only if the first raised no error (43_session.md R190, R194). -/
def StageOutcome.andThen (o : StageOutcome) (next : State → StageOutcome) : StageOutcome :=
  match o with
  | .ok s => next s
  | .error e s => .error e s
  | .fault r => .fault r

/-- The command completes once, with the code of the first error raised, if any (30_encoding.md R86). -/
def StageOutcome.finish (o : StageOutcome) : Host.Outcome State Fault Refusal :=
  match o with
  | .ok s => .next (s.complete .noError)
  | .error e s => .next (s.complete e)
  | .fault r => .fault r

/-! ### Fault state and reset -/

/-- The fault state (00_scope.md R11, 60_exceptions.md R222): nothing but `faulted` changes (log 7). -/
def State.enterFault (s : State) (r : Fault) : State := { s with faulted := some r }

/-- The reset action (70_reset_and_hazards.md R241): every piece of the block's state at its reset value; the
pixel memory (R242), the parameters and the environment's inputs and observations stay (log 16). -/
def State.hardReset (s : State) : State :=
  { State.reset with
    pix := s.pix, params := s.params, hostOps := s.hostOps, turns := s.turns, reads := s.reads }

end Sys2Proof.Machine
end

