-- ==== Sys2Proof/Machine/Operands.lean ====
section
/-! DEFINITION. What a command reads when its engine step runs (30_encoding.md R89, 20_memory.md R73):
message entries (40_codec_raw_caesar.md R106), stream bits (10_state.md R41), grid capacity (R46). -/

namespace Sys2Proof.Machine

/-- MSG[k .. k+n-1] in ascending order, `none` if an entry is unwritten (40_codec_raw_caesar.md R106). -/
def readEntries (b : Buffer) : Nat → Nat → Option (List Word)
  | _, 0 => some []
  | k, n + 1 =>
    match bufferRead b k with
    | none => none
    | some w => (readEntries b (k + 1) n).map (w :: ·)

/-- MSG[0 .. MSG_LEN-1]. -/
def State.message (s : State) : Option (List Word) := readEntries s.msg 0 s.msgLen

/-- An entry holds a symbol when its value is 0..255 (10_state.md R40, 40_codec_raw_caesar.md R106). -/
def isSymbol (w : Word) : Bool := w.toNat ≤ 255

/-- Stream bit `j`: bit `31 - (j mod 32)` of BITW[j div 32] (10_state.md R41), `none` in an unwritten word. -/
def State.streamBit (s : State) (j : Nat) : Option Bool :=
  (bufferRead s.bitw (j / 32)).map fun w => w.getLsbD (31 - j % 32)

/-- Bits `j .. j+n-1` of the stream, up to the first one that lies in an unwritten word. -/
def State.writtenFrom (s : State) : Nat → Nat → List Bool
  | _, 0 => []
  | j, n + 1 =>
    match s.streamBit j with
    | none => []
    | some b => b :: s.writtenFrom (j + 1) n

/-- The stream BITS below BIT_LEN, up to the first bit that lies in an unwritten word. A stage reads bits in
ascending order and faults when it consumes the first one past this prefix (10_state.md R41, log 12). -/
def State.writtenPrefix (s : State) : List Bool := s.writtenFrom 0 s.bitLen

/-- The capacity `C = ROWS · COLS · 3`, exactly (10_state.md R46). -/
def State.capacity (s : State) : Nat := s.rows.toNat * s.cols.toNat * channels

end Sys2Proof.Machine
end

