-- ==== Sys2Proof/Machine/Embedder.lean ====
section
/-! DEFINITION. The LSB packer and unpacker as functions on the pixel memory (42_embedder.md R171 to R174). -/

namespace Sys2Proof.Machine

/-- The capacity check `fits(L, C)` (42_embedder.md R171): `ceil(L/8)` is `(L + 7) / 8`. -/
def fits (rule : CapacityRule) (l c : Nat) : Bool :=
  match rule with
  | .marginRule => 8 * ((l + 7) / 8 + 1) ≤ c
  | .exactRule => l ≤ c

/-- The row of slot `i` (42_embedder.md R172). -/
def slotRow (cols i : Nat) : Nat := i / (cols * channels)

/-- The column of slot `i` (42_embedder.md R172). -/
def slotCol (cols i : Nat) : Nat := i / channels % cols

/-- The channel of slot `i` (42_embedder.md R172). -/
def slotChannel (i : Nat) : Nat := i % channels

/-- The pixel byte that holds a channel of a pixel (10_state.md R45). -/
def pixelByte (cols r c ch : Nat) : Nat := (r * cols + c) * channels + ch

/-- LSB write of a bit into a byte, clear then OR (42_embedder.md R173). -/
def setLsb (v : Byte) (b : Bool) : Byte := (v &&& 0xFE#8) ||| (BitVec.ofBool b).setWidth 8

/-- LSB read of a byte (42_embedder.md R174). -/
def lsbOf (v : Byte) : Bool := (v &&& 0x01#8) == 0x01#8

/-- The per-slot read-modify-write, ascending from slot `i`: slot `i` is pixel byte `i` (20_memory.md R65, 42_embedder.md R176). -/
def embedFrom : Memory → Nat → List Bool → Memory
  | m, _, [] => m
  | m, i, b :: rest => embedFrom (memWrite m i (setLsb (memRead m i) b)) (i + 1) rest

/-- The LSBs of bytes `0 .. n-1`, ascending (42_embedder.md R177). -/
def readLsbs (m : Memory) (n : Nat) : List Bool := (List.range n).map fun i => lsbOf (memRead m i)

end Sys2Proof.Machine
end

