-- ==== Sys2Proof/Machine/Codec.lean ====
section
/-! DEFINITION. The fixed-width codec as pure functions (40_codec_raw_caesar.md R100 to R105). -/

namespace Sys2Proof.Machine

/-- What a decode function returns: the symbols, whether it met a delimiter, the bit boundary (40_codec_raw_caesar.md R101). -/
structure Decoded where
  out   : List Symbol
  found : Bool
  pos   : Nat
  deriving DecidableEq, Repr

/-- `rawEncode(t)` (40_codec_raw_caesar.md R100). -/
def rawEncode (t : List Symbol) : List Bool := t.flatMap bin8

/-- The complete chunks `m, m+1, …` of a stream, `n` of them, from the bits left at chunk `m` (40_codec_raw_caesar.md R101). -/
def rawDecodeChunks : Nat → Nat → List Bool → Decoded
  | m, 0, _ => { out := [], found := false, pos := 8 * m }
  | m, n + 1, bits =>
    let c := val8 (bits.take 8)
    if c = delimSym then { out := [], found := true, pos := 8 * (m + 1) }
    else
      let d := rawDecodeChunks (m + 1) n (bits.drop 8)
      { d with out := c :: d.out }

/-- `rawDecode(s)`: complete chunks only; the final partial chunk is never read (40_codec_raw_caesar.md R101). -/
def rawDecode (bits : List Bool) : Decoded := rawDecodeChunks 0 (bits.length / 8) bits

/-- `up(c, s) = (c + s) mod 256` (40_codec_raw_caesar.md R103). -/
def shiftUp (c : Symbol) (s : BitVec 8) : Symbol := c + s

/-- `down(c, s) = (c − s) mod 256` (40_codec_raw_caesar.md R103). -/
def shiftDown (c : Symbol) (s : BitVec 8) : Symbol := c - s

/-- `caesarEncode(t, s)` (40_codec_raw_caesar.md R104). -/
def caesarEncode (t : List Symbol) (s : BitVec 8) : List Bool := rawEncode (t.map fun c => shiftUp c s)

/-- The unshift stage from symbol `m` on (40_codec_raw_caesar.md R105); `found` and `pos` are the raw stage's. -/
def unshiftFrom (s : BitVec 8) (found : Bool) (pos : Nat) : Nat → List Symbol → Decoded
  | _, [] => { out := [], found := found, pos := pos }
  | m, c :: rest =>
    let u := shiftDown c s
    if u = delimSym then { out := [], found := true, pos := 8 * (m + 1) }
    else
      let d := unshiftFrom s found pos (m + 1) rest
      { d with out := u :: d.out }

/-- `caesarDecode(bits, s)`: the raw stage, then the unshift stage (40_codec_raw_caesar.md R105). -/
def caesarDecode (bits : List Bool) (s : BitVec 8) : Decoded :=
  let d := rawDecode bits
  unshiftFrom s d.found d.pos 0 d.out

/-- The bit-serial form of `rawDecode` (40_codec_raw_caesar.md R102): `sr` is the shift register, `cnt` the bits in
it, `pos` the bits consumed so far, rounded down to a multiple of 8 when the bits run out. -/
def rawDecodeSerial : (sr : BitVec 8) → (cnt pos : Nat) → List Bool → Decoded
  | _, cnt, pos, [] => { out := [], found := false, pos := pos - cnt }
  | sr, cnt, pos, b :: rest =>
    let sr' := BitVec.ofNat 8 (2 * sr.toNat + b.toNat)
    if cnt + 1 = 8 then
      if sr' = delimSym then { out := [], found := true, pos := pos + 1 }
      else
        let d := rawDecodeSerial sr' 0 (pos + 1) rest
        { d with out := sr' :: d.out }
    else rawDecodeSerial sr' (cnt + 1) (pos + 1) rest

end Sys2Proof.Machine
end

