-- ==== Sys2Proof/Machine/Flags.lean ====
section
/-! DEFINITION. The STATUS register as the host sees it (10_state.md R24 to R30) and the error code values
(60_exceptions.md R211). -/

namespace Sys2Proof.Machine

/-- The value of an error code (60_exceptions.md R211). -/
def ErrorCode.code : ErrorCode → BitVec 4
  | .noError => 0#4
  | .format => 1#4
  | .capacity => 2#4
  | .session => 3#4
  | .truncated => 4#4
  | .internal => 5#4
  | .illegalCmd => 6#4
  | .overflow => 7#4
  | .geometry => 8#4

/-- STATUS.BUSY equals PENDING (10_state.md R25). -/
def State.busy (s : State) : Bool := s.pending

/-- STATUS (10_state.md R24): BUSY bit 0, DONE bit 1, DELIM bit 2, OVR bit 3, ERR bits 7:4, TREE_VALID bit 8,
bits 31:9 read 0. -/
def State.status (s : State) : Word :=
  0#23 ++ BitVec.ofBool s.treeValid ++ s.err.code ++ BitVec.ofBool s.ovr ++ BitVec.ofBool s.delim ++
    BitVec.ofBool s.done ++ BitVec.ofBool s.busy

/-- A host write of STATUS: bit 3 = 1 clears OVR, every other bit is ignored (10_state.md R24, R28). -/
def State.writeStatus (s : State) (v : Word) : State :=
  { s with ovr := s.ovr && !v.getLsbD 3 }

/-- A CMD write while a command is pending is dropped and sets OVR (30_encoding.md R84, 60_exceptions.md R220). -/
def State.dropCommand (s : State) : State := { s with ovr := true }

end Sys2Proof.Machine
end

