-- ==== Sys2Proof/Machine/Huffman.lean ====
section
/-! DEFINITION. The Huffman prefix-tree codec (41_huffman.md): tree construction with the stable-sort
tie-break, code lookup, encoding, the streaming decoder, and TREE_INFO. -/

namespace Sys2Proof.Machine

/-! ### Nodes and symbol sets (10_state.md R43) -/

/-- The membership vector of one symbol. -/
def symsOf (c : Symbol) : BitVec 256 := BitVec.twoPow 256 c.toNat

/-- Membership of a symbol in a symbol set. -/
def hasSym (v : BitVec 256) (c : Symbol) : Bool := v.getLsbD c.toNat

/-- `freq(n)` of a node. -/
def Node.freq : Node → Nat
  | .leaf f _ _ => f
  | .internal f _ _ _ => f

/-- `syms(n)` of a node. -/
def Node.syms : Node → BitVec 256
  | .leaf _ v _ => v
  | .internal _ v _ _ => v

/-- `kind(n) = LEAF`. -/
def Node.isLeaf : Node → Bool
  | .leaf _ _ _ => true
  | .internal _ _ _ _ => false

/-- `freq` by node number. DESIGN CHOICE (log 20): 0 for a number outside the arena, which no tree refers to. -/
def freqAt (nodes : List Node) (n : Nat) : Nat := (nodes[n]?.map Node.freq).getD 0

/-- `syms` by node number. DESIGN CHOICE (log 20): empty for a number outside the arena, which no tree refers to. -/
def symsAt (nodes : List Node) (n : Nat) : BitVec 256 := (nodes[n]?.map Node.syms).getD 0

/-- NNODES, the number of nodes in use (10_state.md R43). -/
def TreeStore.nnodes (t : TreeStore) : Nat := t.nodes.length

/-! ### Tree construction (41_huffman.md R130 to R136) -/

/-- The distinct symbols of a text in the order of their first index (41_huffman.md R131). -/
def firstOccurrences : List Symbol → List Symbol
  | [] => []
  | c :: rest => c :: (firstOccurrences rest).filter (· != c)

/-- The distinct symbols of a text in ascending code point (41_huffman.md R131). -/
def ascendingSymbols (t : List Symbol) : List Symbol :=
  ((List.range 256).map fun n => BitVec.ofNat 8 n).filter fun c => t.contains c

/-- `L0`: the order of the leaves before the first sort (41_huffman.md R131). -/
def leafOrder (o : LeafOrder) (t : List Symbol) : List Symbol :=
  match o with
  | .firstOccurrence => firstOccurrences t
  | .ascendingSymbol => ascendingSymbols t

/-- The leaf of a symbol, with `F(c)` the count of the symbol in the text (41_huffman.md R130, R133). -/
def leafNode (t : List Symbol) (c : Symbol) : Node := .leaf (t.count c) (symsOf c) c

/-- Put a node before the first node of a sorted list whose frequency is at least its own. -/
def insertByFreq (nodes : List Node) (x : Nat) : List Nat → List Nat
  | [] => [x]
  | y :: rest =>
    if freqAt nodes x ≤ freqAt nodes y then x :: y :: rest else y :: insertByFreq nodes x rest

/-- `stableSortByFreq(list)`: ascending by frequency, ties keep their order (41_huffman.md R134). -/
def stableSortByFreq (nodes : List Node) (l : List Nat) : List Nat := l.foldr (insertByFreq nodes) []

/-- One pass of the loop of `buildTree`: sort, take the first two, append their parent (41_huffman.md R133). -/
def mergePass (nodes : List Node) (list : List Nat) : List Node × List Nat :=
  match stableSortByFreq nodes list with
  | l :: r :: rest =>
    (nodes ++ [.internal (freqAt nodes l + freqAt nodes r) (symsAt nodes l ||| symsAt nodes r) l r],
      rest ++ [nodes.length])
  | short => (nodes, short)

/-- The loop of `buildTree`, a given number of passes (41_huffman.md R133). -/
def mergePasses : Nat → List Node → List Nat → List Node × List Nat
  | 0, nodes, list => (nodes, list)
  | n + 1, nodes, list => mergePasses n (mergePass nodes list).1 (mergePass nodes list).2

/-- `buildTree(t)`: the leaves in leaf order, then `k − 1` passes; the last node left is ROOT (41_huffman.md R133).
DESIGN CHOICE (log 20): ROOT is 0 for the empty text, which no encode stage builds a tree of. -/
def buildTree (o : LeafOrder) (t : List Symbol) : TreeStore :=
  let l0 := leafOrder o t
  let r := mergePasses (l0.length - 1) (l0.map (leafNode t)) (List.range l0.length)
  { nodes := r.1, root := r.2.headD 0 }

/-! ### Code lookup and encoding (41_huffman.md R137 to R141) -/

/-- The walk of `findCode` from node `n` (41_huffman.md R138): right child first; `none` is the internal consistency
failure of R141. `fuel` bounds the depth by the number of nodes. -/
def findCodeFrom (nodes : List Node) (c : Symbol) : Nat → Nat → Option (List Bool)
  | 0, _ => none
  | fuel + 1, n =>
    match nodes[n]? with
    | none => none
    | some (.leaf _ _ _) => some []
    | some (.internal _ _ l r) =>
      if hasSym (symsAt nodes r) c then (findCodeFrom nodes c fuel r).map (true :: ·)
      else if hasSym (symsAt nodes l) c then (findCodeFrom nodes c fuel l).map (false :: ·)
      else none

/-- `kind(ROOT) = LEAF`: the one-leaf tree (41_huffman.md R136).
DESIGN CHOICE (log 20): false where ROOT lies outside the arena. -/
def TreeStore.rootIsLeaf (t : TreeStore) : Bool := (t.nodes[t.root]?.map Node.isLeaf).getD false

/-- `findCode(c)`: root edge first; the code of a one-leaf tree's symbol is `[0]` (41_huffman.md R136, R138, R139). -/
def findCode (t : TreeStore) (c : Symbol) : Option (List Bool) :=
  if t.rootIsLeaf then some [false] else findCodeFrom t.nodes c t.nnodes t.root

/-- The codes of the symbols of a text, concatenated (41_huffman.md R140). -/
def encodeWith (t : TreeStore) : List Symbol → Option (List Bool)
  | [] => some []
  | c :: rest =>
    match findCode t c with
    | none => none
    | some code => (encodeWith t rest).map (code ++ ·)

/-- `huffEncode(t)`: the tree of the text and its stream (41_huffman.md R140); `none` is the internal consistency failure. -/
def huffEncode (o : LeafOrder) (t : List Symbol) : Option (TreeStore × List Bool) :=
  (encodeWith (buildTree o t) t).map fun bits => (buildTree o t, bits)

/-! ### Streaming decoder (41_huffman.md R142 to R145) -/

/-- What one decoder step does: stay inside a code at a node, produce a symbol, or stop at the delimiter. -/
inductive WalkStep where
  | inside (cur : Nat)
  | symbol (c : Symbol)
  | stop
  deriving DecidableEq, Repr

/-- Arriving at a node: a leaf ends a symbol (41_huffman.md R143). -/
def arriveAt (nodes : List Node) (n : Nat) : Option WalkStep :=
  match nodes[n]? with
  | none => none
  | some (.internal _ _ _ _) => some (.inside n)
  | some (.leaf _ _ c) => some (if c = delimSym then .stop else .symbol c)

/-- `huffStep(b)` from node `cur` (41_huffman.md R143): on a one-leaf tree every bit reaches the leaf, whatever its
value. `none` only on a store that holds no tree (log 11). -/
def huffStep (t : TreeStore) (cur : Nat) (b : Bool) : Option WalkStep :=
  if t.rootIsLeaf then arriveAt t.nodes t.root
  else match t.nodes[cur]? with
    | some (.internal _ _ l r) => arriveAt t.nodes (if b then r else l)
    | _ => none

/-- The decoder over the bits from index `j` on, at node `cur` (41_huffman.md R142, R145). -/
def huffWalk (t : TreeStore) : (cur j : Nat) → List Bool → Option Decoded
  | _, j, [] => some { out := [], found := false, pos := j }
  | cur, j, b :: rest =>
    match huffStep t cur b with
    | none => none
    | some (.inside n) => huffWalk t n (j + 1) rest
    | some (.symbol c) => (huffWalk t t.root (j + 1) rest).map fun d => { d with out := c :: d.out }
    | some .stop => some { out := [], found := true, pos := j + 1 }

/-- `N`, the number of leading stream bits a Huffman decode may examine (41_huffman.md R144). -/
def decodeBound (b : HuffDecodeBound) (len : Nat) : Nat :=
  match b with
  | .allBits => len
  | .allButLast => len - 1

/-! ### TREE_INFO (10_state.md R38, 41_huffman.md R148) -/

/-- The symbols of the leaves. -/
def leafSyms : List Node → List Symbol
  | [] => []
  | .leaf _ _ c :: rest => c :: leafSyms rest
  | .internal _ _ _ _ :: rest => leafSyms rest

/-- LEAVES: the number of LEAF nodes (41_huffman.md R148). -/
def TreeStore.leaves (t : TreeStore) : Nat := t.nodes.countP Node.isLeaf

/-- MAXLEN: the length of the longest code over the leaves' symbols (41_huffman.md R148).
DESIGN CHOICE (log 20): a lookup that fails, in a store that holds no sound tree, counts as length 0. -/
def TreeStore.maxLen (t : TreeStore) : Nat :=
  (leafSyms t.nodes).foldl (fun m c => max m ((findCode t c).map List.length |>.getD 0)) 0

/-- TREE_INFO: LEAVES in bits 8:0, MAXLEN in bits 23:16, the rest 0; both 0 when TREE_VALID = 0 (10_state.md R38). -/
def State.treeInfo (s : State) : Word :=
  if s.treeValid then
    0#8 ++ BitVec.ofNat 8 s.tree.maxLen ++ 0#7 ++ BitVec.ofNat 9 s.tree.leaves
  else 0#32

end Sys2Proof.Machine
end

