-- ==== Sys2Proof/Machine/Stages.lean ====
section
/-! DEFINITION. The four stages commands are made of: encode (40_codec_raw_caesar.md R107), decode (R108,
41_huffman.md R145), WRITE (42_embedder.md R176), READALL (R177). Each checks in the order of
60_exceptions.md R223 and commits what R224 says. -/

namespace Sys2Proof.Machine

/-- The codec of an encode stage: the tree, for HUFF, and the stream; `none` is the internal consistency failure. -/
def encodeText (k : Kind) (s : State) (t : List Symbol) : Option (Option TreeStore × List Bool) :=
  match k with
  | .raw => some (none, rawEncode t)
  | .caesar => some (none, caesarEncode t s.shift)
  | .huff => (huffEncode s.params.leafOrder t).map fun r => (some r.1, r.2)

/-- `BITS <- s` and, for HUFF, tree store <- T with TREE_VALID <- 1, unless the stream is longer than the bit buffer
(40_codec_raw_caesar.md R107). -/
def commitStream (s : State) (tree : Option TreeStore) (bits : List Bool) : StageOutcome :=
  if s.params.bitMax < bits.length then .error .overflow s
  else match tree with
    | none => .ok (s.writeStream bits)
    | some t => .ok ((s.writeStream bits).storeTree t)

/-- `encodeStage(kind)` (40_codec_raw_caesar.md R107): TREE_VALID is cleared first and stays cleared on error. -/
def encodeStage (k : Kind) (s : State) : StageOutcome :=
  match s.message with
  | none => .fault .unwrittenRead
  | some m =>
    if m.all isSymbol then
      match encodeText k s (m.map (fun w => w.setWidth 8) ++ [delimSym]) with
      | none => .fault .internalConsistency
      | some r => commitStream s.dropTree r.1 r.2
    else .error .format s.dropTree

/-- The RAW and CAESAR branches of `decodeStage` (40_codec_raw_caesar.md R108): `decoder` is the kind's decode
function. The raw stage of either kind reads complete chunks until a raw delimiter; it faults if it needs a chunk that
lies past the written bits (10_state.md R41, logs 12 and 13). -/
def fixedDecodeStage (decoder : List Bool → Decoded) (s : State) : StageOutcome :=
  let known := s.writtenPrefix
  if (rawDecode known).found = false ∧ known.length / 8 < s.bitLen / 8 then .fault .unwrittenRead
  else
    let d := decoder known
    if d.found = false ∧ s.params.rawPolicy = .raiseTruncated then .error .truncated s
    else .ok (s.writeText d.out d.found d.pos)

/-- `huffDecodeStage(s)` (41_huffman.md R145): the tree check comes first; the walk faults if it needs a bit past the
written ones, and runs out of its `N` bits with TRUNCATED. -/
def huffDecodeStage (s : State) : StageOutcome :=
  if s.treeValid = false then .error .session s
  else
    let n := decodeBound s.params.huffBound s.bitLen
    let known := s.writtenPrefix.take n
    match huffWalk s.tree s.tree.root 0 known with
    | none => .fault .internalConsistency
    | some d =>
      if d.found then .ok (s.writeText d.out true d.pos)
      else if known.length < n then .fault .unwrittenRead
      else .error .truncated s

/-- `decodeStage(kind)` (40_codec_raw_caesar.md R108). -/
def decodeStage (k : Kind) (s : State) : StageOutcome :=
  match k with
  | .raw => fixedDecodeStage rawDecode s
  | .caesar => fixedDecodeStage (fun bits => caesarDecode bits s.shift) s
  | .huff => huffDecodeStage s

/-- `writeStage()` (42_embedder.md R176): every check and the whole stream read come before the first pixel write. -/
def writeStage (s : State) : StageOutcome :=
  if s.params.gridBytesMax < s.capacity then .error .geometry s
  else if fits s.params.capacityRule s.bitLen s.capacity = false then .error .capacity s
  else if s.writtenPrefix.length < s.bitLen then .fault .unwrittenRead
  else .ok { s with pix := embedFrom s.pix 0 s.writtenPrefix }

/-- `readAllStage()` (42_embedder.md R177). -/
def readAllStage (s : State) : StageOutcome :=
  if s.params.gridBytesMax < s.capacity then .error .geometry s
  else .ok (s.writeStream (readLsbs s.pix s.capacity))

end Sys2Proof.Machine
end

