-- ==== Sys2Proof/Machine/EmbedderCommands.lean ====
section
/-! DEFINITION. The meanings of WRITE and READALL (42_embedder.md R176, R177). -/

namespace Sys2Proof.Machine

/-- WRITE (42_embedder.md R176). -/
def execWrite (s : State) : Host.Outcome State Fault Refusal := (writeStage s).finish

/-- READALL (42_embedder.md R177). -/
def execReadall (s : State) : Host.Outcome State Fault Refusal := (readAllStage s).finish

end Sys2Proof.Machine
end

