-- ==== Sys2Proof/Machine/FixedWidthCommands.lean ====
section
/-! DEFINITION. The meanings of ENCODE.RAW, ENCODE.CAESAR, DECODE.RAW and DECODE.CAESAR
(40_codec_raw_caesar.md R109 to R112). -/

namespace Sys2Proof.Machine

/-- ENCODE.RAW (40_codec_raw_caesar.md R109). -/
def execEncodeRaw (s : State) : Host.Outcome State Fault Refusal := (encodeStage .raw s).finish

/-- ENCODE.CAESAR (40_codec_raw_caesar.md R110). -/
def execEncodeCaesar (s : State) : Host.Outcome State Fault Refusal := (encodeStage .caesar s).finish

/-- DECODE.RAW (40_codec_raw_caesar.md R111). -/
def execDecodeRaw (s : State) : Host.Outcome State Fault Refusal := (decodeStage .raw s).finish

/-- DECODE.CAESAR (40_codec_raw_caesar.md R112). -/
def execDecodeCaesar (s : State) : Host.Outcome State Fault Refusal := (decodeStage .caesar s).finish

end Sys2Proof.Machine
end

