-- ==== Sys2Proof/Machine/HuffmanCommands.lean ====
section
/-! DEFINITION. The meanings of ENCODE.HUFF and DECODE.HUFF (41_huffman.md R146, R147). -/

namespace Sys2Proof.Machine

/-- ENCODE.HUFF (41_huffman.md R146). -/
def execEncodeHuff (s : State) : Host.Outcome State Fault Refusal := (encodeStage .huff s).finish

/-- DECODE.HUFF (41_huffman.md R147). -/
def execDecodeHuff (s : State) : Host.Outcome State Fault Refusal := (decodeStage .huff s).finish

end Sys2Proof.Machine
end

