-- ==== Sys2Proof/Machine/SessionCommands.lean ====
section
/-! DEFINITION. The composite commands EMBED.k and EXTRACT.k and the session command NEWSESSION
(43_session.md R190 to R198). -/

namespace Sys2Proof.Machine

/-- `EMBED.k`: the encode stage, then, if it raised no error, the write stage (43_session.md R190). -/
def embedStages (k : Kind) (s : State) : StageOutcome := (encodeStage k s).andThen writeStage

/-- `EXTRACT.k`: the read stage, then, if it raised no error, the decode stage (43_session.md R194). -/
def extractStages (k : Kind) (s : State) : StageOutcome := (readAllStage s).andThen (decodeStage k)

/-- EMBED.RAW (43_session.md R191). -/
def execEmbedRaw (s : State) : Host.Outcome State Fault Refusal := (embedStages .raw s).finish

/-- EMBED.CAESAR (43_session.md R192). -/
def execEmbedCaesar (s : State) : Host.Outcome State Fault Refusal := (embedStages .caesar s).finish

/-- EMBED.HUFF (43_session.md R193). -/
def execEmbedHuff (s : State) : Host.Outcome State Fault Refusal := (embedStages .huff s).finish

/-- EXTRACT.RAW (43_session.md R195). -/
def execExtractRaw (s : State) : Host.Outcome State Fault Refusal := (extractStages .raw s).finish

/-- EXTRACT.CAESAR (43_session.md R196). -/
def execExtractCaesar (s : State) : Host.Outcome State Fault Refusal := (extractStages .caesar s).finish

/-- EXTRACT.HUFF (43_session.md R197). -/
def execExtractHuff (s : State) : Host.Outcome State Fault Refusal := (extractStages .huff s).finish

/-- NEWSESSION: STATUS.TREE_VALID <- 0 and nothing else (43_session.md R198). -/
def execNewsession (s : State) : Host.Outcome State Fault Refusal := (StageOutcome.ok s.dropTree).finish

end Sys2Proof.Machine
end

