-- ==== Sys2Proof/Machine/Dispatch.lean ====
section
/-! DEFINITION. The dispatch of a legal command to its meaning (30_encoding.md R85). -/

namespace Sys2Proof.Machine

def exec (i : Instr) (s : State) : Host.Outcome State Fault Refusal :=
  match i with
  | .encodeRaw => Sys2Proof.Machine.execEncodeRaw s
  | .encodeCaesar => Sys2Proof.Machine.execEncodeCaesar s
  | .encodeHuff => Sys2Proof.Machine.execEncodeHuff s
  | .decodeRaw => Sys2Proof.Machine.execDecodeRaw s
  | .decodeCaesar => Sys2Proof.Machine.execDecodeCaesar s
  | .decodeHuff => Sys2Proof.Machine.execDecodeHuff s
  | .write => Sys2Proof.Machine.execWrite s
  | .readall => Sys2Proof.Machine.execReadall s
  | .embedRaw => Sys2Proof.Machine.execEmbedRaw s
  | .embedCaesar => Sys2Proof.Machine.execEmbedCaesar s
  | .embedHuff => Sys2Proof.Machine.execEmbedHuff s
  | .extractRaw => Sys2Proof.Machine.execExtractRaw s
  | .extractCaesar => Sys2Proof.Machine.execExtractCaesar s
  | .extractHuff => Sys2Proof.Machine.execExtractHuff s
  | .newsession => Sys2Proof.Machine.execNewsession s

end Sys2Proof.Machine
end

