-- ==== Sys2Proof/Machine/HostPort.lean ====
section
/-! DEFINITION. The host's side of the block: the register window (10_state.md R22 to R42), which accesses are bus
errors (20_memory.md R61) or hazards (70_reset_and_hazards.md R246, R247), the host's pixel accesses, and host
programs with their pseudo-instructions (30_encoding.md R91, R92). -/

namespace Sys2Proof.Machine

/-- The locations of the register window (10_state.md R22). -/
inductive WindowReg where
  | cmd
  | status
  | config
  | msgLen
  | bitLen
  | textLen
  | decPos
  | gridRows
  | gridCols
  | treeInfo
  | msg (k : Nat)
  | bitw (w : Nat)
  | text (k : Nat)
  deriving DecidableEq, Repr

/-- The size of the window, 4 MiB (10_state.md R22). -/
def windowSize : Nat := 0x400000

/-- The offset of a location (10_state.md R22). -/
def WindowReg.offset : WindowReg → Nat
  | .cmd => 0x000000
  | .status => 0x000004
  | .config => 0x000008
  | .msgLen => 0x00000C
  | .bitLen => 0x000010
  | .textLen => 0x000014
  | .decPos => 0x000018
  | .gridRows => 0x00001C
  | .gridCols => 0x000020
  | .treeInfo => 0x000024
  | .msg k => 0x100000 + 4 * k
  | .bitw w => 0x200000 + 4 * w
  | .text k => 0x300000 + 4 * k

/-- A location exists: a buffer entry is below its depth (10_state.md R22, R39). -/
def WindowReg.exists (p : Params) : WindowReg → Bool
  | .msg k => k < p.msgMax
  | .bitw w => w < wordCount p.bitMax
  | .text k => k < p.textMax
  | _ => true

/-- A location if it exists. -/
def ifExists (p : Params) (r : WindowReg) : Option WindowReg := if r.exists p then some r else none

/-- The location at an offset that is a multiple of 4; `none` is a reserved or unmapped offset (10_state.md R22, R39). -/
def windowReg (p : Params) (off : Nat) : Option WindowReg :=
  if off < 0x100000 then
    match off / 4 with
    | 0 => some .cmd
    | 1 => some .status
    | 2 => some .config
    | 3 => some .msgLen
    | 4 => some .bitLen
    | 5 => some .textLen
    | 6 => some .decPos
    | 7 => some .gridRows
    | 8 => some .gridCols
    | 9 => some .treeInfo
    | _ => none
  else if off < 0x200000 then ifExists p (.msg ((off - 0x100000) / 4))
  else if off < 0x300000 then ifExists p (.bitw ((off - 0x200000) / 4))
  else if off < 0x400000 then ifExists p (.text ((off - 0x300000) / 4))
  else none

/-- What a bus access addresses. -/
inductive BusTarget where
  /-- An address outside the window: not an access to the block (log 9). -/
  | outside
  /-- A bus error (20_memory.md R61). -/
  | busError
  | reg (r : WindowReg)
  deriving DecidableEq, Repr

/-- The target of an access of a width in bits at a host address (20_memory.md R60, R61). -/
def busTarget (p : Params) (width addr : Nat) : BusTarget :=
  if addr < p.blockBase ∨ p.blockBase + windowSize ≤ addr then .outside
  else if width ≠ 32 ∨ (addr - p.blockBase) % 4 ≠ 0 then .busError
  else match windowReg p (addr - p.blockBase) with
    | none => .busError
    | some r => .reg r

/-- The locations the host may access while BUSY = 1 (70_reset_and_hazards.md R246). -/
def WindowReg.allowedWhileBusy : WindowReg → Bool
  | .cmd => true
  | .status => true
  | _ => false

/-- The value a host read returns (10_state.md R23 to R42); `none` is an unwritten entry (R48). -/
def State.readReg (s : State) : WindowReg → Option Word
  | .cmd => some 0#32
  | .status => some s.status
  | .config => some (s.shift.setWidth 32)
  | .msgLen => some (BitVec.ofNat 32 s.msgLen)
  | .bitLen => some (BitVec.ofNat 32 s.bitLen)
  | .textLen => some (BitVec.ofNat 32 s.textLen)
  | .decPos => some (BitVec.ofNat 32 s.decPos)
  | .gridRows => some (s.rows.setWidth 32)
  | .gridCols => some (s.cols.setWidth 32)
  | .treeInfo => some s.treeInfo
  | .msg k => bufferRead s.msg k
  | .bitw w => bufferRead s.bitw w
  | .text k => bufferRead s.text k

/-- A host write of CMD: accepted, or dropped while a command is pending (10_state.md R23, 30_encoding.md R84). -/
def State.writeCmd (s : State) (v : Word) : State := if s.pending then s.dropCommand else s.accept v

/-- What a host write does (10_state.md R23 to R42): lengths are write-any-read-legal (R32, R33), read-only
locations ignore writes (R39). -/
def State.writeReg (s : State) (r : WindowReg) (v : Word) : State :=
  match r with
  | .cmd => s.writeCmd v
  | .status => s.writeStatus v
  | .config => { s with shift := v.setWidth 8 }
  | .msgLen => if v.toNat ≤ s.params.msgMax then { s with msgLen := v.toNat } else s
  | .bitLen => if v.toNat ≤ s.params.bitMax then { s with bitLen := v.toNat } else s
  | .textLen => s
  | .decPos => s
  | .gridRows => { s with rows := v.setWidth 16 }
  | .gridCols => { s with cols := v.setWidth 16 }
  | .treeInfo => s
  | .msg k => { s with msg := bufferWrite s.msg k v }
  | .bitw w => { s with bitw := bufferWrite s.bitw w v }
  | .text _ => s

/-- The host receives a value it read. -/
def State.deliver (s : State) (v : Word) : State := { s with reads := v :: s.reads }

/-- A host read of the bus (20_memory.md R61, 70_reset_and_hazards.md R246, 10_state.md R48).
DESIGN CHOICE (log 8): where several of these faults apply to one access, the bus error is reported before the hazard,
and the hazard before the unwritten read; the spec gives no order. -/
def hostRead (width addr : Nat) (s : State) : Host.Outcome State Fault Refusal :=
  match busTarget s.params width addr with
  | .outside => .refused .outsideWindow
  | .busError => .fault .hostBusError
  | .reg r =>
    if s.busy && !r.allowedWhileBusy then .fault .hostHazard
    else match s.readReg r with
      | none => .fault .unwrittenRead
      | some v => .next (s.deliver v)

/-- A host write of the bus (20_memory.md R61, 70_reset_and_hazards.md R246).
DESIGN CHOICE (log 8): where both faults apply, the bus error is reported before the hazard. -/
def hostWrite (width addr : Nat) (v : Word) (s : State) : Host.Outcome State Fault Refusal :=
  match busTarget s.params width addr with
  | .outside => .refused .outsideWindow
  | .busError => .fault .hostBusError
  | .reg r => if s.busy && !r.allowedWhileBusy then .fault .hostHazard else .next (s.writeReg r v)

/-- A host read of a pixel byte (20_memory.md R60); any while BUSY = 1 is a hazard (70_reset_and_hazards.md R246).
DEDUCED (log 10): past the pixel memory it is a bus error. DESIGN CHOICE (log 8): reported before the hazard. -/
def hostPixRead (a : Nat) (s : State) : Host.Outcome State Fault Refusal :=
  if s.params.gridBytesMax ≤ a then .fault .hostBusError
  else if s.busy then .fault .hostHazard
  else .next (s.deliver ((memRead s.pix a).setWidth 32))

/-- A host write of a pixel byte (20_memory.md R60); any while BUSY = 1 is a hazard (70_reset_and_hazards.md R246).
DEDUCED (log 10): past the pixel memory it is a bus error. DESIGN CHOICE (log 8): reported before the hazard. -/
def hostPixWrite (a : Nat) (v : Byte) (s : State) : Host.Outcome State Fault Refusal :=
  if s.params.gridBytesMax ≤ a then .fault .hostBusError
  else if s.busy then .fault .hostHazard
  else .next { s with pix := memWrite s.pix a v }

/-- One read of a `poll` loop: the loop ends when STATUS bit 0 reads 0 (30_encoding.md R92). -/
def hostPoll (s : State) : Host.Outcome State Fault Refusal :=
  if s.status.getLsbD 0 then .next { s.deliver s.status with hostOps := .poll :: s.hostOps }
  else .next (s.deliver s.status)

/-- What one environment operation, already taken from the input list, does. -/
def hostStep (op : HostOp) (s : State) : Host.Outcome State Fault Refusal :=
  match op with
  | .busRead width addr => hostRead width addr s
  | .busWrite width addr v => hostWrite width addr v s
  | .pixRead a => hostPixRead a s
  | .pixWrite a v => hostPixWrite a v s
  | .poll => hostPoll s
  | .reset => .next s.hardReset

/-! ### Host programs (30_encoding.md R91, R92) -/

/-- The host address of a location. -/
def WindowReg.addr (p : Params) (r : WindowReg) : Nat := p.blockBase + r.offset

/-- `wr <reg>, <value>` (30_encoding.md R91). -/
def wr (p : Params) (r : WindowReg) (v : Word) : HostOp := .busWrite 32 (r.addr p) v

/-- `rd <reg>` (30_encoding.md R91). -/
def rd (p : Params) (r : WindowReg) : HostOp := .busRead 32 (r.addr p)

/-- The pseudo-instructions (30_encoding.md R92). -/
inductive Pseudo where
  | cmd (word : Word)
  | poll
  | run (word : Word)
  | ldmsg (cs : List Word)
  | ldbits (bs : List Bool)
  | grid (r c : Word)
  | shift (s : Int)
  | clrovr
  deriving DecidableEq, Repr

/-- `wr BUF[k], v` for consecutive entries. -/
def wrAll (p : Params) (buf : Nat → WindowReg) : Nat → List Word → List HostOp
  | _, [] => []
  | k, v :: vs => wr p (buf k) v :: wrAll p buf (k + 1) vs

/-- The expansion of a pseudo-instruction (30_encoding.md R92). -/
def Pseudo.expand (p : Params) : Pseudo → List HostOp
  | .cmd w => [wr p .cmd w]
  | .poll => [.poll]
  | .run w => [wr p .cmd w, .poll]
  | .ldmsg cs => wrAll p .msg 0 cs ++ [wr p .msgLen (BitVec.ofNat 32 cs.length)]
  | .ldbits bs => wrAll p .bitw 0 (packStream bs) ++ [wr p .bitLen (BitVec.ofNat 32 bs.length)]
  | .grid r c => [wr p .gridRows r, wr p .gridCols c]
  | .shift s => [wr p .config (BitVec.ofInt 32 (s % 256))]
  | .clrovr => [wr p .status 0x00000008#32]

end Sys2Proof.Machine
end

