-- ==== Sys2Proof/Machine/Engine.lean ====
section
/-! DEFINITION. Who moves and what the move does: the interleaving of host accesses and atomic engine steps
(00_scope.md R6, 20_memory.md R66, R70), the engine step of a pending command (30_encoding.md R85), the fault state
(00_scope.md R11). -/

namespace Sys2Proof.Machine

/-- The engine step of a pending command (30_encoding.md R85): the command LATCHED holds, or the illegal command (R87). -/
def engineStep (s : State) : Host.Outcome State Fault Refusal :=
  match decode s.latched with
  | .error _ => .next s.illegalCommand
  | .ok i => exec i s

/-- The next move: nobody's, the engine's, or the host's next operation; with the state in which its input has been
taken from the lists. -/
inductive Move where
  | idle
  | engine (s : State)
  | host (op : HostOp) (s : State)
  deriving DecidableEq, Repr

/-- Who moves next (00_scope.md R6, 20_memory.md R70, I23). With no command pending the host moves, or nothing happens
(60_exceptions.md R232). With a command pending and nothing for the host to do, the engine moves. Where both could move,
the next entry of `turns` says who does; once `turns` is used up the engine does, which is weak fairness (log 5). -/
def nextMove (s : State) : Move :=
  match s.hostOps with
  | [] => if s.pending then .engine s else .idle
  | op :: rest =>
    if s.pending then
      match s.turns with
      | [] => .engine s
      | .engine :: ts => .engine { s with turns := ts }
      | .host :: ts => .host op { s with hostOps := rest, turns := ts }
    else .host op { s with hostOps := rest }

/-- A move that meets a fault puts the machine into the fault state, with nothing else changed (00_scope.md R11,
60_exceptions.md R222, log 7). -/
def settleMove (s : State) (o : Host.Outcome State Fault Refusal) : Host.Outcome State Fault Refusal :=
  match o with
  | .next t => .next t
  | .fault r => .next (s.enterFault r)
  | .refused r => .refused r

/-- A machine in no fault state makes the next move; with nothing to do it keeps every piece of state
(60_exceptions.md R232). -/
def liveStep (s : State) : Host.Outcome State Fault Refusal :=
  match nextMove s with
  | .idle => .next s
  | .engine t => settleMove t (engineStep t)
  | .host op t => settleMove t (hostStep op t)

/-- The fault state has no successor but reset (00_scope.md R11, 60_exceptions.md R222, I26). -/
def faultedStep (r : Fault) (s : State) : Host.Outcome State Fault Refusal :=
  match s.hostOps with
  | .reset :: rest => .next ({ s with hostOps := rest } : State).hardReset
  | _ => .fault r

/-- The word `w` accepted as a host write of CMD accepts it (30_encoding.md R84), in no fault state, with the engine to
move next (log 14). -/
def State.withCommand (s : State) (w : Word) : State :=
  { s.accept w with
    faulted := none
    turns := if s.hostOps = [] then s.turns else .engine :: s.turns }

end Sys2Proof.Machine
end

