-- ==== Sys2Proof/Machine/Step.lean ====
section
/-! DEFINITION. One step of the machine: one move of one agent (00_scope.md R6, 20_memory.md R70). -/

namespace Sys2Proof.Machine

/-- One step: the fault state waits for reset (00_scope.md R11), any other state makes its next move. -/
def step (s : State) : Host.Outcome State Fault Refusal :=
  match s.faulted with
  | some r => faultedStep r s
  | none => liveStep s

/-- `s` with an opcode-table word as the command the very next step executes (log 14). -/
def State.withFetchWord (s : State) (nbits w : Nat) : State := s.withCommand (tableWord nbits w)

end Sys2Proof.Machine
end

