-- ==== Sys2Proof/Safety.lean ====
section
/-! DEFINITION. The terms claims are stated in: what a state holds (a message, a stream, a text), whose turn it is, what
a command leaves unchanged, and the invariants every step keeps. -/

namespace Sys2Proof.Machine

/-- The rows of the table of 30_encoding.md R85, written out: word and command. -/
def commandTable : List (Word × Instr) :=
  [(0x00000001#32, .encodeRaw), (0x00000011#32, .encodeCaesar), (0x00000021#32, .encodeHuff),
   (0x00000002#32, .decodeRaw), (0x00000012#32, .decodeCaesar), (0x00000022#32, .decodeHuff),
   (0x00000003#32, .write), (0x00000004#32, .readall),
   (0x00000005#32, .embedRaw), (0x00000015#32, .embedCaesar), (0x00000025#32, .embedHuff),
   (0x00000006#32, .extractRaw), (0x00000016#32, .extractCaesar), (0x00000026#32, .extractHuff),
   (0x00000007#32, .newsession)]

/-! ### What a state holds -/

/-- MSG[0 .. MSG_LEN-1] holds the message `m` (10_state.md R32, R40). -/
def HoldsMessage (s : State) (m : List Symbol) : Prop :=
  s.msgLen = m.length ∧ ∀ k, (h : k < m.length) → bufferRead s.msg k = some (m[k].setWidth 32)

/-- The first bits of BITS are written, and they are `bits` (10_state.md R41). -/
def StreamStarts (s : State) (bits : List Bool) : Prop :=
  bits.length ≤ s.bitLen ∧ ∀ j, (h : j < bits.length) → s.streamBit j = some bits[j]

/-- All of BITS is written, and it is `bits` (10_state.md R33, R41). -/
def HoldsStream (s : State) (bits : List Bool) : Prop :=
  s.bitLen = bits.length ∧ ∀ j, (h : j < bits.length) → s.streamBit j = some bits[j]

/-- TEXT[0 .. TEXT_LEN-1] holds `out` (10_state.md R34, R42). -/
def HoldsText (s : State) (out : List Symbol) : Prop :=
  s.textLen = out.length ∧ ∀ k, (h : k < out.length) → bufferRead s.text k = some (out[k].setWidth 32)

/-- The grid in use lies in the pixel memory (42_embedder.md R175). -/
def GridInMemory (s : State) : Prop := s.capacity ≤ s.params.gridBytesMax

/-- The command has completed with a code (30_encoding.md R86). -/
def CompletedWith (t : State) (e : ErrorCode) : Prop := t.pending = false ∧ t.done = true ∧ t.err = e

/-! ### What a command leaves unchanged (30_encoding.md R89) -/

/-- What no command writes: LATCHED, OVR, CONFIG, MSG_LEN, the grid registers, the message buffer, the fault state, the
parameters, the inputs. -/
def HostStateKept (s t : State) : Prop :=
  t.latched = s.latched ∧ t.ovr = s.ovr ∧ t.shift = s.shift ∧ t.msgLen = s.msgLen ∧ t.rows = s.rows ∧ t.cols = s.cols ∧
    (∀ k, bufferRead t.msg k = bufferRead s.msg k) ∧ t.faulted = s.faulted ∧ t.params = s.params ∧
    t.hostOps = s.hostOps ∧ t.turns = s.turns ∧ t.reads = s.reads

/-- BIT_LEN and every word of the bit buffer. -/
def StreamKept (s t : State) : Prop := t.bitLen = s.bitLen ∧ ∀ w, bufferRead t.bitw w = bufferRead s.bitw w

/-- The words of the bit buffer above the last one a stream of `n` bits takes (10_state.md R41). -/
def WordsAboveKept (s t : State) (n : Nat) : Prop := ∀ w, wordCount n ≤ w → bufferRead t.bitw w = bufferRead s.bitw w

/-- Stream positions at or above BIT_LEN in the last word the stream takes are 0 (10_state.md R41). -/
def LastWordZeroFilled (t : State) : Prop :=
  ∀ j, t.bitLen ≤ j → j < 32 * wordCount t.bitLen → t.streamBit j = some false

/-- TEXT_LEN, DEC_POS, STATUS.DELIM and every entry of the text buffer. -/
def TextKept (s t : State) : Prop :=
  t.textLen = s.textLen ∧ t.decPos = s.decPos ∧ t.delim = s.delim ∧ ∀ k, bufferRead t.text k = bufferRead s.text k

/-- TREE_VALID and the tree store. -/
def TreeKept (s t : State) : Prop := t.treeValid = s.treeValid ∧ t.tree = s.tree

/-- The pixel memory of `t` carries `bits` in the LSBs of bytes `0 .. |bits|-1`: those bytes keep their other seven bits,
and every other byte is unchanged (42_embedder.md R172, R173). -/
def PixelsCarry (s t : State) (bits : List Bool) : Prop :=
  (∀ a, (h : a < bits.length) → (memRead t.pix a).getLsbD 0 = bits[a] ∧
      ∀ i, 1 ≤ i → (memRead t.pix a).getLsbD i = (memRead s.pix a).getLsbD i) ∧
    ∀ a, bits.length ≤ a → memRead t.pix a = memRead s.pix a

/-- The entries of the text buffer at or above TEXT_LEN (10_state.md R42). -/
def EntriesAboveKept (s t : State) : Prop := ∀ k, t.textLen ≤ k → bufferRead t.text k = bufferRead s.text k

/-- Every byte of the pixel memory. -/
def PixelsKept (s t : State) : Prop := ∀ a, memRead t.pix a = memRead s.pix a

/-! ### Whose turn it is (00_scope.md R6, log 5) -/

/-- The engine moves next. -/
def EngineTurn (s : State) : Prop :=
  s.faulted = none ∧ s.pending = true ∧ (s.hostOps = [] ∨ s.turns.head? ≠ some .host)

/-- The state the engine's move starts from: the entry of `turns` that gave the turn is used. -/
def engineStart (s : State) : State := if s.hostOps = [] then s else { s with turns := s.turns.tail }

/-- The host moves next, with operation `op`. -/
def HostTurn (s : State) (op : HostOp) : Prop :=
  s.faulted = none ∧ s.hostOps.head? = some op ∧ (s.pending = false ∨ s.turns.head? = some .host)

/-- The state the host's move starts from: the operation and, if there was a choice, the entry of `turns` are used. -/
def hostStart (s : State) : State :=
  { s with hostOps := s.hostOps.tail, turns := if s.pending then s.turns.tail else s.turns }

/-- The platform's reset is what happens next: the host's next move, or, in the fault state, first in its list (log 16). -/
def ResetTurn (s : State) : Prop := HostTurn s .reset ∨ (s.faulted ≠ none ∧ s.hostOps.head? = some .reset)

/-! ### Trees (41_huffman.md R133, R135, R139) -/

/-- The node list before pass `j` of the loop of R133, for `k` leaves, by the frequencies of `nodes`: the leaves at first;
each pass sorts it, takes the first two away and appends the new node. -/
def passList (nodes : List Node) (k : Nat) : Nat → List Nat
  | 0 => List.range k
  | j + 1 => (stableSortByFreq nodes (passList nodes k j)).drop 2 ++ [k + j]

/-- The node at the end of a path: from a node, `left` on 0 and `right` on 1, first bit first (41_huffman.md R135, R139). -/
def followPath (nodes : List Node) : Nat → List Bool → Option Nat
  | n, [] => some n
  | n, b :: rest =>
    match nodes[n]? with
    | some (.internal _ _ l r) => followPath nodes (if b then r else l) rest
    | _ => none

/-! ### Invariants -/

/-- The parameters meet the constraints of 00_scope.md R7. -/
def ParamsLegal (s : State) : Prop := s.params.wellFormed = true

/-- The length registers stay within their buffers (10_state.md R32 to R35, D23). -/
def LengthsInRange (s : State) : Prop :=
  s.msgLen ≤ s.params.msgMax ∧ s.bitLen ≤ s.params.bitMax ∧ s.textLen ≤ s.params.textMax ∧ s.decPos ≤ s.params.bitMax

/-- The pixel memory and the buffers are in canonical form and within their depths. -/
def StorageCanonical (s : State) : Prop :=
  Memory.wf s.pix = true ∧ cellsBelow s.params.gridBytesMax s.pix = true ∧ bufferWf s.params.msgMax s.msg = true ∧
    bufferWf (wordCount s.params.bitMax) s.bitw = true ∧ bufferWf s.params.textMax s.text = true

/-- Every entry of TEXT below TEXT_LEN has been written and holds a symbol (10_state.md R34, R42). -/
def TextReadable (s : State) : Prop :=
  ∀ k, k < s.textLen → ∃ c : Symbol, bufferRead s.text k = some (c.setWidth 32)

/-- The command lifecycle: while a command is pending DONE, ERR and DELIM are clear (30_encoding.md R84); DELIM is only
set by a command that completed without error (10_state.md R27, 60_exceptions.md R224); ERR is never INTERNAL (R216). -/
def LifecycleSound (s : State) : Prop :=
  (s.pending = true → s.done = false ∧ s.err = .noError ∧ s.delim = false) ∧
    (s.delim = true → s.done = true ∧ s.err = .noError) ∧ s.err ≠ .internal

/-- The storage invariant: what keeps every stage inside its buffers. -/
def StorageInv (s : State) : Prop := ParamsLegal s ∧ LengthsInRange s ∧ StorageCanonical s

/-- The children of the internal nodes, in node order. -/
def childRefs : List Node → List Nat
  | [] => []
  | .leaf _ _ _ :: rest => childRefs rest
  | .internal _ _ l r :: rest => l :: r :: childRefs rest

/-- A node by itself: a leaf's set is its one symbol and it occurs; an internal node has two children, created before it,
of which its frequency is the sum and its set the disjoint union (10_state.md R44, 41_huffman.md R137). -/
def NodeSound (nodes : List Node) (i : Nat) (n : Node) : Prop :=
  match n with
  | .leaf f v c => 1 ≤ f ∧ v = symsOf c
  | .internal f v l r =>
    l < i ∧ r < i ∧ f = freqAt nodes l + freqAt nodes r ∧ v = symsAt nodes l ||| symsAt nodes r ∧
      symsAt nodes l &&& symsAt nodes r = 0

/-- The invariants of the tree store (10_state.md R43, R44; 41_huffman.md R132, R133, R137): at most 256 leaves with
distinct symbols, the delimiter's among them; exactly one root, the last node; every other node the child of exactly one. -/
structure TreeSound (t : TreeStore) : Prop where
  leaves_pos    : 1 ≤ t.leaves
  leaves_le     : t.leaves ≤ 256
  nodes_count   : t.nnodes = 2 * t.leaves - 1
  root_last     : t.root + 1 = t.nnodes
  syms_distinct : (leafSyms t.nodes).Nodup
  node_sound    : ∀ i, (h : i < t.nodes.length) → NodeSound t.nodes i t.nodes[i]
  one_parent    : ∀ i, i < t.nodes.length → (childRefs t.nodes).count i = if i = t.root then 0 else 1
  has_delim     : delimSym ∈ leafSyms t.nodes

/-- The tree store holds a sound tree whenever TREE_VALID says it holds one (10_state.md R30, R44). -/
def TreeInv (s : State) : Prop := s.treeValid = true → TreeSound s.tree

end Sys2Proof.Machine
end

