-- ==== Sys2Proof/Certificates/Slice0/Obligations.lean ====
section
/-! DEFINITION. The statements about the block, for the provers (OBLIGATIONS.json lists them). Each docstring names the
rules of spec/ it formalises. -/

open Sys2Proof Sys2Proof.Machine

/-! ### Encoding (30_encoding.md R80 to R88) -/

/-- The decoder reads a word as a command exactly where the table of R85 has that row. -/
def Obligations.DecodeMatchesCommandTable : Prop :=
  ∀ (w : Word) (i : Instr), decode w = .ok i ↔ (w, i) ∈ commandTable

/-- The encoder gives every command the word of its row of R85, and the decoder reads that word back as the command; and some
words written out from R80 to R82 and R88, legal and illegal, decode as the table says. -/
def Obligations.EncodeMatchesCommandTable : Prop :=
  (∀ i : Instr, (encode i, i) ∈ commandTable ∧ decode (encode i) = .ok i) ∧
    decode 0x00000001#32 = .ok .encodeRaw ∧ decode 0x00000012#32 = .ok .decodeCaesar ∧
    decode 0x00000003#32 = .ok .write ∧ decode 0x00000004#32 = .ok .readall ∧
    decode 0x00000025#32 = .ok .embedHuff ∧ decode 0x00000026#32 = .ok .extractHuff ∧
    decode 0x00000007#32 = .ok .newsession ∧ decode 0x00000000#32 = .error .reservedOp ∧
    decode 0x00000031#32 = .error .reservedKind ∧ decode 0x00000013#32 = .error .kindNotAllowed ∧
    decode 0x00000041#32 = .error .reservedBits

/-- R83: `legal(w)` as the rule spells it, and the decoder accepts exactly the legal words. -/
def Obligations.LegalWordsAreTheCommands : Prop :=
  ∀ w : Word,
    (legalWord w = true ↔
      w.extractLsb' 6 26 = 0#26 ∧
        (((w.extractLsb' 0 4).toNat ∈ [1, 2, 5, 6] ∧ (w.extractLsb' 4 2).toNat ∈ [0, 1, 2]) ∨
          ((w.extractLsb' 0 4).toNat ∈ [3, 4, 7] ∧ (w.extractLsb' 4 2).toNat = 0))) ∧
    (legalWord w = true ↔ ∃ i, decode w = .ok i)

/-! ### Steps, acceptance, completion (00_scope.md R6, 30_encoding.md R84 to R87) -/

/-- R85: when the engine moves and LATCHED decodes to `i`, the step is `exec i`; a fault of it puts the machine into the fault
state with nothing else changed (the turn that was used apart; logs 5 and 7). R232: with no command pending and no access
coming, every piece of state is kept. -/
def Obligations.StepRunsDecodedCommand : Prop :=
  (∀ (s : State) (i : Instr), EngineTurn s → decode s.latched = .ok i →
    (∀ t, exec i (engineStart s) = .next t → step s = .next t) ∧
      ∀ r, exec i (engineStart s) = .fault r → step s = .next { engineStart s with faulted := some r }) ∧
  ∀ s : State, s.faulted = none → s.pending = false → s.hostOps = [] → step s = .next s

/-- R87: an illegal word completes with ILLEGAL_CMD (code 6) and changes nothing else. -/
def Obligations.IllegalWordCompletesWithIllegalCmd : Prop :=
  ErrorCode.illegalCmd.code = 6#4 ∧
    ∀ s : State, EngineTurn s → legalWord s.latched = false →
      step s = .next { engineStart s with err := .illegalCmd, done := true, pending := false }

/-- R84: a host write of CMD is accepted while no command is pending, and dropped with OVR set while one is. -/
def Obligations.CommandWriteAcceptedOrDropped : Prop :=
  ∀ (s : State) (w : Word), HostTurn s (.busWrite 32 s.params.blockBase w) →
    step s = .next (if s.pending then { hostStart s with ovr := true }
      else { hostStart s with latched := w, pending := true, done := false, err := .noError, delim := false })

/-- R73, R246: while a command is pending, no host operation but reset changes anything except OVR, the fault state, and the
model's own input and observation lists (logs 5 and 6); the latched command stays pending. That an access which faults
changes nothing but the fault state is the model's reading (log 7, DEDUCED). -/
def Obligations.BusyHostChangesOnlyOvr : Prop :=
  ∀ (s t : State) (op : HostOp), HostTurn s op → op ≠ .reset → s.pending = true → step s = .next t →
    t = { s with ovr := t.ovr, faulted := t.faulted, hostOps := t.hostOps, turns := t.turns, reads := t.reads }

/-- R28: OVR is set by a dropped CMD write, cleared by a STATUS write with bit 3 = 1 and by reset, cleared by nothing else, and
0 at reset. -/
def Obligations.OvrIsSticky : Prop :=
  State.reset.ovr = false ∧
    (∀ (s : State) (w : Word), HostTurn s (.busWrite 32 s.params.blockBase w) → s.pending = true →
      ∃ t, step s = .next t ∧ t.ovr = true) ∧
    (∀ (s : State) (v : Word), HostTurn s (.busWrite 32 (s.params.blockBase + 4) v) → v.getLsbD 3 = true →
      ∃ t, step s = .next t ∧ t.ovr = false) ∧
    (∀ s : State, ResetTurn s → ∃ t, step s = .next t ∧ t.ovr = false) ∧
    ∀ s t : State, step s = .next t → s.ovr = true → t.ovr = false →
      ResetTurn s ∨ ∃ v : Word, HostTurn s (.busWrite 32 (s.params.blockBase + 4) v) ∧ v.getLsbD 3 = true

/-- R24: the fields of STATUS, its reset value, and that a host write does nothing but clear OVR with bit 3. -/
def Obligations.StatusFieldsAndWrite : Prop :=
  (∀ s : State, s.status.toNat = s.pending.toNat + 2 * s.done.toNat + 4 * s.delim.toNat + 8 * s.ovr.toNat +
      16 * s.err.code.toNat + 256 * s.treeValid.toNat) ∧
    State.reset.status = 0#32 ∧
    ∀ (s : State) (v : Word), HostTurn s (.busWrite 32 (s.params.blockBase + 4) v) →
      step s = .next { hostStart s with ovr := s.ovr && !v.getLsbD 3 }

/-- Derived from R6 and R245 with the model's scheduling (log 5): a host that polls while a command is pending reads STATUS at
most as often as `turns` has entries before the engine's step comes, and changes nothing else. -/
def Obligations.PollingReachesTheEngineStep : Prop :=
  ∀ (s : State) (rest : List HostOp), s.faulted = none → s.pending = true → s.hostOps = .poll :: rest →
    ∃ k t, k ≤ s.turns.length ∧ Host.Core.run Sys2Proof.core k s = .next t ∧ EngineTurn t ∧
      t = { s with turns := t.turns, reads := List.replicate k s.status ++ s.reads }

/-! ### The register window (10_state.md R22 to R42, 20_memory.md R61) -/

/-- R31, R32, R33, R36, R37, R39: CONFIG keeps the low 8 bits of a write, GRID_ROWS and GRID_COLS the low 16; a length above its
buffer's depth is discarded; writes to the read-only registers and to TEXT are ignored. -/
def Obligations.RegisterWritesKeepLegalValues : Prop :=
  ∀ (s : State) (v : Word), s.pending = false →
    (HostTurn s (.busWrite 32 (s.params.blockBase + 0x8) v) →
      step s = .next { hostStart s with shift := BitVec.ofNat 8 v.toNat }) ∧
    (HostTurn s (.busWrite 32 (s.params.blockBase + 0x1C) v) →
      step s = .next { hostStart s with rows := BitVec.ofNat 16 v.toNat }) ∧
    (HostTurn s (.busWrite 32 (s.params.blockBase + 0x20) v) →
      step s = .next { hostStart s with cols := BitVec.ofNat 16 v.toNat }) ∧
    (HostTurn s (.busWrite 32 (s.params.blockBase + 0xC) v) →
      step s = .next (if v.toNat ≤ s.params.msgMax then { hostStart s with msgLen := v.toNat } else hostStart s)) ∧
    (HostTurn s (.busWrite 32 (s.params.blockBase + 0x10) v) →
      step s = .next (if v.toNat ≤ s.params.bitMax then { hostStart s with bitLen := v.toNat } else hostStart s)) ∧
    (∀ off ∈ [0x14, 0x18, 0x24], HostTurn s (.busWrite 32 (s.params.blockBase + off) v) → step s = .next (hostStart s)) ∧
    ∀ k, ParamsLegal s → k < s.params.textMax →
      HostTurn s (.busWrite 32 (s.params.blockBase + 0x300000 + 4 * k) v) → step s = .next (hostStart s)

/-- R23 to R38: what the reads of the registers return; CMD reads 0 and reserved bits read 0. -/
def Obligations.RegisterReadsReturnTheirValues : Prop :=
  ∀ (s : State) (off : Nat) (v : Word), s.pending = false →
    (off, v) ∈ [(0x0, 0#32), (0x4, s.status), (0xC, BitVec.ofNat 32 s.msgLen), (0x10, BitVec.ofNat 32 s.bitLen),
      (0x14, BitVec.ofNat 32 s.textLen), (0x18, BitVec.ofNat 32 s.decPos), (0x8, BitVec.ofNat 32 s.shift.toNat),
      (0x1C, BitVec.ofNat 32 s.rows.toNat), (0x20, BitVec.ofNat 32 s.cols.toNat), (0x24, s.treeInfo)] →
    HostTurn s (.busRead 32 (s.params.blockBase + off)) →
    step s = .next { hostStart s with reads := v :: s.reads }

/-- R40, R41, R42, R48: a host read of a buffer entry returns the value written there, and faults if none was. -/
def Obligations.BufferReadsReturnOrFault : Prop :=
  ∀ (s : State) (k : Nat), ParamsLegal s → s.pending = false →
    (k < s.params.msgMax → HostTurn s (.busRead 32 (s.params.blockBase + 0x100000 + 4 * k)) →
      (∀ v, bufferRead s.msg k = some v → step s = .next { hostStart s with reads := v :: s.reads }) ∧
        (bufferRead s.msg k = none → step s = .next { hostStart s with faulted := some .unwrittenRead })) ∧
    (k < (s.params.bitMax + 31) / 32 → HostTurn s (.busRead 32 (s.params.blockBase + 0x200000 + 4 * k)) →
      (∀ v, bufferRead s.bitw k = some v → step s = .next { hostStart s with reads := v :: s.reads }) ∧
        (bufferRead s.bitw k = none → step s = .next { hostStart s with faulted := some .unwrittenRead })) ∧
    (k < s.params.textMax → HostTurn s (.busRead 32 (s.params.blockBase + 0x300000 + 4 * k)) →
      (∀ v, bufferRead s.text k = some v → step s = .next { hostStart s with reads := v :: s.reads }) ∧
        (bufferRead s.text k = none → step s = .next { hostStart s with faulted := some .unwrittenRead }))

/-- R40, R41, R70: a host write of a MSG entry or BITW word is what that location reads afterwards; every other location of
the window reads as before. -/
def Obligations.BufferWriteThenRead : Prop :=
  ∀ (s : State) (v : Word) (k : Nat), ParamsLegal s → s.pending = false →
    (k < s.params.msgMax → HostTurn s (.busWrite 32 (s.params.blockBase + 0x100000 + 4 * k) v) →
      ∃ t, step s = .next t ∧ ∀ r, t.readReg r = if r = .msg k then some v else s.readReg r) ∧
    (k < (s.params.bitMax + 31) / 32 → HostTurn s (.busWrite 32 (s.params.blockBase + 0x200000 + 4 * k) v) →
      ∃ t, step s = .next t ∧ ∀ r, t.readReg r = if r = .bitw k then some v else s.readReg r)

/-- R67: a host read, of the window or of the pixel memory, or a poll, changes no state of the block; the fault state apart,
where the read faults: that nothing else changes there is the model's reading (log 7, DEDUCED). -/
def Obligations.HostReadHasNoSideEffect : Prop :=
  ∀ (s t : State) (op : HostOp), HostTurn s op →
    ((∃ width addr, op = .busRead width addr) ∨ (∃ a, op = .pixRead a) ∨ op = .poll) → step s = .next t →
    t = { s with faulted := t.faulted, hostOps := t.hostOps, turns := t.turns, reads := t.reads }

/-- R61, R39: an access of another width, at an offset that is no multiple of 4, or to a reserved or unmapped offset is a bus
error, and nothing of the block changes. Stated with no command pending (while one is, R247 applies as well: log 8). -/
def Obligations.BadWindowAccessIsBusError : Prop :=
  ∀ (s : State) (width off : Nat) (op : HostOp), s.pending = false → off < 0x400000 →
    (op = .busRead width (s.params.blockBase + off) ∨ ∃ v, op = .busWrite width (s.params.blockBase + off) v) →
    (width ≠ 32 ∨ off % 4 ≠ 0 ∨ (0x28 ≤ off ∧ off < 0x100000) ∨
      (0x100000 + 4 * s.params.msgMax ≤ off ∧ off < 0x200000) ∨
      (0x200000 + 4 * ((s.params.bitMax + 31) / 32) ≤ off ∧ off < 0x300000) ∨
      0x300000 + 4 * s.params.textMax ≤ off) →
    HostTurn s op → step s = .next { hostStart s with faulted := some .hostBusError }

/-- R246, R247: while BUSY = 1 an access to any existing location but STATUS and CMD, and any access to a byte of the pixel
memory, is a hazard; STATUS and CMD can be read and written. That nothing but the fault state then changes is the model's
reading (log 7, DEDUCED); that a read of an unwritten entry reports the hazard is the model's choice (log 8), and an access
that is also a bus error (log 8) is left out. -/
def Obligations.BusyAccessIsHazard : Prop :=
  ∀ (s : State) (r : WindowReg) (v : Word) (a : Nat) (b : Byte), ParamsLegal s → s.pending = true →
    (r.exists s.params = true → r ≠ .status → r ≠ .cmd →
      (HostTurn s (.busRead 32 (s.params.blockBase + r.offset)) ∨
        HostTurn s (.busWrite 32 (s.params.blockBase + r.offset) v)) →
      step s = .next { hostStart s with faulted := some .hostHazard }) ∧
    (a < s.params.gridBytesMax → (HostTurn s (.pixRead a) ∨ HostTurn s (.pixWrite a b)) →
      step s = .next { hostStart s with faulted := some .hostHazard }) ∧
    (HostTurn s (.busRead 32 (s.params.blockBase + 4)) →
      step s = .next { hostStart s with reads := s.status :: s.reads }) ∧
    (HostTurn s (.busWrite 32 (s.params.blockBase + 4) v) →
      step s = .next { hostStart s with ovr := s.ovr && !v.getLsbD 3 }) ∧
    (HostTurn s (.busRead 32 s.params.blockBase) → step s = .next { hostStart s with reads := 0#32 :: s.reads }) ∧
    (HostTurn s (.busWrite 32 s.params.blockBase v) → step s = .next { hostStart s with ovr := true })

/-- R45, R60: with no command pending the host reads and writes single bytes of the pixel memory; a write changes no other
byte. -/
def Obligations.HostPixelReadsAndWrites : Prop :=
  ∀ (s : State) (a : Nat) (v : Byte), s.pending = false → a < s.params.gridBytesMax →
    (HostTurn s (.pixRead a) →
      step s = .next { hostStart s with reads := BitVec.ofNat 32 (memRead s.pix a).toNat :: s.reads }) ∧
    (HostTurn s (.pixWrite a v) →
      ∃ m, step s = .next { hostStart s with pix := m } ∧ ∀ b, memRead m b = if b = a then v else memRead s.pix b)

/-! ### Fault state and reset (60_exceptions.md R222, 70_reset_and_hazards.md R240 to R243) -/

/-- R11, R222, I26: the fault state answers its fault on every step until the platform asserts reset, which clears it. -/
def Obligations.FaultStateLeftOnlyByReset : Prop :=
  ∀ (s : State) (r : Fault), s.faulted = some r →
    (s.hostOps.head? ≠ some .reset → step s = .fault r) ∧
      (s.hostOps.head? = some .reset → ∃ t, step s = .next t ∧ t.faulted = none)

/-- R240, R241, R242: what reset leaves, from any state it can be asserted in, a pending or a faulted one included; the pixel
memory and the parameters stay. -/
def Obligations.ResetAction : Prop :=
  ∀ s : State, (HostTurn s .reset ∨ (s.faulted ≠ none ∧ s.hostOps.head? = some .reset)) →
    ∃ t, step s = .next t ∧ t.pending = false ∧ t.done = false ∧ t.delim = false ∧ t.ovr = false ∧ t.err = .noError ∧
      t.treeValid = false ∧ t.status = 0#32 ∧ t.shift = 3#8 ∧ t.msgLen = 0 ∧ t.bitLen = 0 ∧ t.textLen = 0 ∧
      t.decPos = 0 ∧ t.rows = 0#16 ∧ t.cols = 0#16 ∧ t.treeInfo = 0#32 ∧ (∀ k, bufferRead t.msg k = none) ∧
      (∀ k, bufferRead t.bitw k = none) ∧ (∀ k, bufferRead t.text k = none) ∧ t.faulted = none ∧
      (∀ a, memRead t.pix a = memRead s.pix a) ∧ t.params = s.params

/-- R243: the first commands after reset, whatever the parameters and the pixel memory. -/
def Obligations.FirstCommandsAfterReset : Prop :=
  ∀ (p : Params) (m : Memory) (s : State), s = { State.reset with params := p, pix := m } →
    exec .decodeHuff s = .next { s with err := .session, done := true } ∧
    (p.rawPolicy = .returnText → ∀ i ∈ [Instr.decodeRaw, Instr.decodeCaesar],
      ∃ t, exec i s = .next t ∧ t.textLen = 0 ∧ t.decPos = 0 ∧ t.delim = false ∧ t.err = .noError) ∧
    (p.rawPolicy = .raiseTruncated → ∀ i ∈ [Instr.decodeRaw, Instr.decodeCaesar],
      exec i s = .next { s with err := .truncated, done := true }) ∧
    (p.capacityRule = .marginRule → exec .write s = .next { s with err := .capacity, done := true }) ∧
    (∃ t, exec .readall s = .next t ∧ t.bitLen = 0 ∧ t.err = .noError) ∧
    (8 ≤ p.bitMax → (∃ t, exec .encodeRaw s = .next t ∧ t.err = .noError ∧ HoldsStream t (bin8 delimSym)) ∧
      ∃ t, exec .encodeCaesar s = .next t ∧ t.err = .noError ∧ HoldsStream t (bin8 0x26#8)) ∧
    (1 ≤ p.bitMax → ∃ t, exec .encodeHuff s = .next t ∧ t.err = .noError ∧ HoldsStream t [false]) ∧
    exec .newsession s = .next { s with err := .noError, done := true }

/-! ### The fixed-width codec (40_codec_raw_caesar.md R100 to R114) -/

/-- R100: the raw stream has 8 bits a symbol, most significant bit first, in text order. -/
def Obligations.RawEncodeBits : Prop :=
  ∀ t : List Symbol, (rawEncode t).length = 8 * t.length ∧
    ∀ i k, (h : i < t.length) → k < 8 → (rawEncode t)[8 * i + k]? = some (t[i].getLsbD (7 - k))

/-- R113: raw round trip, whatever follows the stream. -/
def Obligations.RawRoundTrip : Prop :=
  ∀ (m : List Symbol) (x : List Bool), delimSym ∉ m →
    rawDecode (rawEncode (m ++ [delimSym]) ++ x) = { out := m, found := true, pos := 8 * (m.length + 1) }

/-- R102: the bit-serial form gives the result of the chunked form. -/
def Obligations.SerialRawDecodeAgrees : Prop :=
  ∀ bits : List Bool, rawDecodeSerial 0#8 0 0 bits = rawDecode bits

/-- R103: the shifts are addition and subtraction modulo 256, and undo each other. -/
def Obligations.CaesarShiftArithmetic : Prop :=
  ∀ (c : Symbol) (s : BitVec 8), (shiftUp c s).toNat = (c.toNat + s.toNat) % 256 ∧
    ((shiftDown c s).toNat : Int) = ((c.toNat : Int) - s.toNat) % 256 ∧ shiftDown (shiftUp c s) s = c

/-- R114 (with 90_conflicts.md C4): Caesar round trip, whatever follows the stream. -/
def Obligations.CaesarRoundTrip : Prop :=
  ∀ (m : List Symbol) (s : BitVec 8) (x : List Bool), delimSym ∉ m → shiftDown delimSym s ∉ m →
    caesarDecode (caesarEncode (m ++ [delimSym]) s ++ x) s = { out := m, found := true, pos := 8 * (m.length + 1) }

/-- R112, 90_conflicts.md C4: a message symbol equal to `down(0x23, s)` ends the Caesar decode, with DELIM = 1. -/
def Obligations.CaesarDecodeStopsAtClash : Prop :=
  ∀ (m rest : List Symbol) (s : BitVec 8) (x : List Bool), delimSym ∉ m → shiftDown delimSym s ∉ m →
    caesarDecode (caesarEncode (m ++ shiftDown delimSym s :: rest) s ++ x) s =
      { out := m, found := true, pos := 8 * (m.length + 1) }

/-! ### The Huffman codec (41_huffman.md R130 to R153) -/

/-- R134: the sort is a permutation, ascending by frequency, and nodes of equal frequency keep their order. -/
def Obligations.StableSortOrdersByFrequency : Prop :=
  ∀ (nodes : List Node) (l : List Nat),
    (stableSortByFreq nodes l).Perm l ∧
    (stableSortByFreq nodes l).Pairwise (fun a b => freqAt nodes a ≤ freqAt nodes b) ∧
    ∀ f, (stableSortByFreq nodes l).filter (fun n => freqAt nodes n = f) = l.filter (fun n => freqAt nodes n = f)

/-- R131: both leaf orders list the distinct symbols of the text, by first index or by code point. -/
def Obligations.LeafOrdersListDistinctSymbols : Prop :=
  ∀ t : List Symbol,
    (∀ o c, c ∈ leafOrder o t ↔ c ∈ t) ∧ (∀ o, (leafOrder o t).Nodup) ∧
    (leafOrder .firstOccurrence t).Pairwise (fun a b => t.idxOf a < t.idxOf b) ∧
    (leafOrder .ascendingSymbol t).Pairwise (fun a b => a.toNat < b.toNat)

/-- R44, R132, R133, R135, R137: the tree of a text that holds the delimiter is sound; leaf `i` holds symbol `L0[i]` with its
count; the node of merge `j` is node `k + j`, its left and right child are the first and the second node of the sorted list of
pass `j`, and no other node of that list has a lower frequency; the last pass leaves ROOT alone; NNODES = 2k − 1, ROOT is the
last node, and its frequency is the length of the text. -/
def Obligations.BuiltTreeIsSound : Prop :=
  ∀ (o : LeafOrder) (t : List Symbol), delimSym ∈ t →
    TreeSound (buildTree o t) ∧
    (buildTree o t).leaves = (leafOrder o t).length ∧
    (∀ i, (h : i < (leafOrder o t).length) → (buildTree o t).nodes[i]? =
      some (.leaf (t.count (leafOrder o t)[i]) (symsOf (leafOrder o t)[i]) (leafOrder o t)[i])) ∧
    (∀ j, j + 1 < (leafOrder o t).length → ∃ f v l r rest,
      (buildTree o t).nodes[(leafOrder o t).length + j]? = some (.internal f v l r) ∧
      stableSortByFreq (buildTree o t).nodes (passList (buildTree o t).nodes (leafOrder o t).length j) = l :: r :: rest ∧
      freqAt (buildTree o t).nodes l ≤ freqAt (buildTree o t).nodes r ∧
      ∀ n ∈ rest, freqAt (buildTree o t).nodes r ≤ freqAt (buildTree o t).nodes n) ∧
    passList (buildTree o t).nodes (leafOrder o t).length ((leafOrder o t).length - 1) = [(buildTree o t).root] ∧
    (buildTree o t).nnodes = 2 * (leafOrder o t).length - 1 ∧
    (buildTree o t).root = 2 * (leafOrder o t).length - 2 ∧
    freqAt (buildTree o t).nodes (buildTree o t).root = t.length

/-- R149: no symbol's code is a prefix of another's. -/
def Obligations.CodesArePrefixFree : Prop :=
  ∀ (o : LeafOrder) (t : List Symbol) (c d : Symbol) (x y : List Bool), c ∈ t → d ∈ t → c ≠ d →
    findCode (buildTree o t) c = some x → findCode (buildTree o t) d = some y → ¬ x <+: y

/-- R153, R140, R135, R138, R139: every symbol of a text has a code of 1 to max(1, k−1) bits, the stream is the codes in text
order, and it has at most |t|·max(1, k−1) bits; with two leaves or more, the code of a symbol is the path from ROOT to its
leaf, root edge first, 0 for the left child and 1 for the right. -/
def Obligations.HuffmanCodesExistAndAreBounded : Prop :=
  ∀ (o : LeafOrder) (t : List Symbol), t ≠ [] →
    1 ≤ (leafOrder o t).length ∧ (leafOrder o t).length ≤ 256 ∧
    (2 ≤ (leafOrder o t).length → ∀ c ∈ t, ∃ code n f v, findCode (buildTree o t) c = some code ∧
      followPath (buildTree o t).nodes (buildTree o t).root code = some n ∧
      (buildTree o t).nodes[n]? = some (.leaf f v c)) ∧
    ∃ codes : List (List Bool), t.map (findCode (buildTree o t)) = codes.map some ∧
      (∀ x ∈ codes, 1 ≤ x.length ∧ x.length ≤ max 1 ((leafOrder o t).length - 1)) ∧
      huffEncode o t = some (buildTree o t, codes.flatten) ∧
      codes.flatten.length ≤ t.length * max 1 ((leafOrder o t).length - 1)

/-- R136: the one-leaf tree arises exactly when every message symbol is 0x23; its code is `[0]`, and its decoder takes one bit
per symbol whatever the bit's value. -/
def Obligations.OneLeafTreeUsesOneBit : Prop :=
  (∀ (o : LeafOrder) (m : List Symbol),
    (leafOrder o (m ++ [delimSym])).length = 1 ↔ ∀ c ∈ m, c = delimSym) ∧
  ∀ (o : LeafOrder) (m : List Symbol), (∀ c ∈ m, c = delimSym) →
    findCode (buildTree o (m ++ [delimSym])) delimSym = some [false] ∧
    huffEncode o (m ++ [delimSym]) =
      some (buildTree o (m ++ [delimSym]), List.replicate (m.length + 1) false) ∧
    ∀ (cur j : Nat) (b : Bool) (x : List Bool),
      huffWalk (buildTree o (m ++ [delimSym])) cur j (b :: x) = some { out := [], found := true, pos := j + 1 }

/-- R148, R38: TREE_INFO is 0 without a valid tree; with the tree of a text it is the number of distinct symbols in bits 8:0 and
the length of the longest code in bits 23:16. -/
def Obligations.TreeInfoDescribesTheTree : Prop :=
  (∀ s : State, s.treeValid = false → s.treeInfo = 0#32) ∧
  ∀ (s : State) (o : LeafOrder) (t : List Symbol), s.treeValid = true → t ≠ [] → s.tree = buildTree o t →
    ∃ longest, s.treeInfo.toNat = (leafOrder o t).length + 65536 * longest ∧
      (∀ c ∈ t, ∀ x, findCode s.tree c = some x → x.length ≤ longest) ∧
      ∃ c ∈ t, ∃ x, findCode s.tree c = some x ∧ x.length = longest

/-- R151: a Huffman stream decodes to its message with the tree it was encoded with, whatever follows it; under ALL_BUT_LAST
something must follow, and without it the result is TRUNCATED. -/
def Obligations.HuffmanRoundTrip : Prop :=
  ∀ (s : State) (m : List Symbol) (bits x : List Bool), delimSym ∉ m → s.treeValid = true →
    huffEncode s.params.leafOrder (m ++ [delimSym]) = some (s.tree, bits) → HoldsStream s (bits ++ x) →
    (s.params.huffBound = .allBits ∨ x ≠ [] →
      ∃ t, exec .decodeHuff s = .next t ∧ CompletedWith t .noError ∧ HoldsText t m ∧ t.decPos = bits.length ∧
        t.delim = true) ∧
    (s.params.huffBound = .allButLast → x = [] →
      exec .decodeHuff s = .next { s with err := .truncated, done := true, pending := false })

/-! ### ENCODE.k and DECODE.k -/

/-- R109, R110: ENCODE.RAW and ENCODE.CAESAR complete, with the raw or shifted stream of the message and its delimiter, TREE_VALID
0, and nothing else changed. -/
def Obligations.EncodeFixedWidthResult : Prop :=
  ∀ (s : State) (m : List Symbol), HoldsMessage s m → 8 * (m.length + 1) ≤ s.params.bitMax →
    (∃ t, exec .encodeRaw s = .next t ∧ CompletedWith t .noError ∧ t.bitLen = 8 * (m.length + 1) ∧
      HoldsStream t (rawEncode (m ++ [0x23#8])) ∧ LastWordZeroFilled t ∧ t.treeValid = false ∧ t.tree = s.tree ∧
      HostStateKept s t ∧ WordsAboveKept s t t.bitLen ∧ TextKept s t ∧ PixelsKept s t) ∧
    ∃ t, exec .encodeCaesar s = .next t ∧ CompletedWith t .noError ∧ t.bitLen = 8 * (m.length + 1) ∧
      HoldsStream t (rawEncode ((m ++ [0x23#8]).map fun c => c + s.shift)) ∧ LastWordZeroFilled t ∧
      t.treeValid = false ∧ t.tree = s.tree ∧
      HostStateKept s t ∧ WordsAboveKept s t t.bitLen ∧ TextKept s t ∧ PixelsKept s t

/-- R146: ENCODE.HUFF completes, with the tree of the message and its delimiter in the store, TREE_VALID 1, and the stream of its
codes, if the stream fits the bit buffer; it always does where BIT_MAX allows 255 bits a symbol. -/
def Obligations.EncodeHuffResult : Prop :=
  ∀ (s : State) (m : List Symbol), HoldsMessage s m →
    (∀ codes : List (List Bool),
      (m ++ [0x23#8]).map (findCode (buildTree s.params.leafOrder (m ++ [0x23#8]))) = codes.map some →
      codes.flatten.length ≤ s.params.bitMax →
      ∃ t, exec .encodeHuff s = .next t ∧ CompletedWith t .noError ∧ HoldsStream t codes.flatten ∧ LastWordZeroFilled t ∧
        t.treeValid = true ∧ t.tree = buildTree s.params.leafOrder (m ++ [0x23#8]) ∧
        HostStateKept s t ∧ WordsAboveKept s t t.bitLen ∧ TextKept s t ∧ PixelsKept s t) ∧
    (255 * (m.length + 1) ≤ s.params.bitMax → ∃ t, exec .encodeHuff s = .next t ∧ CompletedWith t .noError)

/-- R106, R107, R212, R218, R223, R224: where an encode stage stops. An unwritten message entry is a fault; with every entry
written, one above 255 is FORMAT, before any encoding; a stream longer than BIT_MAX is OVERFLOW. An error changes nothing but
TREE_VALID and the completion. EMBED.k stops the same way. -/
def Obligations.EncodeStageStops : Prop :=
  ∀ s : State,
    (∀ i ∈ [Instr.encodeRaw, .encodeCaesar, .encodeHuff, .embedRaw, .embedCaesar, .embedHuff],
      ((∃ k, k < s.msgLen ∧ bufferRead s.msg k = none) → exec i s = .fault .unwrittenRead) ∧
      ((∀ k, k < s.msgLen → ∃ w, bufferRead s.msg k = some w) →
        (∃ k w, k < s.msgLen ∧ bufferRead s.msg k = some w ∧ 255 < w.toNat) →
        exec i s = .next { s with treeValid := false, err := .format, done := true, pending := false })) ∧
    ∀ m : List Symbol, HoldsMessage s m →
      (s.params.bitMax < 8 * (m.length + 1) →
        ∀ i ∈ [Instr.encodeRaw, .encodeCaesar, .embedRaw, .embedCaesar],
          exec i s = .next { s with treeValid := false, err := .overflow, done := true, pending := false }) ∧
      ∀ tree bits, huffEncode s.params.leafOrder (m ++ [0x23#8]) = some (tree, bits) → s.params.bitMax < bits.length →
        ∀ i ∈ [Instr.encodeHuff, .embedHuff],
          exec i s = .next { s with treeValid := false, err := .overflow, done := true, pending := false }

/-- R111, R112, R108, R215: DECODE.RAW and DECODE.CAESAR, from the bits their raw stage consumes: they complete with the decoded
text, unless no delimiter was found and the policy is TRUNCATED, which changes nothing but the completion. -/
def Obligations.DecodeFixedWidthResult : Prop :=
  ∀ (s : State) (bits : List Bool), StreamStarts s bits →
    ((rawDecode bits).found = true ∨ s.bitLen / 8 ≤ bits.length / 8) →
    ∀ p ∈ [(Instr.decodeRaw, rawDecode bits), (Instr.decodeCaesar, caesarDecode bits s.shift)],
      (p.2.found = true ∨ s.params.rawPolicy = .returnText →
        ∃ t, exec p.1 s = .next t ∧ CompletedWith t .noError ∧ HoldsText t p.2.out ∧ t.decPos = p.2.pos ∧
          t.delim = p.2.found ∧ EntriesAboveKept s t ∧
          HostStateKept s t ∧ StreamKept s t ∧ TreeKept s t ∧ PixelsKept s t) ∧
      (p.2.found = false → s.params.rawPolicy = .raiseTruncated →
        exec p.1 s = .next { s with err := .truncated, done := true, pending := false })

/-- R147, R145, R214, R215: DECODE.HUFF: SESSION without a tree, before the stream is looked at; the decoded text where the walk
of the tree over the bits it may examine meets the delimiter; TRUNCATED where they run out. -/
def Obligations.DecodeHuffResult : Prop :=
  ∀ s : State,
    (s.treeValid = false → exec .decodeHuff s = .next { s with err := .session, done := true, pending := false }) ∧
    (s.treeValid = true → ∀ (bits : List Bool) (d : Decoded), StreamStarts s bits →
      bits.length ≤ decodeBound s.params.huffBound s.bitLen → huffWalk s.tree s.tree.root 0 bits = some d →
      (d.found = true →
        ∃ t, exec .decodeHuff s = .next t ∧ CompletedWith t .noError ∧ HoldsText t d.out ∧ t.decPos = d.pos ∧
          t.delim = true ∧ EntriesAboveKept s t ∧
          HostStateKept s t ∧ StreamKept s t ∧ TreeKept s t ∧ PixelsKept s t) ∧
      (d.found = false → bits.length = decodeBound s.params.huffBound s.bitLen →
        exec .decodeHuff s = .next { s with err := .truncated, done := true, pending := false }))

/-- R41, R48, R223: a decode that has not stopped before the first unwritten bit it must examine faults there; the final partial
chunk of a raw or Caesar decode is not examined. -/
def Obligations.DecodeFaultsOnConsumedUnwrittenBit : Prop :=
  ∀ (s : State) (bits : List Bool), StreamStarts s bits → bits.length < s.bitLen → s.streamBit bits.length = none →
    ((rawDecode bits).found = false → bits.length / 8 < s.bitLen / 8 →
      exec .decodeRaw s = .fault .unwrittenRead ∧ exec .decodeCaesar s = .fault .unwrittenRead) ∧
    ∀ d, s.treeValid = true → bits.length < decodeBound s.params.huffBound s.bitLen →
      huffWalk s.tree s.tree.root 0 bits = some d → d.found = false → exec .decodeHuff s = .fault .unwrittenRead

/-! ### WRITE and READALL (42_embedder.md R171 to R180) -/

/-- R176: WRITE puts the stream into the LSBs of bytes 0 .. BIT_LEN-1 and changes nothing else; GEOMETRY, then CAPACITY, then the
unwritten-bit fault stop it before any pixel is written. -/
def Obligations.WriteResult : Prop :=
  ∀ s : State,
    (s.params.gridBytesMax < s.capacity →
      exec .write s = .next { s with err := .geometry, done := true, pending := false }) ∧
    (GridInMemory s → fits s.params.capacityRule s.bitLen s.capacity = false →
      exec .write s = .next { s with err := .capacity, done := true, pending := false }) ∧
    (GridInMemory s → fits s.params.capacityRule s.bitLen s.capacity = true →
      ((∃ j, j < s.bitLen ∧ s.streamBit j = none) → exec .write s = .fault .unwrittenRead) ∧
      ∀ bits, HoldsStream s bits →
        ∃ t, exec .write s = .next t ∧ CompletedWith t .noError ∧ PixelsCarry s t bits ∧
          HostStateKept s t ∧ StreamKept s t ∧ TextKept s t ∧ TreeKept s t)

/-- R177: READALL reads the LSB of every byte of the grid into the stream and changes nothing else; GEOMETRY is its only
error. -/
def Obligations.ReadAllResult : Prop :=
  ∀ s : State,
    (GridInMemory s → ∃ t, exec .readall s = .next t ∧ CompletedWith t .noError ∧ t.bitLen = s.capacity ∧
      (∀ i, i < s.capacity → t.streamBit i = some ((memRead s.pix i).getLsbD 0)) ∧ LastWordZeroFilled t ∧
      WordsAboveKept s t s.capacity ∧ HostStateKept s t ∧ TextKept s t ∧ TreeKept s t ∧ PixelsKept s t) ∧
    (s.params.gridBytesMax < s.capacity →
      exec .readall s = .next { s with err := .geometry, done := true, pending := false })

/-- R172: slot `i` of a grid lies in row `i div (COLS·3)`, column `(i div 3) mod COLS`, channel `i mod 3`, and is pixel byte `i`. -/
def Obligations.SlotIsPixelByte : Prop :=
  ∀ rows cols i : Nat, i < rows * cols * 3 →
    slotRow cols i = i / (cols * 3) ∧ slotCol cols i = i / 3 % cols ∧ slotChannel i = i % 3 ∧
      slotRow cols i < rows ∧ slotCol cols i < cols ∧ slotChannel i < 3 ∧
      (slotRow cols i * cols + slotCol cols i) * 3 + slotChannel i = i ∧
      pixelByte cols (slotRow cols i) (slotCol cols i) (slotChannel i) = i

/-- R171, R178: the capacity check and the bound under MARGIN. -/
def Obligations.CapacityCheckBounds : Prop :=
  ∀ l c : Nat,
    (fits .exactRule l c = true ↔ l ≤ c) ∧
    (fits .marginRule l c = true ↔ 8 * ((l + 7) / 8 + 1) ≤ c) ∧
    (fits .marginRule l c = true ↔ ((l + 7) / 8 : Int) ≤ (c / 8 : Int) - 1) ∧
    (16 ≤ c → (fits .marginRule l c = true ↔ l ≤ 8 * (c / 8 - 1))) ∧
    (c < 16 → 1 ≤ l → fits .marginRule l c = false) ∧
    (fits .marginRule l c = true → l + 8 ≤ c)

/-- R179: a WRITE or EMBED.k that ends in an error leaves every pixel byte unchanged; one that succeeds changes at most the LSBs of
bytes 0 .. BIT_LEN-1. -/
def Obligations.PixelWritesAreAllOrNothing : Prop :=
  ∀ (s t : State), ∀ i ∈ [Instr.write, .embedRaw, .embedCaesar, .embedHuff], exec i s = .next t →
    (t.err ≠ .noError → PixelsKept s t) ∧
    (t.err = .noError →
      (∀ a, t.bitLen ≤ a → memRead t.pix a = memRead s.pix a) ∧
      ∀ a j, 1 ≤ j → (memRead t.pix a).getLsbD j = (memRead s.pix a).getLsbD j)

/-- R180: a READALL of the pixels a successful WRITE left gives the stream written, then the LSBs the other slots held. -/
def Obligations.PackUnpackRoundTrip : Prop :=
  ∀ s t u : State, exec .write s = .next t → t.err = .noError → PixelsKept t u →
    u.rows = s.rows → u.cols = s.cols → u.params = s.params →
    ∃ v, exec .readall u = .next v ∧ v.err = .noError ∧ v.bitLen = s.capacity ∧
      (∀ i, i < s.bitLen → v.streamBit i = s.streamBit i) ∧
      ∀ i, s.bitLen ≤ i → i < s.capacity → v.streamBit i = some ((memRead s.pix i).getLsbD 0)

/-! ### EMBED.k, EXTRACT.k, NEWSESSION (43_session.md R190 to R198) -/

/-- R190, R194: EMBED.k is ENCODE.k, then WRITE if it raised no error; EXTRACT.k is READALL, then DECODE.k if it raised no
error; the first stage's effects stay, and the code is that of the first error. -/
def Obligations.CompositesRunTheirStages : Prop :=
  ∀ (k : Kind) (s : State),
    (∀ t, exec (encodeOf k) s = .next t → exec (embedOf k) s = if t.err = .noError then exec .write t else .next t) ∧
    (∀ r, exec (encodeOf k) s = .fault r → exec (embedOf k) s = .fault r) ∧
    (∀ t, exec .readall s = .next t →
      exec (extractOf k) s = if t.err = .noError then exec (decodeOf k) t else .next t)

/-- R191, R192, R193: EMBED.k completes where the message is written, its stream fits the bit buffer, and the grid is in memory
and takes it; the stream is in BITS and in the LSBs, and for HUFF the tree is in the store. -/
def Obligations.EmbedResult : Prop :=
  ∀ (s : State) (m : List Symbol), HoldsMessage s m → GridInMemory s →
    (8 * (m.length + 1) ≤ s.params.bitMax →
      fits s.params.capacityRule (8 * (m.length + 1)) s.capacity = true →
      (∃ t, exec .embedRaw s = .next t ∧ CompletedWith t .noError ∧ HoldsStream t (rawEncode (m ++ [0x23#8])) ∧
        PixelsCarry s t (rawEncode (m ++ [0x23#8])) ∧ t.treeValid = false ∧ t.tree = s.tree ∧ LastWordZeroFilled t ∧
        HostStateKept s t ∧ WordsAboveKept s t t.bitLen ∧ TextKept s t) ∧
      ∃ t, exec .embedCaesar s = .next t ∧ CompletedWith t .noError ∧
        HoldsStream t (rawEncode ((m ++ [0x23#8]).map fun c => c + s.shift)) ∧
        PixelsCarry s t (rawEncode ((m ++ [0x23#8]).map fun c => c + s.shift)) ∧ t.treeValid = false ∧
        t.tree = s.tree ∧ LastWordZeroFilled t ∧ HostStateKept s t ∧ WordsAboveKept s t t.bitLen ∧ TextKept s t) ∧
    ∀ tree bits, huffEncode s.params.leafOrder (m ++ [0x23#8]) = some (tree, bits) → bits.length ≤ s.params.bitMax →
      fits s.params.capacityRule bits.length s.capacity = true →
      ∃ t, exec .embedHuff s = .next t ∧ CompletedWith t .noError ∧ HoldsStream t bits ∧ PixelsCarry s t bits ∧
        t.treeValid = true ∧ t.tree = tree ∧ LastWordZeroFilled t ∧
        HostStateKept s t ∧ WordsAboveKept s t t.bitLen ∧ TextKept s t

/-- R195, R196, R197: EXTRACT.k on a grid in memory: the grid's LSBs are in BITS whatever the decode stage ends in; the text is the
decoding of them. -/
def Obligations.ExtractResult : Prop :=
  ∀ s : State, GridInMemory s →
    (∀ p ∈ [(Instr.extractRaw, rawDecode (readLsbs s.pix s.capacity)),
        (Instr.extractCaesar, caesarDecode (readLsbs s.pix s.capacity) s.shift)],
      ∃ t, exec p.1 s = .next t ∧ HoldsStream t (readLsbs s.pix s.capacity) ∧ WordsAboveKept s t s.capacity ∧
        HostStateKept s t ∧ TreeKept s t ∧ PixelsKept s t ∧
        (p.2.found = true ∨ s.params.rawPolicy = .returnText →
          CompletedWith t .noError ∧ HoldsText t p.2.out ∧ t.decPos = p.2.pos ∧ t.delim = p.2.found ∧
            EntriesAboveKept s t) ∧
        (p.2.found = false → s.params.rawPolicy = .raiseTruncated → CompletedWith t .truncated ∧ TextKept s t)) ∧
    (s.treeValid = false →
      ∃ t, exec .extractHuff s = .next t ∧ CompletedWith t .session ∧ HoldsStream t (readLsbs s.pix s.capacity) ∧
        WordsAboveKept s t s.capacity ∧ HostStateKept s t ∧ TextKept s t ∧ TreeKept s t ∧ PixelsKept s t) ∧
    (s.treeValid = true → ∀ d, huffWalk s.tree s.tree.root 0
        ((readLsbs s.pix s.capacity).take (decodeBound s.params.huffBound s.capacity)) = some d →
      ∃ t, exec .extractHuff s = .next t ∧ HoldsStream t (readLsbs s.pix s.capacity) ∧ WordsAboveKept s t s.capacity ∧
        HostStateKept s t ∧ TreeKept s t ∧ PixelsKept s t ∧
        (d.found = true → CompletedWith t .noError ∧ HoldsText t d.out ∧ t.decPos = d.pos ∧ t.delim = true ∧
          EntriesAboveKept s t) ∧
        (d.found = false → CompletedWith t .truncated ∧ TextKept s t))

/-- Embed, then extract, gives the message back, for all three codecs, whatever the host did in between that left the pixels, the
geometry, the shift and the tree as they were (43_session.md R195 to R197, 70_reset_and_hazards.md R249). For HUFF under
ALL_BUT_LAST the capacity rule must be MARGIN (R197). -/
def Obligations.EmbedExtractRoundTrip : Prop :=
  ∀ (k : Kind) (s t u : State) (m : List Symbol), HoldsMessage s m → 0x23#8 ∉ m →
    (k = .caesar → (0x23#8 - s.shift) ∉ m) →
    (k = .huff → s.params.huffBound = .allBits ∨ s.params.capacityRule = .marginRule) →
    exec (embedOf k) s = .next t → t.err = .noError →
    PixelsKept t u → u.rows = t.rows → u.cols = t.cols → u.shift = t.shift → u.params = t.params → TreeKept t u →
    ∃ v, exec (extractOf k) u = .next v ∧ CompletedWith v .noError ∧ HoldsText v m ∧ v.delim = true ∧
      v.decPos = t.bitLen

/-- R198, R214: NEWSESSION clears TREE_VALID and nothing else; DECODE.HUFF then raises SESSION, and the RAW and CAESAR decodes never
do. -/
def Obligations.NewSessionEndsTheSession : Prop :=
  (∀ s : State, exec .newsession s =
    .next { s with treeValid := false, err := .noError, done := true, pending := false }) ∧
  (∀ s t : State, exec .newsession s = .next t →
    exec .decodeHuff t = .next { t with err := .session }) ∧
  ∀ s t : State, ∀ i ∈ [Instr.decodeRaw, .decodeCaesar, .extractRaw, .extractCaesar], exec i s = .next t →
    t.err ≠ .session

/-! ### Rules of the whole machine -/

/-- R89: what each command leaves unchanged, for every command at once. -/
def Obligations.CommandsWriteOnlyTheirColumn : Prop :=
  ∀ (i : Instr) (s t : State), exec i s = .next t →
    t.pending = false ∧ t.done = true ∧ HostStateKept s t ∧
    (i.op ∉ [Op.encode, .readall, .embed, .extract] → StreamKept s t) ∧
    (i.op ∉ [Op.decode, .extract] → TextKept s t) ∧
    (i.op ∉ [Op.write, .embed] → PixelsKept s t) ∧
    (i.op ∉ [Op.encode, .embed, .newsession] → TreeKept s t) ∧
    (i.op = .newsession ∨ i.kind = some .raw ∨ i.kind = some .caesar → t.tree = s.tree) ∧
    WordsAboveKept s t t.bitLen ∧ EntriesAboveKept s t

/-- R30: a step changes TREE_VALID only by reset or by an encode stage or NEWSESSION, and sets it only by a Huffman encode
stage. -/
def Obligations.TreeValidChangesOnlyByEncodeOrSession : Prop :=
  ∀ s t : State, step s = .next t → t.treeValid ≠ s.treeValid →
    ResetTurn s ∨
      EngineTurn s ∧ ∃ i, decode s.latched = .ok i ∧ i.op ∈ [Op.encode, .embed, .newsession] ∧
        (t.treeValid = true → i.kind = some .huff)

/-- R211, R223: the error codes each command can complete with. -/
def Obligations.ErrorCodesByCommand : Prop :=
  ∀ (i : Instr) (s t : State), exec i s = .next t →
    t.err ∈ match i with
      | .encodeRaw | .encodeCaesar | .encodeHuff => [ErrorCode.noError, .format, .overflow]
      | .decodeRaw | .decodeCaesar => [.noError, .truncated]
      | .decodeHuff => [.noError, .session, .truncated]
      | .write => [.noError, .geometry, .capacity]
      | .readall => [.noError, .geometry]
      | .embedRaw | .embedCaesar | .embedHuff => [.noError, .format, .overflow, .geometry, .capacity]
      | .extractRaw | .extractCaesar => [.noError, .geometry, .truncated]
      | .extractHuff => [.noError, .geometry, .session, .truncated]
      | .newsession => [.noError]

/-- R141, R216, R222: with a sound tree in the store where TREE_VALID says so, every command completes or meets an unwritten
entry: the internal consistency failure is unreachable. -/
def Obligations.CommandsCompleteOrMeetUnwritten : Prop :=
  ∀ (i : Instr) (s : State), TreeInv s → (∃ t, exec i s = .next t) ∨ exec i s = .fault .unwrittenRead

/-- Every step keeps the storage invariant: lengths within their buffers (R32 to R35), the buffers and the pixel memory in
canonical form and within their depths. -/
def Obligations.StepKeepsStorage : Prop :=
  ∀ s t : State, StorageInv s → step s = .next t → StorageInv t ∧ t.params = s.params

/-- Every step keeps the tree store sound (R30, R44). -/
def Obligations.StepKeepsTreeSound : Prop :=
  ∀ s t : State, TreeInv s → step s = .next t → TreeInv t

/-- Every step keeps the command lifecycle (R26, R27, R84, R86, R216) and TEXT readable below TEXT_LEN (R34, R42). -/
def Obligations.StepKeepsLifecycle : Prop :=
  ∀ s t : State, LifecycleSound s → TextReadable s → step s = .next t → LifecycleSound t ∧ TextReadable t

/-- R241: the values of the state after reset; and it meets the invariants every step keeps. -/
def Obligations.ResetStateMeetsInvariants : Prop :=
  State.reset.pending = false ∧ State.reset.done = false ∧ State.reset.delim = false ∧ State.reset.ovr = false ∧
    State.reset.err = .noError ∧ State.reset.treeValid = false ∧ State.reset.status = 0#32 ∧ State.reset.shift = 3#8 ∧
    State.reset.msgLen = 0 ∧ State.reset.bitLen = 0 ∧ State.reset.textLen = 0 ∧ State.reset.decPos = 0 ∧
    State.reset.rows = 0#16 ∧ State.reset.cols = 0#16 ∧ State.reset.treeInfo = 0#32 ∧ State.reset.faulted = none ∧
    (∀ k, bufferRead State.reset.msg k = none ∧ bufferRead State.reset.bitw k = none ∧
      bufferRead State.reset.text k = none) ∧
    StorageInv State.reset ∧ TreeInv State.reset ∧ LifecycleSound State.reset ∧ TextReadable State.reset
end

