-- ==== Sys2Proof/Laws/Bits.lean ====
section
/-! SUPPORT. The laws of bit strings, symbols, stream words and pixel LSBs (00_scope.md R10, 10_state.md R41,
42_embedder.md R173, R174). -/

namespace Sys2Proof.Machine

@[simp] theorem natOfBits_nil : natOfBits [] = 0 := rfl

theorem natOfBits_concat (bs : List Bool) (b : Bool) : natOfBits (bs ++ [b]) = 2 * natOfBits bs + b.toNat := by
  simp [natOfBits, List.foldl_append]

theorem natOfBits_lt (bs : List Bool) : natOfBits bs < 2 ^ bs.length := by
  induction bs using List.reverseRecOn with
  | nil => simp
  | append_singleton bs b ih =>
    rw [natOfBits_concat, List.length_append, List.length_singleton, Nat.pow_succ]
    have := Bool.toNat_lt b
    omega

/-- Bit `i` of the number a bit string spells is its bit `i` from the end. -/
theorem natOfBits_testBit (bs : List Bool) (i : Nat) (h : i < bs.length) :
    (natOfBits bs).testBit i = bs[bs.length - 1 - i] := by
  induction bs using List.reverseRecOn generalizing i with
  | nil => simp at h
  | append_singleton bs b ih =>
    rw [natOfBits_concat]
    cases i with
    | zero => cases b <;> simp [Nat.testBit_zero]
    | succ i =>
      have hi : i < bs.length := by simpa using h
      have hd : (2 * natOfBits bs + b.toNat) / 2 = natOfBits bs := by
        have := Bool.toNat_lt b
        omega
      rw [Nat.testBit_succ, hd, ih i hi]
      rw [List.getElem_append_left (by simp; omega)]
      congr 1
      simp
      omega

/-! ### Symbols -/

@[simp] theorem bin8_length (c : Symbol) : (bin8 c).length = 8 := by simp [bin8, symBits]

theorem bin8_getElem (c : Symbol) (k : Nat) (h : k < 8) : (bin8 c)[k]'(by simpa using h) = c.getLsbD (7 - k) := by
  simp [bin8]

/-- `val8` reads the first eight bits of what `bin8` wrote. -/
theorem val8_bin8 (c : Symbol) : val8 (bin8 c) = c := by
  apply BitVec.eq_of_getLsbD_eq
  intro i hi
  have hi' : i < (bin8 c).length := by simpa using hi
  rw [val8, BitVec.getLsbD_ofNat, natOfBits_testBit _ i hi']
  simp only [bin8_length, hi, decide_true, Bool.true_and]
  rw [bin8_getElem c (8 - 1 - i) (by omega)]
  congr 1
  omega

@[simp] theorem rawEncode_nil : rawEncode [] = [] := rfl

@[simp] theorem rawEncode_cons (c : Symbol) (t : List Symbol) : rawEncode (c :: t) = bin8 c ++ rawEncode t := rfl

@[simp] theorem rawEncode_length (t : List Symbol) : (rawEncode t).length = 8 * t.length := by
  induction t with
  | nil => rfl
  | cons c t ih => simp [ih]; omega

/-! ### Stream words -/

/-- Bit `31 - j` of a stream word is its `j`-th bit, 0 past the end (10_state.md R41). -/
theorem packWord_getLsbD (bs : List Bool) (j : Nat) (hb : bs.length ≤ 32) (hj : j < 32) :
    (packWord bs).getLsbD (31 - j) = bs.getD j false := by
  have hlen : (bs ++ List.replicate (32 - bs.length) false).length = 32 := by simp; omega
  rw [packWord, BitVec.getLsbD_ofNat, natOfBits_testBit _ (31 - j) (by omega)]
  have hd : decide (31 - j < 32) = true := by simp; omega
  simp only [hd, Bool.true_and, hlen]
  have e : 32 - 1 - (31 - j) = j := by omega
  simp only [e]
  by_cases h : j < bs.length
  · rw [List.getElem_append_left h]
    simp [h]
  · rw [List.getElem_append_right (by omega)]
    simp [h]

@[simp] theorem packStream_length (bs : List Bool) : (packStream bs).length = wordCount bs.length := by
  simp [packStream]

/-- The word and bit that stream position `j` is packed at hold bit `j`, 0 past the end (10_state.md R41). -/
theorem packStream_bit (bs : List Bool) (j : Nat) (hj : j < 32 * wordCount bs.length) :
    ((packStream bs)[j / 32]?).map (fun w => w.getLsbD (31 - j % 32)) = some (bs.getD j false) := by
  have hw : j / 32 < wordCount bs.length := by omega
  have hm : j % 32 < 32 := Nat.mod_lt _ (by omega)
  simp only [packStream, List.getElem?_map, List.getElem?_range hw, Option.map_some]
  rw [packWord_getLsbD _ _ (by simp) hm]
  congr 1
  simp only [List.getD_eq_getElem?_getD, List.getElem?_take_of_lt hm, List.getElem?_drop]
  congr 2
  omega

theorem wordCount_mono {a b : Nat} (h : a ≤ b) : wordCount a ≤ wordCount b := by
  unfold wordCount
  omega

/-! ### LSBs -/

@[simp] theorem setLsb_getLsbD_zero (v : Byte) (b : Bool) : (setLsb v b).getLsbD 0 = b := by
  cases b <;> simp [setLsb]

theorem setLsb_getLsbD_succ (v : Byte) (b : Bool) (i : Nat) (hi : 1 ≤ i) :
    (setLsb v b).getLsbD i = v.getLsbD i := by
  revert v b
  by_cases h : i < 8
  · interval_cases i <;> decide
  · intro v b
    rw [BitVec.getLsbD_of_ge _ _ (by omega), BitVec.getLsbD_of_ge _ _ (by omega)]

theorem lsbOf_eq (v : Byte) : lsbOf v = v.getLsbD 0 := by
  revert v
  decide

@[simp] theorem readLsbs_length (m : Memory) (n : Nat) : (readLsbs m n).length = n := by simp [readLsbs]

theorem readLsbs_getElem (m : Memory) (n i : Nat) (h : i < n) :
    (readLsbs m n)[i]'(by simpa using h) = (memRead m i).getLsbD 0 := by
  simp [readLsbs, lsbOf_eq]

end Sys2Proof.Machine
end

