-- ==== Sys2Proof/Laws/Cells.lean ====
section
/-! SUPPORT. The laws of sparse cells, of the pixel memory and of the buffers: read after write, and that every write keeps
the canonical form and the depth. -/

namespace Sys2Proof.Machine

section Cells
variable {α : Type}

@[simp] theorem cellsGet_nil (k : Nat) : cellsGet ([] : List (Nat × α)) k = none := rfl

theorem cellsGet_cellsSet (m : List (Nat × α)) (k j : Nat) (v : α) :
    cellsGet (cellsSet m k v) j = if j = k then some v else cellsGet m j := by
  induction m with
  | nil => by_cases h : k = j <;> simp [cellsSet, cellsGet, h, eq_comm]
  | cons c rest ih =>
    obtain ⟨a, w⟩ := c
    simp only [cellsSet]
    split
    · by_cases h : k = j <;> simp [cellsGet, h, eq_comm]
    · split
      · subst_vars
        by_cases h : a = j
        · simp [cellsGet, h]
        · simp [cellsGet, h, Ne.symm h]
      · by_cases h : a = j
        · subst h
          simp [cellsGet, Ne.symm ‹¬k = a›]
        · simp [cellsGet, h, ih]

theorem cellsGet_cellsErase (m : List (Nat × α)) (k j : Nat) :
    cellsGet (cellsErase m k) j = if j = k then none else cellsGet m j := by
  induction m with
  | nil => simp [cellsErase]
  | cons c rest ih =>
    obtain ⟨a, w⟩ := c
    by_cases hk : a = k
    · subst hk
      by_cases hj : a = j
      · subst hj; simp [cellsErase, ih]
      · simp [cellsErase, cellsGet, ih, hj, Ne.symm hj]
    · by_cases hj : a = j
      · subst hj; simp [cellsErase, cellsGet, hk]
      · simp [cellsErase, cellsGet, ih, hk, hj]

theorem cellsSortedFrom_mono {lo lo' : Nat} (h : lo' ≤ lo) (m : List (Nat × α)) (hm : cellsSortedFrom lo m = true) :
    cellsSortedFrom lo' m = true := by
  cases m with
  | nil => rfl
  | cons c rest =>
    simp only [cellsSortedFrom, Bool.and_eq_true, decide_eq_true_eq] at hm ⊢
    exact ⟨by omega, hm.2⟩

theorem cellsSortedFrom_cellsSet (m : List (Nat × α)) (lo k : Nat) (v : α) (hk : lo ≤ k)
    (hm : cellsSortedFrom lo m = true) : cellsSortedFrom lo (cellsSet m k v) = true := by
  induction m generalizing lo with
  | nil => simp [cellsSet, cellsSortedFrom, hk]
  | cons c rest ih =>
    obtain ⟨a, w⟩ := c
    simp only [cellsSortedFrom, Bool.and_eq_true, decide_eq_true_eq] at hm
    simp only [cellsSet]
    split
    · simp only [cellsSortedFrom, Bool.and_eq_true, decide_eq_true_eq]
      exact ⟨hk, by omega, hm.2⟩
    · split
      · subst_vars
        simp only [cellsSortedFrom, Bool.and_eq_true, decide_eq_true_eq]
        exact hm
      · simp only [cellsSortedFrom, Bool.and_eq_true, decide_eq_true_eq]
        exact ⟨hm.1, ih (a + 1) (by omega) hm.2⟩

theorem cellsSortedFrom_cellsErase (m : List (Nat × α)) (lo k : Nat) (hm : cellsSortedFrom lo m = true) :
    cellsSortedFrom lo (cellsErase m k) = true := by
  induction m generalizing lo with
  | nil => rfl
  | cons c rest ih =>
    obtain ⟨a, w⟩ := c
    simp only [cellsSortedFrom, Bool.and_eq_true, decide_eq_true_eq] at hm
    simp only [cellsErase]
    split
    · exact cellsSortedFrom_mono (by omega) _ (ih (a + 1) hm.2)
    · simp only [cellsSortedFrom, Bool.and_eq_true, decide_eq_true_eq]
      exact ⟨hm.1, ih (a + 1) hm.2⟩

/-- What `cellsSet` lists: the new cell and cells that were listed before. -/
theorem mem_cellsSet {m : List (Nat × α)} {k : Nat} {v : α} {c : Nat × α} (h : c ∈ cellsSet m k v) :
    c = (k, v) ∨ c ∈ m := by
  induction m with
  | nil => simpa [cellsSet] using h
  | cons d rest ih =>
    obtain ⟨a, w⟩ := d
    simp only [cellsSet] at h
    split at h
    · simpa using h
    · split at h
      · simp only [List.mem_cons] at h ⊢
        tauto
      · simp only [List.mem_cons] at h ⊢
        rcases h with h | h
        · exact .inr (.inl h)
        · rcases ih h with h | h
          · exact .inl h
          · exact .inr (.inr h)

/-- `cellsErase` lists only cells that were listed before. -/
theorem mem_cellsErase {m : List (Nat × α)} {k : Nat} {c : Nat × α} (h : c ∈ cellsErase m k) : c ∈ m := by
  induction m with
  | nil => simp [cellsErase] at h
  | cons d rest ih =>
    obtain ⟨a, w⟩ := d
    simp only [cellsErase] at h
    split at h
    · exact List.mem_cons_of_mem _ (ih h)
    · simp only [List.mem_cons] at h ⊢
      exact h.imp id ih

theorem cellsBelow_cellsSet {m : List (Nat × α)} {bound k : Nat} {v : α} (hk : k < bound)
    (hm : cellsBelow bound m = true) : cellsBelow bound (cellsSet m k v) = true := by
  simp only [cellsBelow, List.all_eq_true, decide_eq_true_eq] at hm ⊢
  intro c hc
  rcases mem_cellsSet hc with rfl | hc
  · exact hk
  · exact hm c hc

theorem cellsBelow_cellsErase {m : List (Nat × α)} {bound k : Nat} (hm : cellsBelow bound m = true) :
    cellsBelow bound (cellsErase m k) = true := by
  simp only [cellsBelow, List.all_eq_true, decide_eq_true_eq] at hm ⊢
  exact fun c hc => hm c (mem_cellsErase hc)

end Cells

/-! ### Pixel memory -/

@[simp] theorem memRead_memWrite (m : Memory) (a b : Nat) (v : Byte) :
    memRead (memWrite m a v) b = if b = a then v else memRead m b := by
  unfold memRead memWrite
  by_cases hv : v = unlistedByte
  · rw [if_pos hv, cellsGet_cellsErase]
    by_cases h : b = a <;> simp [h, hv]
  · rw [if_neg hv, cellsGet_cellsSet]
    by_cases h : b = a <;> simp [h]

theorem Memory.wf_memWrite {m : Memory} (hm : Memory.wf m = true) (a : Nat) (v : Byte) :
    Memory.wf (memWrite m a v) = true := by
  simp only [Memory.wf, Bool.and_eq_true, List.all_eq_true, bne_iff_ne] at hm ⊢
  unfold memWrite
  by_cases hv : v = unlistedByte
  · rw [if_pos hv]
    exact ⟨cellsSortedFrom_cellsErase m 0 a hm.1, fun c hc => hm.2 c (mem_cellsErase hc)⟩
  · rw [if_neg hv]
    refine ⟨cellsSortedFrom_cellsSet m 0 a v (Nat.zero_le _) hm.1, fun c hc => ?_⟩
    rcases mem_cellsSet hc with rfl | hc
    · exact hv
    · exact hm.2 c hc

theorem cellsBelow_memWrite {m : Memory} {bound a : Nat} (ha : a < bound) (v : Byte) (hm : cellsBelow bound m = true) :
    cellsBelow bound (memWrite m a v) = true := by
  unfold memWrite
  split
  · exact cellsBelow_cellsErase hm
  · exact cellsBelow_cellsSet ha hm

theorem Memory.wf_reset : Memory.wf State.reset.pix = true := rfl

/-! ### Buffers -/

@[simp] theorem bufferRead_nil (k : Nat) : bufferRead [] k = none := rfl

@[simp] theorem bufferRead_bufferWrite (b : Buffer) (k j : Nat) (v : Word) :
    bufferRead (bufferWrite b k v) j = if j = k then some v else bufferRead b j := cellsGet_cellsSet b k j v

theorem bufferWf_bufferWrite {depth k : Nat} {b : Buffer} (v : Word) (hk : k < depth) (hb : bufferWf depth b = true) :
    bufferWf depth (bufferWrite b k v) = true := by
  simp only [bufferWf, Bool.and_eq_true] at hb ⊢
  exact ⟨cellsSortedFrom_cellsSet b 0 k v (Nat.zero_le _) hb.1, cellsBelow_cellsSet hk hb.2⟩

/-- Consecutive writes: entry `k + i` holds the `i`-th word, every other entry is unchanged. -/
theorem bufferRead_bufferWriteAll (ws : List Word) (b : Buffer) (k j : Nat) :
    bufferRead (bufferWriteAll b k ws) j =
      if k ≤ j ∧ j < k + ws.length then ws[j - k]? else bufferRead b j := by
  induction ws generalizing b k with
  | nil =>
    simp only [bufferWriteAll, List.length_nil, Nat.add_zero]
    rw [if_neg (by omega)]
  | cons w ws ih =>
    simp only [bufferWriteAll, List.length_cons]
    rw [ih, bufferRead_bufferWrite]
    by_cases h1 : k + 1 ≤ j ∧ j < k + 1 + ws.length
    · rw [if_pos h1, if_pos (by omega)]
      obtain ⟨i, rfl⟩ : ∃ i, j = k + 1 + i := ⟨j - (k + 1), by omega⟩
      have e1 : k + 1 + i - (k + 1) = i := by omega
      have e2 : k + 1 + i - k = i + 1 := by omega
      rw [e1, e2, List.getElem?_cons_succ]
    · rw [if_neg h1]
      by_cases h2 : j = k
      · subst h2
        rw [if_pos rfl, if_pos (by omega)]
        simp
      · rw [if_neg h2, if_neg (by omega)]

theorem bufferWf_bufferWriteAll {depth : Nat} (ws : List Word) (b : Buffer) (k : Nat) (hk : k + ws.length ≤ depth)
    (hb : bufferWf depth b = true) : bufferWf depth (bufferWriteAll b k ws) = true := by
  induction ws generalizing b k with
  | nil => exact hb
  | cons w ws ih =>
    simp only [List.length_cons] at hk
    exact ih _ _ (by omega) (bufferWf_bufferWrite w (by omega) hb)

end Sys2Proof.Machine
end

