-- ==== Sys2Proof/Laws/State.lean ====
section
/-! SUPPORT. One lemma per field per named update of State, true by definition, so that no proof unfolds an update. -/

namespace Sys2Proof.Machine

variable (s : State)

/-! ### writeStream -/

@[simp] theorem State.writeStream_pending (bs : List Bool) : (s.writeStream bs).pending = s.pending := rfl
@[simp] theorem State.writeStream_latched (bs : List Bool) : (s.writeStream bs).latched = s.latched := rfl
@[simp] theorem State.writeStream_done (bs : List Bool) : (s.writeStream bs).done = s.done := rfl
@[simp] theorem State.writeStream_delim (bs : List Bool) : (s.writeStream bs).delim = s.delim := rfl
@[simp] theorem State.writeStream_ovr (bs : List Bool) : (s.writeStream bs).ovr = s.ovr := rfl
@[simp] theorem State.writeStream_err (bs : List Bool) : (s.writeStream bs).err = s.err := rfl
@[simp] theorem State.writeStream_treeValid (bs : List Bool) : (s.writeStream bs).treeValid = s.treeValid := rfl
@[simp] theorem State.writeStream_shift (bs : List Bool) : (s.writeStream bs).shift = s.shift := rfl
@[simp] theorem State.writeStream_msgLen (bs : List Bool) : (s.writeStream bs).msgLen = s.msgLen := rfl
@[simp] theorem State.writeStream_bitLen (bs : List Bool) : (s.writeStream bs).bitLen = bs.length := rfl
@[simp] theorem State.writeStream_textLen (bs : List Bool) : (s.writeStream bs).textLen = s.textLen := rfl
@[simp] theorem State.writeStream_decPos (bs : List Bool) : (s.writeStream bs).decPos = s.decPos := rfl
@[simp] theorem State.writeStream_rows (bs : List Bool) : (s.writeStream bs).rows = s.rows := rfl
@[simp] theorem State.writeStream_cols (bs : List Bool) : (s.writeStream bs).cols = s.cols := rfl
@[simp] theorem State.writeStream_msg (bs : List Bool) : (s.writeStream bs).msg = s.msg := rfl
@[simp] theorem State.writeStream_bitw (bs : List Bool) : (s.writeStream bs).bitw = bufferWriteAll s.bitw 0 (packStream bs) := rfl
@[simp] theorem State.writeStream_text (bs : List Bool) : (s.writeStream bs).text = s.text := rfl
@[simp] theorem State.writeStream_tree (bs : List Bool) : (s.writeStream bs).tree = s.tree := rfl
@[simp] theorem State.writeStream_pix (bs : List Bool) : (s.writeStream bs).pix = s.pix := rfl
@[simp] theorem State.writeStream_faulted (bs : List Bool) : (s.writeStream bs).faulted = s.faulted := rfl
@[simp] theorem State.writeStream_params (bs : List Bool) : (s.writeStream bs).params = s.params := rfl
@[simp] theorem State.writeStream_hostOps (bs : List Bool) : (s.writeStream bs).hostOps = s.hostOps := rfl
@[simp] theorem State.writeStream_turns (bs : List Bool) : (s.writeStream bs).turns = s.turns := rfl
@[simp] theorem State.writeStream_reads (bs : List Bool) : (s.writeStream bs).reads = s.reads := rfl

/-! ### writeText -/

@[simp] theorem State.writeText_pending (out : List Symbol) (found : Bool) (pos : Nat) : (s.writeText out found pos).pending = s.pending := rfl
@[simp] theorem State.writeText_latched (out : List Symbol) (found : Bool) (pos : Nat) : (s.writeText out found pos).latched = s.latched := rfl
@[simp] theorem State.writeText_done (out : List Symbol) (found : Bool) (pos : Nat) : (s.writeText out found pos).done = s.done := rfl
@[simp] theorem State.writeText_delim (out : List Symbol) (found : Bool) (pos : Nat) : (s.writeText out found pos).delim = found := rfl
@[simp] theorem State.writeText_ovr (out : List Symbol) (found : Bool) (pos : Nat) : (s.writeText out found pos).ovr = s.ovr := rfl
@[simp] theorem State.writeText_err (out : List Symbol) (found : Bool) (pos : Nat) : (s.writeText out found pos).err = s.err := rfl
@[simp] theorem State.writeText_treeValid (out : List Symbol) (found : Bool) (pos : Nat) : (s.writeText out found pos).treeValid = s.treeValid := rfl
@[simp] theorem State.writeText_shift (out : List Symbol) (found : Bool) (pos : Nat) : (s.writeText out found pos).shift = s.shift := rfl
@[simp] theorem State.writeText_msgLen (out : List Symbol) (found : Bool) (pos : Nat) : (s.writeText out found pos).msgLen = s.msgLen := rfl
@[simp] theorem State.writeText_bitLen (out : List Symbol) (found : Bool) (pos : Nat) : (s.writeText out found pos).bitLen = s.bitLen := rfl
@[simp] theorem State.writeText_textLen (out : List Symbol) (found : Bool) (pos : Nat) : (s.writeText out found pos).textLen = out.length := rfl
@[simp] theorem State.writeText_decPos (out : List Symbol) (found : Bool) (pos : Nat) : (s.writeText out found pos).decPos = pos := rfl
@[simp] theorem State.writeText_rows (out : List Symbol) (found : Bool) (pos : Nat) : (s.writeText out found pos).rows = s.rows := rfl
@[simp] theorem State.writeText_cols (out : List Symbol) (found : Bool) (pos : Nat) : (s.writeText out found pos).cols = s.cols := rfl
@[simp] theorem State.writeText_msg (out : List Symbol) (found : Bool) (pos : Nat) : (s.writeText out found pos).msg = s.msg := rfl
@[simp] theorem State.writeText_bitw (out : List Symbol) (found : Bool) (pos : Nat) : (s.writeText out found pos).bitw = s.bitw := rfl
@[simp] theorem State.writeText_text (out : List Symbol) (found : Bool) (pos : Nat) : (s.writeText out found pos).text = bufferWriteAll s.text 0 (out.map fun c => c.setWidth 32) := rfl
@[simp] theorem State.writeText_tree (out : List Symbol) (found : Bool) (pos : Nat) : (s.writeText out found pos).tree = s.tree := rfl
@[simp] theorem State.writeText_pix (out : List Symbol) (found : Bool) (pos : Nat) : (s.writeText out found pos).pix = s.pix := rfl
@[simp] theorem State.writeText_faulted (out : List Symbol) (found : Bool) (pos : Nat) : (s.writeText out found pos).faulted = s.faulted := rfl
@[simp] theorem State.writeText_params (out : List Symbol) (found : Bool) (pos : Nat) : (s.writeText out found pos).params = s.params := rfl
@[simp] theorem State.writeText_hostOps (out : List Symbol) (found : Bool) (pos : Nat) : (s.writeText out found pos).hostOps = s.hostOps := rfl
@[simp] theorem State.writeText_turns (out : List Symbol) (found : Bool) (pos : Nat) : (s.writeText out found pos).turns = s.turns := rfl
@[simp] theorem State.writeText_reads (out : List Symbol) (found : Bool) (pos : Nat) : (s.writeText out found pos).reads = s.reads := rfl

/-! ### dropTree -/

@[simp] theorem State.dropTree_pending : s.dropTree.pending = s.pending := rfl
@[simp] theorem State.dropTree_latched : s.dropTree.latched = s.latched := rfl
@[simp] theorem State.dropTree_done : s.dropTree.done = s.done := rfl
@[simp] theorem State.dropTree_delim : s.dropTree.delim = s.delim := rfl
@[simp] theorem State.dropTree_ovr : s.dropTree.ovr = s.ovr := rfl
@[simp] theorem State.dropTree_err : s.dropTree.err = s.err := rfl
@[simp] theorem State.dropTree_treeValid : s.dropTree.treeValid = false := rfl
@[simp] theorem State.dropTree_shift : s.dropTree.shift = s.shift := rfl
@[simp] theorem State.dropTree_msgLen : s.dropTree.msgLen = s.msgLen := rfl
@[simp] theorem State.dropTree_bitLen : s.dropTree.bitLen = s.bitLen := rfl
@[simp] theorem State.dropTree_textLen : s.dropTree.textLen = s.textLen := rfl
@[simp] theorem State.dropTree_decPos : s.dropTree.decPos = s.decPos := rfl
@[simp] theorem State.dropTree_rows : s.dropTree.rows = s.rows := rfl
@[simp] theorem State.dropTree_cols : s.dropTree.cols = s.cols := rfl
@[simp] theorem State.dropTree_msg : s.dropTree.msg = s.msg := rfl
@[simp] theorem State.dropTree_bitw : s.dropTree.bitw = s.bitw := rfl
@[simp] theorem State.dropTree_text : s.dropTree.text = s.text := rfl
@[simp] theorem State.dropTree_tree : s.dropTree.tree = s.tree := rfl
@[simp] theorem State.dropTree_pix : s.dropTree.pix = s.pix := rfl
@[simp] theorem State.dropTree_faulted : s.dropTree.faulted = s.faulted := rfl
@[simp] theorem State.dropTree_params : s.dropTree.params = s.params := rfl
@[simp] theorem State.dropTree_hostOps : s.dropTree.hostOps = s.hostOps := rfl
@[simp] theorem State.dropTree_turns : s.dropTree.turns = s.turns := rfl
@[simp] theorem State.dropTree_reads : s.dropTree.reads = s.reads := rfl

/-! ### storeTree -/

@[simp] theorem State.storeTree_pending (t : TreeStore) : (s.storeTree t).pending = s.pending := rfl
@[simp] theorem State.storeTree_latched (t : TreeStore) : (s.storeTree t).latched = s.latched := rfl
@[simp] theorem State.storeTree_done (t : TreeStore) : (s.storeTree t).done = s.done := rfl
@[simp] theorem State.storeTree_delim (t : TreeStore) : (s.storeTree t).delim = s.delim := rfl
@[simp] theorem State.storeTree_ovr (t : TreeStore) : (s.storeTree t).ovr = s.ovr := rfl
@[simp] theorem State.storeTree_err (t : TreeStore) : (s.storeTree t).err = s.err := rfl
@[simp] theorem State.storeTree_treeValid (t : TreeStore) : (s.storeTree t).treeValid = true := rfl
@[simp] theorem State.storeTree_shift (t : TreeStore) : (s.storeTree t).shift = s.shift := rfl
@[simp] theorem State.storeTree_msgLen (t : TreeStore) : (s.storeTree t).msgLen = s.msgLen := rfl
@[simp] theorem State.storeTree_bitLen (t : TreeStore) : (s.storeTree t).bitLen = s.bitLen := rfl
@[simp] theorem State.storeTree_textLen (t : TreeStore) : (s.storeTree t).textLen = s.textLen := rfl
@[simp] theorem State.storeTree_decPos (t : TreeStore) : (s.storeTree t).decPos = s.decPos := rfl
@[simp] theorem State.storeTree_rows (t : TreeStore) : (s.storeTree t).rows = s.rows := rfl
@[simp] theorem State.storeTree_cols (t : TreeStore) : (s.storeTree t).cols = s.cols := rfl
@[simp] theorem State.storeTree_msg (t : TreeStore) : (s.storeTree t).msg = s.msg := rfl
@[simp] theorem State.storeTree_bitw (t : TreeStore) : (s.storeTree t).bitw = s.bitw := rfl
@[simp] theorem State.storeTree_text (t : TreeStore) : (s.storeTree t).text = s.text := rfl
@[simp] theorem State.storeTree_tree (t : TreeStore) : (s.storeTree t).tree = t := rfl
@[simp] theorem State.storeTree_pix (t : TreeStore) : (s.storeTree t).pix = s.pix := rfl
@[simp] theorem State.storeTree_faulted (t : TreeStore) : (s.storeTree t).faulted = s.faulted := rfl
@[simp] theorem State.storeTree_params (t : TreeStore) : (s.storeTree t).params = s.params := rfl
@[simp] theorem State.storeTree_hostOps (t : TreeStore) : (s.storeTree t).hostOps = s.hostOps := rfl
@[simp] theorem State.storeTree_turns (t : TreeStore) : (s.storeTree t).turns = s.turns := rfl
@[simp] theorem State.storeTree_reads (t : TreeStore) : (s.storeTree t).reads = s.reads := rfl

/-! ### accept -/

@[simp] theorem State.accept_pending (w : Word) : (s.accept w).pending = true := rfl
@[simp] theorem State.accept_latched (w : Word) : (s.accept w).latched = w := rfl
@[simp] theorem State.accept_done (w : Word) : (s.accept w).done = false := rfl
@[simp] theorem State.accept_delim (w : Word) : (s.accept w).delim = false := rfl
@[simp] theorem State.accept_ovr (w : Word) : (s.accept w).ovr = s.ovr := rfl
@[simp] theorem State.accept_err (w : Word) : (s.accept w).err = .noError := rfl
@[simp] theorem State.accept_treeValid (w : Word) : (s.accept w).treeValid = s.treeValid := rfl
@[simp] theorem State.accept_shift (w : Word) : (s.accept w).shift = s.shift := rfl
@[simp] theorem State.accept_msgLen (w : Word) : (s.accept w).msgLen = s.msgLen := rfl
@[simp] theorem State.accept_bitLen (w : Word) : (s.accept w).bitLen = s.bitLen := rfl
@[simp] theorem State.accept_textLen (w : Word) : (s.accept w).textLen = s.textLen := rfl
@[simp] theorem State.accept_decPos (w : Word) : (s.accept w).decPos = s.decPos := rfl
@[simp] theorem State.accept_rows (w : Word) : (s.accept w).rows = s.rows := rfl
@[simp] theorem State.accept_cols (w : Word) : (s.accept w).cols = s.cols := rfl
@[simp] theorem State.accept_msg (w : Word) : (s.accept w).msg = s.msg := rfl
@[simp] theorem State.accept_bitw (w : Word) : (s.accept w).bitw = s.bitw := rfl
@[simp] theorem State.accept_text (w : Word) : (s.accept w).text = s.text := rfl
@[simp] theorem State.accept_tree (w : Word) : (s.accept w).tree = s.tree := rfl
@[simp] theorem State.accept_pix (w : Word) : (s.accept w).pix = s.pix := rfl
@[simp] theorem State.accept_faulted (w : Word) : (s.accept w).faulted = s.faulted := rfl
@[simp] theorem State.accept_params (w : Word) : (s.accept w).params = s.params := rfl
@[simp] theorem State.accept_hostOps (w : Word) : (s.accept w).hostOps = s.hostOps := rfl
@[simp] theorem State.accept_turns (w : Word) : (s.accept w).turns = s.turns := rfl
@[simp] theorem State.accept_reads (w : Word) : (s.accept w).reads = s.reads := rfl

/-! ### complete -/

@[simp] theorem State.complete_pending (e : ErrorCode) : (s.complete e).pending = false := rfl
@[simp] theorem State.complete_latched (e : ErrorCode) : (s.complete e).latched = s.latched := rfl
@[simp] theorem State.complete_done (e : ErrorCode) : (s.complete e).done = true := rfl
@[simp] theorem State.complete_delim (e : ErrorCode) : (s.complete e).delim = s.delim := rfl
@[simp] theorem State.complete_ovr (e : ErrorCode) : (s.complete e).ovr = s.ovr := rfl
@[simp] theorem State.complete_err (e : ErrorCode) : (s.complete e).err = e := rfl
@[simp] theorem State.complete_treeValid (e : ErrorCode) : (s.complete e).treeValid = s.treeValid := rfl
@[simp] theorem State.complete_shift (e : ErrorCode) : (s.complete e).shift = s.shift := rfl
@[simp] theorem State.complete_msgLen (e : ErrorCode) : (s.complete e).msgLen = s.msgLen := rfl
@[simp] theorem State.complete_bitLen (e : ErrorCode) : (s.complete e).bitLen = s.bitLen := rfl
@[simp] theorem State.complete_textLen (e : ErrorCode) : (s.complete e).textLen = s.textLen := rfl
@[simp] theorem State.complete_decPos (e : ErrorCode) : (s.complete e).decPos = s.decPos := rfl
@[simp] theorem State.complete_rows (e : ErrorCode) : (s.complete e).rows = s.rows := rfl
@[simp] theorem State.complete_cols (e : ErrorCode) : (s.complete e).cols = s.cols := rfl
@[simp] theorem State.complete_msg (e : ErrorCode) : (s.complete e).msg = s.msg := rfl
@[simp] theorem State.complete_bitw (e : ErrorCode) : (s.complete e).bitw = s.bitw := rfl
@[simp] theorem State.complete_text (e : ErrorCode) : (s.complete e).text = s.text := rfl
@[simp] theorem State.complete_tree (e : ErrorCode) : (s.complete e).tree = s.tree := rfl
@[simp] theorem State.complete_pix (e : ErrorCode) : (s.complete e).pix = s.pix := rfl
@[simp] theorem State.complete_faulted (e : ErrorCode) : (s.complete e).faulted = s.faulted := rfl
@[simp] theorem State.complete_params (e : ErrorCode) : (s.complete e).params = s.params := rfl
@[simp] theorem State.complete_hostOps (e : ErrorCode) : (s.complete e).hostOps = s.hostOps := rfl
@[simp] theorem State.complete_turns (e : ErrorCode) : (s.complete e).turns = s.turns := rfl
@[simp] theorem State.complete_reads (e : ErrorCode) : (s.complete e).reads = s.reads := rfl

/-! ### enterFault -/

@[simp] theorem State.enterFault_pending (r : Fault) : (s.enterFault r).pending = s.pending := rfl
@[simp] theorem State.enterFault_latched (r : Fault) : (s.enterFault r).latched = s.latched := rfl
@[simp] theorem State.enterFault_done (r : Fault) : (s.enterFault r).done = s.done := rfl
@[simp] theorem State.enterFault_delim (r : Fault) : (s.enterFault r).delim = s.delim := rfl
@[simp] theorem State.enterFault_ovr (r : Fault) : (s.enterFault r).ovr = s.ovr := rfl
@[simp] theorem State.enterFault_err (r : Fault) : (s.enterFault r).err = s.err := rfl
@[simp] theorem State.enterFault_treeValid (r : Fault) : (s.enterFault r).treeValid = s.treeValid := rfl
@[simp] theorem State.enterFault_shift (r : Fault) : (s.enterFault r).shift = s.shift := rfl
@[simp] theorem State.enterFault_msgLen (r : Fault) : (s.enterFault r).msgLen = s.msgLen := rfl
@[simp] theorem State.enterFault_bitLen (r : Fault) : (s.enterFault r).bitLen = s.bitLen := rfl
@[simp] theorem State.enterFault_textLen (r : Fault) : (s.enterFault r).textLen = s.textLen := rfl
@[simp] theorem State.enterFault_decPos (r : Fault) : (s.enterFault r).decPos = s.decPos := rfl
@[simp] theorem State.enterFault_rows (r : Fault) : (s.enterFault r).rows = s.rows := rfl
@[simp] theorem State.enterFault_cols (r : Fault) : (s.enterFault r).cols = s.cols := rfl
@[simp] theorem State.enterFault_msg (r : Fault) : (s.enterFault r).msg = s.msg := rfl
@[simp] theorem State.enterFault_bitw (r : Fault) : (s.enterFault r).bitw = s.bitw := rfl
@[simp] theorem State.enterFault_text (r : Fault) : (s.enterFault r).text = s.text := rfl
@[simp] theorem State.enterFault_tree (r : Fault) : (s.enterFault r).tree = s.tree := rfl
@[simp] theorem State.enterFault_pix (r : Fault) : (s.enterFault r).pix = s.pix := rfl
@[simp] theorem State.enterFault_faulted (r : Fault) : (s.enterFault r).faulted = some r := rfl
@[simp] theorem State.enterFault_params (r : Fault) : (s.enterFault r).params = s.params := rfl
@[simp] theorem State.enterFault_hostOps (r : Fault) : (s.enterFault r).hostOps = s.hostOps := rfl
@[simp] theorem State.enterFault_turns (r : Fault) : (s.enterFault r).turns = s.turns := rfl
@[simp] theorem State.enterFault_reads (r : Fault) : (s.enterFault r).reads = s.reads := rfl

/-! ### dropCommand -/

@[simp] theorem State.dropCommand_pending : s.dropCommand.pending = s.pending := rfl
@[simp] theorem State.dropCommand_latched : s.dropCommand.latched = s.latched := rfl
@[simp] theorem State.dropCommand_done : s.dropCommand.done = s.done := rfl
@[simp] theorem State.dropCommand_delim : s.dropCommand.delim = s.delim := rfl
@[simp] theorem State.dropCommand_ovr : s.dropCommand.ovr = true := rfl
@[simp] theorem State.dropCommand_err : s.dropCommand.err = s.err := rfl
@[simp] theorem State.dropCommand_treeValid : s.dropCommand.treeValid = s.treeValid := rfl
@[simp] theorem State.dropCommand_shift : s.dropCommand.shift = s.shift := rfl
@[simp] theorem State.dropCommand_msgLen : s.dropCommand.msgLen = s.msgLen := rfl
@[simp] theorem State.dropCommand_bitLen : s.dropCommand.bitLen = s.bitLen := rfl
@[simp] theorem State.dropCommand_textLen : s.dropCommand.textLen = s.textLen := rfl
@[simp] theorem State.dropCommand_decPos : s.dropCommand.decPos = s.decPos := rfl
@[simp] theorem State.dropCommand_rows : s.dropCommand.rows = s.rows := rfl
@[simp] theorem State.dropCommand_cols : s.dropCommand.cols = s.cols := rfl
@[simp] theorem State.dropCommand_msg : s.dropCommand.msg = s.msg := rfl
@[simp] theorem State.dropCommand_bitw : s.dropCommand.bitw = s.bitw := rfl
@[simp] theorem State.dropCommand_text : s.dropCommand.text = s.text := rfl
@[simp] theorem State.dropCommand_tree : s.dropCommand.tree = s.tree := rfl
@[simp] theorem State.dropCommand_pix : s.dropCommand.pix = s.pix := rfl
@[simp] theorem State.dropCommand_faulted : s.dropCommand.faulted = s.faulted := rfl
@[simp] theorem State.dropCommand_params : s.dropCommand.params = s.params := rfl
@[simp] theorem State.dropCommand_hostOps : s.dropCommand.hostOps = s.hostOps := rfl
@[simp] theorem State.dropCommand_turns : s.dropCommand.turns = s.turns := rfl
@[simp] theorem State.dropCommand_reads : s.dropCommand.reads = s.reads := rfl

/-! ### writeStatus -/

@[simp] theorem State.writeStatus_pending (v : Word) : (s.writeStatus v).pending = s.pending := rfl
@[simp] theorem State.writeStatus_latched (v : Word) : (s.writeStatus v).latched = s.latched := rfl
@[simp] theorem State.writeStatus_done (v : Word) : (s.writeStatus v).done = s.done := rfl
@[simp] theorem State.writeStatus_delim (v : Word) : (s.writeStatus v).delim = s.delim := rfl
@[simp] theorem State.writeStatus_ovr (v : Word) : (s.writeStatus v).ovr = (s.ovr && !v.getLsbD 3) := rfl
@[simp] theorem State.writeStatus_err (v : Word) : (s.writeStatus v).err = s.err := rfl
@[simp] theorem State.writeStatus_treeValid (v : Word) : (s.writeStatus v).treeValid = s.treeValid := rfl
@[simp] theorem State.writeStatus_shift (v : Word) : (s.writeStatus v).shift = s.shift := rfl
@[simp] theorem State.writeStatus_msgLen (v : Word) : (s.writeStatus v).msgLen = s.msgLen := rfl
@[simp] theorem State.writeStatus_bitLen (v : Word) : (s.writeStatus v).bitLen = s.bitLen := rfl
@[simp] theorem State.writeStatus_textLen (v : Word) : (s.writeStatus v).textLen = s.textLen := rfl
@[simp] theorem State.writeStatus_decPos (v : Word) : (s.writeStatus v).decPos = s.decPos := rfl
@[simp] theorem State.writeStatus_rows (v : Word) : (s.writeStatus v).rows = s.rows := rfl
@[simp] theorem State.writeStatus_cols (v : Word) : (s.writeStatus v).cols = s.cols := rfl
@[simp] theorem State.writeStatus_msg (v : Word) : (s.writeStatus v).msg = s.msg := rfl
@[simp] theorem State.writeStatus_bitw (v : Word) : (s.writeStatus v).bitw = s.bitw := rfl
@[simp] theorem State.writeStatus_text (v : Word) : (s.writeStatus v).text = s.text := rfl
@[simp] theorem State.writeStatus_tree (v : Word) : (s.writeStatus v).tree = s.tree := rfl
@[simp] theorem State.writeStatus_pix (v : Word) : (s.writeStatus v).pix = s.pix := rfl
@[simp] theorem State.writeStatus_faulted (v : Word) : (s.writeStatus v).faulted = s.faulted := rfl
@[simp] theorem State.writeStatus_params (v : Word) : (s.writeStatus v).params = s.params := rfl
@[simp] theorem State.writeStatus_hostOps (v : Word) : (s.writeStatus v).hostOps = s.hostOps := rfl
@[simp] theorem State.writeStatus_turns (v : Word) : (s.writeStatus v).turns = s.turns := rfl
@[simp] theorem State.writeStatus_reads (v : Word) : (s.writeStatus v).reads = s.reads := rfl

/-! ### deliver -/

@[simp] theorem State.deliver_pending (v : Word) : (s.deliver v).pending = s.pending := rfl
@[simp] theorem State.deliver_latched (v : Word) : (s.deliver v).latched = s.latched := rfl
@[simp] theorem State.deliver_done (v : Word) : (s.deliver v).done = s.done := rfl
@[simp] theorem State.deliver_delim (v : Word) : (s.deliver v).delim = s.delim := rfl
@[simp] theorem State.deliver_ovr (v : Word) : (s.deliver v).ovr = s.ovr := rfl
@[simp] theorem State.deliver_err (v : Word) : (s.deliver v).err = s.err := rfl
@[simp] theorem State.deliver_treeValid (v : Word) : (s.deliver v).treeValid = s.treeValid := rfl
@[simp] theorem State.deliver_shift (v : Word) : (s.deliver v).shift = s.shift := rfl
@[simp] theorem State.deliver_msgLen (v : Word) : (s.deliver v).msgLen = s.msgLen := rfl
@[simp] theorem State.deliver_bitLen (v : Word) : (s.deliver v).bitLen = s.bitLen := rfl
@[simp] theorem State.deliver_textLen (v : Word) : (s.deliver v).textLen = s.textLen := rfl
@[simp] theorem State.deliver_decPos (v : Word) : (s.deliver v).decPos = s.decPos := rfl
@[simp] theorem State.deliver_rows (v : Word) : (s.deliver v).rows = s.rows := rfl
@[simp] theorem State.deliver_cols (v : Word) : (s.deliver v).cols = s.cols := rfl
@[simp] theorem State.deliver_msg (v : Word) : (s.deliver v).msg = s.msg := rfl
@[simp] theorem State.deliver_bitw (v : Word) : (s.deliver v).bitw = s.bitw := rfl
@[simp] theorem State.deliver_text (v : Word) : (s.deliver v).text = s.text := rfl
@[simp] theorem State.deliver_tree (v : Word) : (s.deliver v).tree = s.tree := rfl
@[simp] theorem State.deliver_pix (v : Word) : (s.deliver v).pix = s.pix := rfl
@[simp] theorem State.deliver_faulted (v : Word) : (s.deliver v).faulted = s.faulted := rfl
@[simp] theorem State.deliver_params (v : Word) : (s.deliver v).params = s.params := rfl
@[simp] theorem State.deliver_hostOps (v : Word) : (s.deliver v).hostOps = s.hostOps := rfl
@[simp] theorem State.deliver_turns (v : Word) : (s.deliver v).turns = s.turns := rfl
@[simp] theorem State.deliver_reads (v : Word) : (s.deliver v).reads = v :: s.reads := rfl

/-! ### hardReset -/

@[simp] theorem State.hardReset_pending : s.hardReset.pending = State.reset.pending := rfl
@[simp] theorem State.hardReset_latched : s.hardReset.latched = State.reset.latched := rfl
@[simp] theorem State.hardReset_done : s.hardReset.done = State.reset.done := rfl
@[simp] theorem State.hardReset_delim : s.hardReset.delim = State.reset.delim := rfl
@[simp] theorem State.hardReset_ovr : s.hardReset.ovr = State.reset.ovr := rfl
@[simp] theorem State.hardReset_err : s.hardReset.err = State.reset.err := rfl
@[simp] theorem State.hardReset_treeValid : s.hardReset.treeValid = State.reset.treeValid := rfl
@[simp] theorem State.hardReset_shift : s.hardReset.shift = State.reset.shift := rfl
@[simp] theorem State.hardReset_msgLen : s.hardReset.msgLen = State.reset.msgLen := rfl
@[simp] theorem State.hardReset_bitLen : s.hardReset.bitLen = State.reset.bitLen := rfl
@[simp] theorem State.hardReset_textLen : s.hardReset.textLen = State.reset.textLen := rfl
@[simp] theorem State.hardReset_decPos : s.hardReset.decPos = State.reset.decPos := rfl
@[simp] theorem State.hardReset_rows : s.hardReset.rows = State.reset.rows := rfl
@[simp] theorem State.hardReset_cols : s.hardReset.cols = State.reset.cols := rfl
@[simp] theorem State.hardReset_msg : s.hardReset.msg = State.reset.msg := rfl
@[simp] theorem State.hardReset_bitw : s.hardReset.bitw = State.reset.bitw := rfl
@[simp] theorem State.hardReset_text : s.hardReset.text = State.reset.text := rfl
@[simp] theorem State.hardReset_tree : s.hardReset.tree = State.reset.tree := rfl
@[simp] theorem State.hardReset_pix : s.hardReset.pix = s.pix := rfl
@[simp] theorem State.hardReset_faulted : s.hardReset.faulted = State.reset.faulted := rfl
@[simp] theorem State.hardReset_params : s.hardReset.params = s.params := rfl
@[simp] theorem State.hardReset_hostOps : s.hardReset.hostOps = s.hostOps := rfl
@[simp] theorem State.hardReset_turns : s.hardReset.turns = s.turns := rfl
@[simp] theorem State.hardReset_reads : s.hardReset.reads = s.reads := rfl

end Sys2Proof.Machine
end

