-- ==== Sys2Proof/Laws/Stream.lean ====
section
/-! SUPPORT. The laws of the shared operations on streams, texts, messages and pixels: what a stream write leaves, what the
written prefix is, what the per-slot read-modify-write does. -/

namespace Sys2Proof.Machine

/-! ### BITS <- s (10_state.md R41) -/

theorem State.streamBit_writeStream (s : State) (bs : List Bool) (j : Nat) :
    (s.writeStream bs).streamBit j =
      if j < 32 * wordCount bs.length then some (bs.getD j false) else s.streamBit j := by
  unfold State.streamBit
  rw [State.writeStream_bitw, bufferRead_bufferWriteAll, packStream_length]
  by_cases h : j < 32 * wordCount bs.length
  · rw [if_pos h, if_pos ⟨Nat.zero_le _, by omega⟩, Nat.sub_zero, packStream_bit bs j h]
  · rw [if_neg h, if_neg (by omega)]

theorem holdsStream_writeStream (s : State) (bs : List Bool) : HoldsStream (s.writeStream bs) bs := by
  refine ⟨rfl, fun j hj => ?_⟩
  rw [State.streamBit_writeStream, if_pos (by unfold wordCount; omega)]
  simp [hj]

theorem lastWordZeroFilled_writeStream (s : State) (bs : List Bool) : LastWordZeroFilled (s.writeStream bs) := by
  intro j hj hw
  rw [State.writeStream_bitLen] at hj hw
  rw [State.streamBit_writeStream, if_pos hw]
  simp [hj]

theorem wordsAboveKept_writeStream (s : State) (bs : List Bool) : WordsAboveKept s (s.writeStream bs) bs.length := by
  intro w hw
  rw [State.writeStream_bitw, bufferRead_bufferWriteAll, packStream_length, if_neg (by omega)]

/-! ### The written prefix (10_state.md R41) -/

/-- What `writtenFrom` returns: written bits in order, and it only stops short at an unwritten one. -/
theorem State.writtenFrom_spec (s : State) (j n : Nat) :
    (s.writtenFrom j n).length ≤ n ∧
      (∀ i, (h : i < (s.writtenFrom j n).length) → s.streamBit (j + i) = some (s.writtenFrom j n)[i]) ∧
      ((s.writtenFrom j n).length < n → s.streamBit (j + (s.writtenFrom j n).length) = none) := by
  induction n generalizing j with
  | zero => simp [State.writtenFrom]
  | succ n ih =>
    cases h : s.streamBit j with
    | none =>
      have e : s.writtenFrom j (n + 1) = [] := by simp [State.writtenFrom, h]
      rw [e]
      exact ⟨by simp, by simp, by simp [h]⟩
    | some b =>
      have e : s.writtenFrom j (n + 1) = b :: s.writtenFrom (j + 1) n := by simp [State.writtenFrom, h]
      rw [e]
      obtain ⟨h1, h2, h3⟩ := ih (j + 1)
      refine ⟨by simpa using h1, fun i hi => ?_, fun hlt => ?_⟩
      · cases i with
        | zero => simpa using h
        | succ i =>
          have := h2 i (by simpa using hi)
          rw [show j + (i + 1) = j + 1 + i by omega, this]
          simp
      · have := h3 (by simpa using hlt)
        rw [List.length_cons, show j + ((s.writtenFrom (j + 1) n).length + 1) =
          j + 1 + (s.writtenFrom (j + 1) n).length by omega]
        exact this

theorem State.writtenPrefix_spec (s : State) :
    s.writtenPrefix.length ≤ s.bitLen ∧
      (∀ i, (h : i < s.writtenPrefix.length) → s.streamBit i = some s.writtenPrefix[i]) ∧
      (s.writtenPrefix.length < s.bitLen → s.streamBit s.writtenPrefix.length = none) := by
  simpa [State.writtenPrefix] using s.writtenFrom_spec 0 s.bitLen

/-- Bits known to be written are a prefix of the written prefix. -/
theorem prefix_writtenPrefix {s : State} {bits : List Bool} (h : StreamStarts s bits) : bits <+: s.writtenPrefix := by
  obtain ⟨hlen, hbits⟩ := h
  obtain ⟨_, h2, h3⟩ := s.writtenPrefix_spec
  have hle : bits.length ≤ s.writtenPrefix.length := by
    by_contra hlt
    have := h3 (by omega)
    rw [hbits _ (by omega)] at this
    cases this
  rw [List.prefix_iff_eq_take]
  apply List.ext_getElem
  · simp [hle]
  · intro i hi _
    have := h2 i (by omega)
    rw [hbits i hi] at this
    simpa using this

/-- Where all of the stream is written, the written prefix is the stream. -/
theorem writtenPrefix_of_holdsStream {s : State} {bits : List Bool} (h : HoldsStream s bits) : s.writtenPrefix = bits := by
  have hp := prefix_writtenPrefix (s := s) (bits := bits) ⟨h.1.ge, h.2⟩
  exact (hp.eq_of_length_le (by rw [← h.1]; exact s.writtenPrefix_spec.1)).symm

/-- Where the first unwritten bit below BIT_LEN is known, so is the written prefix. -/
theorem writtenPrefix_of_unwritten {s : State} {bits : List Bool} (h : StreamStarts s bits)
    (hn : s.streamBit bits.length = none) : s.writtenPrefix = bits := by
  refine ((prefix_writtenPrefix h).eq_of_length_le ?_).symm
  by_contra hlt
  have := s.writtenPrefix_spec.2.1 bits.length (by omega)
  rw [hn] at this
  cases this

/-! ### Messages and texts -/

theorem readEntries_some {b : Buffer} {ws : List Word} {k n : Nat} (h : readEntries b k n = some ws) :
    ws.length = n ∧ ∀ i, (hi : i < ws.length) → bufferRead b (k + i) = some ws[i] := by
  induction n generalizing k ws with
  | zero => simp [readEntries] at h; subst h; simp
  | succ n ih =>
    unfold readEntries at h
    split at h
    · cases h
    · rename_i w hw
      simp only [Option.map_eq_some_iff] at h
      obtain ⟨rest, hr, rfl⟩ := h
      obtain ⟨h1, h2⟩ := ih hr
      refine ⟨by simp [h1], fun i hi => ?_⟩
      cases i with
      | zero => simpa using hw
      | succ i =>
        rw [show k + (i + 1) = k + 1 + i by omega, h2 i (by simpa using hi)]
        simp

theorem readEntries_none_iff {b : Buffer} {k n : Nat} :
    readEntries b k n = none ↔ ∃ i, i < n ∧ bufferRead b (k + i) = none := by
  induction n generalizing k with
  | zero => simp [readEntries]
  | succ n ih =>
    unfold readEntries
    split
    · rename_i hw
      exact ⟨fun _ => ⟨0, by omega, by simpa using hw⟩, fun _ => rfl⟩
    · rename_i w hw
      rw [Option.map_eq_none_iff, ih]
      constructor
      · rintro ⟨i, hi, h⟩
        exact ⟨i + 1, by omega, by rwa [show k + (i + 1) = k + 1 + i by omega]⟩
      · rintro ⟨i, hi, h⟩
        cases i with
        | zero => rw [Nat.add_zero, hw] at h; cases h
        | succ i => exact ⟨i, by omega, by rwa [show k + 1 + i = k + (i + 1) by omega]⟩

/-- A written message of symbols is what the encode stage reads. -/
theorem message_of_holdsMessage {s : State} {m : List Symbol} (h : HoldsMessage s m) :
    s.message = some (m.map fun c => c.setWidth 32) := by
  obtain ⟨hlen, hm⟩ := h
  cases hr : s.message with
  | none =>
    rw [State.message, readEntries_none_iff] at hr
    obtain ⟨i, hi, hn⟩ := hr
    rw [Nat.zero_add, hm i (by omega)] at hn
    cases hn
  | some ws =>
    obtain ⟨h1, h2⟩ := readEntries_some hr
    congr 1
    apply List.ext_getElem
    · simp [h1, hlen]
    · intro i hi hi'
      have := h2 i hi
      rw [Nat.zero_add, hm i (by simpa using hi')] at this
      simpa using this.symm

theorem holdsText_writeText (s : State) (out : List Symbol) (found : Bool) (pos : Nat) :
    HoldsText (s.writeText out found pos) out := by
  refine ⟨rfl, fun k hk => ?_⟩
  rw [State.writeText_text, bufferRead_bufferWriteAll, if_pos ⟨Nat.zero_le _, by simpa using hk⟩]
  simp [hk]

theorem entriesAboveKept_writeText (s : State) (out : List Symbol) (found : Bool) (pos : Nat) :
    EntriesAboveKept s (s.writeText out found pos) := by
  intro k hk
  rw [State.writeText_textLen] at hk
  rw [State.writeText_text, bufferRead_bufferWriteAll, if_neg (by simp; omega)]

/-! ### The per-slot read-modify-write (20_memory.md R65) -/

/-- Slot `i + k` takes bit `k`; every other byte is unchanged. -/
theorem memRead_embedFrom (m : Memory) (i : Nat) (bits : List Bool) (a : Nat) :
    memRead (embedFrom m i bits) a =
      if i ≤ a ∧ a < i + bits.length then setLsb (memRead m a) (bits.getD (a - i) false) else memRead m a := by
  induction bits generalizing m i with
  | nil =>
    simp only [embedFrom, List.length_nil, Nat.add_zero]
    rw [if_neg (by omega)]
  | cons b rest ih =>
    simp only [embedFrom, List.length_cons]
    rw [ih, memRead_memWrite]
    by_cases h1 : i + 1 ≤ a ∧ a < i + 1 + rest.length
    · rw [if_pos h1, if_neg (by omega), if_pos (by omega)]
      obtain ⟨k, rfl⟩ : ∃ k, a = i + 1 + k := ⟨a - (i + 1), by omega⟩
      have e1 : i + 1 + k - (i + 1) = k := by omega
      have e2 : i + 1 + k - i = k + 1 := by omega
      rw [e1, e2]
      rfl
    · rw [if_neg h1]
      by_cases h2 : a = i
      · subst h2
        rw [if_pos rfl, if_pos (by omega)]
        simp
      · rw [if_neg h2, if_neg (by omega)]

theorem Memory.wf_embedFrom {m : Memory} (hm : Memory.wf m = true) (i : Nat) (bits : List Bool) :
    Memory.wf (embedFrom m i bits) = true := by
  induction bits generalizing m i with
  | nil => exact hm
  | cons b rest ih => exact ih (Memory.wf_memWrite hm _ _) _

theorem cellsBelow_embedFrom {m : Memory} {bound : Nat} (hm : cellsBelow bound m = true) (i : Nat) (bits : List Bool)
    (hi : i + bits.length ≤ bound) : cellsBelow bound (embedFrom m i bits) = true := by
  induction bits generalizing m i with
  | nil => exact hm
  | cons b rest ih =>
    simp only [List.length_cons] at hi
    exact ih (cellsBelow_memWrite (by omega) _ hm) _ (by omega)

end Sys2Proof.Machine
end

