-- ==== Sys2Proof/Laws/Stages.lean ====
section
/-! SUPPORT. What each stage can do, once: how it commits, what an error leaves, what it can fault with. -/

namespace Sys2Proof.Machine

/-! ### Completion (30_encoding.md R86) -/

/-- A command that answers a next state ended in a stage outcome that committed or raised an error. -/
theorem StageOutcome.finish_next {o : StageOutcome} {t : State} (h : o.finish = .next t) :
    (∃ u, o = .ok u ∧ t = u.complete .noError) ∨ ∃ e u, o = .error e u ∧ t = u.complete e := by
  cases o with
  | ok u => exact .inl ⟨u, rfl, by simpa [StageOutcome.finish] using h.symm⟩
  | error e u => exact .inr ⟨e, u, rfl, by simpa [StageOutcome.finish] using h.symm⟩
  | fault r => cases h

theorem StageOutcome.finish_fault {o : StageOutcome} {r : Fault} (h : o.finish = .fault r) : o = .fault r := by
  cases o with
  | ok u => cases h
  | error e u => cases h
  | fault r' => simpa [StageOutcome.finish] using h

theorem StageOutcome.finish_ne_refused (o : StageOutcome) (r : Refusal) : o.finish ≠ .refused r := by
  cases o <;> simp [StageOutcome.finish]

/-- Two stages in a row: the second ran on what the first committed, or the first ended the command. -/
theorem StageOutcome.andThen_cases (o : StageOutcome) (next : State → StageOutcome) :
    (∃ u, o = .ok u ∧ o.andThen next = next u) ∨ (∃ e u, o = .error e u ∧ o.andThen next = .error e u) ∨
      ∃ r, o = .fault r ∧ o.andThen next = .fault r := by
  cases o with
  | ok u => exact .inl ⟨u, rfl, rfl⟩
  | error e u => exact .inr (.inl ⟨e, u, rfl, rfl⟩)
  | fault r => exact .inr (.inr ⟨r, rfl, rfl⟩)

/-! ### Encode stage (40_codec_raw_caesar.md R107) -/

/-- The text an encode stage encodes: the message's symbols with the delimiter appended (40_codec_raw_caesar.md R107). -/
def textOf (m : List Word) : List Symbol := m.map (fun w => w.setWidth 8) ++ [delimSym]

theorem textOf_symbols (m : List Symbol) : textOf (m.map fun c => c.setWidth 32) = m ++ [delimSym] := by
  simp only [textOf, List.map_map]
  congr 1
  conv_rhs => rw [← List.map_id m]
  apply List.map_congr_left
  intro c _
  simp

theorem all_isSymbol_symbols (m : List Symbol) : (m.map fun c => c.setWidth 32).all isSymbol = true := by
  simp only [List.all_map, List.all_eq_true, Function.comp, isSymbol, decide_eq_true_eq]
  intro c _
  have := c.isLt
  simp only [BitVec.toNat_setWidth]
  omega

/-- What an encode stage can do. -/
theorem encodeStage_cases (k : Kind) (s : State) :
    (s.message = none ∧ encodeStage k s = .fault .unwrittenRead) ∨
    (∃ m, s.message = some m ∧
      ((m.all isSymbol = false ∧ encodeStage k s = .error .format s.dropTree) ∨
        (m.all isSymbol = true ∧
          ((encodeText k s (textOf m) = none ∧ encodeStage k s = .fault .internalConsistency) ∨
            ∃ r, encodeText k s (textOf m) = some r ∧
              ((s.params.bitMax < r.2.length ∧ encodeStage k s = .error .overflow s.dropTree) ∨
                (r.2.length ≤ s.params.bitMax ∧ r.1 = none ∧ encodeStage k s = .ok (s.dropTree.writeStream r.2)) ∨
                ∃ tree, r.2.length ≤ s.params.bitMax ∧ r.1 = some tree ∧
                  encodeStage k s = .ok ((s.dropTree.writeStream r.2).storeTree tree)))))) := by
  cases hm : s.message with
  | none => exact .inl ⟨rfl, by simp [encodeStage, hm]⟩
  | some m =>
    refine .inr ⟨m, rfl, ?_⟩
    cases ha : m.all isSymbol with
    | false => exact .inl ⟨rfl, by simp [encodeStage, hm, ha]⟩
    | true =>
      refine .inr ⟨rfl, ?_⟩
      cases hr : encodeText k s (textOf m) with
      | none =>
        refine .inl ⟨rfl, ?_⟩
        rw [textOf] at hr
        simp [encodeStage, hm, ha, hr]
      | some r =>
        refine .inr ⟨r, rfl, ?_⟩
        obtain ⟨tree, bits⟩ := r
        have e : encodeStage k s = commitStream s.dropTree tree bits := by
          rw [textOf] at hr
          simp [encodeStage, hm, ha, hr]
        rw [e]
        by_cases hl : s.params.bitMax < bits.length
        · exact .inl ⟨hl, by simp [commitStream, hl]⟩
        · cases tree with
          | none => exact .inr (.inl ⟨by simpa using hl, rfl, by simp [commitStream, hl]⟩)
          | some tree => exact .inr (.inr ⟨tree, by simpa using hl, rfl, by simp [commitStream, hl]⟩)

/-- A successful encode stage: the message was written and made of symbols, and the stream fits the bit buffer. -/
theorem encodeStage_ok {k : Kind} {s t : State} (h : encodeStage k s = .ok t) :
    ∃ m tree bits, s.message = some m ∧ m.all isSymbol = true ∧ encodeText k s (textOf m) = some (tree, bits) ∧
      bits.length ≤ s.params.bitMax ∧
      ((tree = none ∧ t = s.dropTree.writeStream bits) ∨
        ∃ T, tree = some T ∧ t = (s.dropTree.writeStream bits).storeTree T) := by
  rcases encodeStage_cases k s with ⟨_, e⟩ | ⟨m, hm, ⟨_, e⟩ | ⟨ha, ⟨_, e⟩ | ⟨⟨tree, bits⟩, hr, ⟨_, e⟩ | ⟨hl, hn, e⟩ | ⟨T, hl, hn, e⟩⟩⟩⟩
  · rw [e] at h; cases h
  · rw [e] at h; cases h
  · rw [e] at h; cases h
  · rw [e] at h; cases h
  · rw [e] at h; cases h; exact ⟨m, tree, bits, hm, ha, hr, hl, .inl ⟨hn, rfl⟩⟩
  · rw [e] at h; cases h; exact ⟨m, tree, bits, hm, ha, hr, hl, .inr ⟨T, hn, rfl⟩⟩

/-- A failed encode stage commits only TREE_VALID <- 0 (60_exceptions.md R224). -/
theorem encodeStage_error {k : Kind} {s t : State} {e : ErrorCode} (h : encodeStage k s = .error e t) :
    t = s.dropTree ∧ (e = .format ∨ e = .overflow) := by
  rcases encodeStage_cases k s with ⟨_, he⟩ | ⟨m, hm, ⟨_, he⟩ | ⟨ha, ⟨_, he⟩ | ⟨r, hr, ⟨_, he⟩ | ⟨_, _, he⟩ | ⟨T, _, _, he⟩⟩⟩⟩
  · rw [he] at h; cases h
  · rw [he] at h; cases h; exact ⟨rfl, .inl rfl⟩
  · rw [he] at h; cases h
  · rw [he] at h; cases h; exact ⟨rfl, .inr rfl⟩
  · rw [he] at h; cases h
  · rw [he] at h; cases h

/-! ### Decode stage (40_codec_raw_caesar.md R108, 41_huffman.md R145) -/

/-- What the RAW and CAESAR branches can do. -/
theorem fixedDecodeStage_cases (decoder : List Bool → Decoded) (s : State) :
    ((rawDecode s.writtenPrefix).found = false ∧ s.writtenPrefix.length / 8 < s.bitLen / 8 ∧
      fixedDecodeStage decoder s = .fault .unwrittenRead) ∨
    (((rawDecode s.writtenPrefix).found = true ∨ s.bitLen / 8 ≤ s.writtenPrefix.length / 8) ∧
      (((decoder s.writtenPrefix).found = false ∧ s.params.rawPolicy = .raiseTruncated ∧
          fixedDecodeStage decoder s = .error .truncated s) ∨
        (((decoder s.writtenPrefix).found = true ∨ s.params.rawPolicy = .returnText) ∧
          fixedDecodeStage decoder s = .ok (s.writeText (decoder s.writtenPrefix).out (decoder s.writtenPrefix).found
            (decoder s.writtenPrefix).pos)))) := by
  by_cases h : (rawDecode s.writtenPrefix).found = false ∧ s.writtenPrefix.length / 8 < s.bitLen / 8
  · exact .inl ⟨h.1, h.2, by simp [fixedDecodeStage, h]⟩
  · refine .inr ⟨?_, ?_⟩
    · by_cases hf : (rawDecode s.writtenPrefix).found = true
      · exact .inl hf
      · exact .inr (by by_contra hl; exact h ⟨by simpa using hf, by omega⟩)
    · by_cases h' : (decoder s.writtenPrefix).found = false ∧ s.params.rawPolicy = .raiseTruncated
      · exact .inl ⟨h'.1, h'.2, by simp only [fixedDecodeStage, if_neg h, if_pos h']⟩
      · refine .inr ⟨?_, by simp only [fixedDecodeStage, if_neg h, if_neg h']⟩
        by_cases hf : (decoder s.writtenPrefix).found = true
        · exact .inl hf
        · refine .inr ?_
          cases hp : s.params.rawPolicy with
          | returnText => rfl
          | raiseTruncated => exact absurd ⟨by simpa using hf, hp⟩ h'

/-- What the Huffman branch can do. -/
theorem huffDecodeStage_cases (s : State) :
    (s.treeValid = false ∧ huffDecodeStage s = .error .session s) ∨
    (s.treeValid = true ∧
      let n := decodeBound s.params.huffBound s.bitLen
      (huffWalk s.tree s.tree.root 0 (s.writtenPrefix.take n) = none ∧
        huffDecodeStage s = .fault .internalConsistency) ∨
      ∃ d, huffWalk s.tree s.tree.root 0 (s.writtenPrefix.take n) = some d ∧
        ((d.found = true ∧ huffDecodeStage s = .ok (s.writeText d.out true d.pos)) ∨
          (d.found = false ∧ (s.writtenPrefix.take n).length < n ∧ huffDecodeStage s = .fault .unwrittenRead) ∨
          (d.found = false ∧ n ≤ (s.writtenPrefix.take n).length ∧ huffDecodeStage s = .error .truncated s))) := by
  cases hv : s.treeValid with
  | false => exact .inl ⟨rfl, by simp [huffDecodeStage, hv]⟩
  | true =>
    refine .inr ⟨rfl, ?_⟩
    cases hw : huffWalk s.tree s.tree.root 0 (s.writtenPrefix.take (decodeBound s.params.huffBound s.bitLen)) with
    | none => exact .inl ⟨hw, by simp [huffDecodeStage, hv, hw]⟩
    | some d =>
      refine .inr ⟨d, hw, ?_⟩
      cases hf : d.found with
      | true => exact .inl ⟨rfl, by simp [huffDecodeStage, hv, hw, hf]⟩
      | false =>
        by_cases hl : (s.writtenPrefix.take (decodeBound s.params.huffBound s.bitLen)).length <
            decodeBound s.params.huffBound s.bitLen
        · exact .inr (.inl ⟨rfl, hl, by simp only [huffDecodeStage, hv, hw, hf, if_pos hl]; simp⟩)
        · exact .inr (.inr ⟨rfl, by omega, by simp only [huffDecodeStage, hv, hw, hf, if_neg hl]; simp⟩)

/-- A successful decode stage commits a text, and nothing but the text. -/
theorem decodeStage_ok {k : Kind} {s t : State} (h : decodeStage k s = .ok t) :
    ∃ out found pos, t = s.writeText out found pos := by
  cases k with
  | raw =>
    rcases fixedDecodeStage_cases rawDecode s with ⟨_, _, e⟩ | ⟨_, ⟨_, _, e⟩ | ⟨_, e⟩⟩ <;>
      rw [decodeStage, e] at h <;> cases h
    exact ⟨_, _, _, rfl⟩
  | caesar =>
    rcases fixedDecodeStage_cases (fun bits => caesarDecode bits s.shift) s with ⟨_, _, e⟩ | ⟨_, ⟨_, _, e⟩ | ⟨_, e⟩⟩ <;>
      rw [decodeStage, e] at h <;> cases h
    exact ⟨_, _, _, rfl⟩
  | huff =>
    rcases huffDecodeStage_cases s with ⟨_, e⟩ | ⟨_, ⟨_, e⟩ | ⟨d, _, ⟨_, e⟩ | ⟨_, _, e⟩ | ⟨_, _, e⟩⟩⟩ <;>
      rw [decodeStage, e] at h <;> cases h
    exact ⟨_, _, _, rfl⟩

/-- A failed decode stage commits nothing (60_exceptions.md R224). -/
theorem decodeStage_error {k : Kind} {s t : State} {e : ErrorCode} (h : decodeStage k s = .error e t) :
    t = s ∧ (e = .truncated ∨ (e = .session ∧ k = .huff ∧ s.treeValid = false)) := by
  cases k with
  | raw =>
    rcases fixedDecodeStage_cases rawDecode s with ⟨_, _, e⟩ | ⟨_, ⟨_, _, e⟩ | ⟨_, e⟩⟩ <;>
      rw [decodeStage, e] at h <;> cases h
    exact ⟨rfl, .inl rfl⟩
  | caesar =>
    rcases fixedDecodeStage_cases (fun bits => caesarDecode bits s.shift) s with ⟨_, _, e⟩ | ⟨_, ⟨_, _, e⟩ | ⟨_, e⟩⟩ <;>
      rw [decodeStage, e] at h <;> cases h
    exact ⟨rfl, .inl rfl⟩
  | huff =>
    rcases huffDecodeStage_cases s with ⟨hv, e⟩ | ⟨_, ⟨_, e⟩ | ⟨d, _, ⟨_, e⟩ | ⟨_, _, e⟩ | ⟨_, _, e⟩⟩⟩ <;>
      rw [decodeStage, e] at h <;> cases h
    · exact ⟨rfl, .inr ⟨rfl, rfl, hv⟩⟩
    · exact ⟨rfl, .inl rfl⟩

/-! ### WRITE and READALL (42_embedder.md R176, R177) -/

/-- What the write stage can do. -/
theorem writeStage_cases (s : State) :
    (s.params.gridBytesMax < s.capacity ∧ writeStage s = .error .geometry s) ∨
    (s.capacity ≤ s.params.gridBytesMax ∧
      ((fits s.params.capacityRule s.bitLen s.capacity = false ∧ writeStage s = .error .capacity s) ∨
        (fits s.params.capacityRule s.bitLen s.capacity = true ∧
          ((s.writtenPrefix.length < s.bitLen ∧ writeStage s = .fault .unwrittenRead) ∨
            (s.writtenPrefix.length = s.bitLen ∧
              writeStage s = .ok { s with pix := embedFrom s.pix 0 s.writtenPrefix }))))) := by
  by_cases hg : s.params.gridBytesMax < s.capacity
  · exact .inl ⟨hg, by simp only [writeStage, if_pos hg]⟩
  · refine .inr ⟨by omega, ?_⟩
    cases hf : fits s.params.capacityRule s.bitLen s.capacity with
    | false => exact .inl ⟨rfl, by simp only [writeStage, if_neg hg, hf, if_pos]⟩
    | true =>
      refine .inr ⟨rfl, ?_⟩
      have hle := s.writtenPrefix_spec.1
      by_cases hl : s.writtenPrefix.length < s.bitLen
      · exact .inl ⟨hl, by simp [writeStage, hg, hf, hl]⟩
      · exact .inr ⟨by omega, by simp [writeStage, hg, hf, hl]⟩

/-- What the read stage can do. -/
theorem readAllStage_cases (s : State) :
    (s.params.gridBytesMax < s.capacity ∧ readAllStage s = .error .geometry s) ∨
    (s.capacity ≤ s.params.gridBytesMax ∧
      readAllStage s = .ok (s.writeStream (readLsbs s.pix s.capacity))) := by
  by_cases hg : s.params.gridBytesMax < s.capacity
  · exact .inl ⟨hg, by simp [readAllStage, hg]⟩
  · exact .inr ⟨by omega, by simp [readAllStage, hg]⟩

/-- Every stream that fits a grid is no longer than the grid has slots (42_embedder.md R178). -/
theorem fits_le {rule : CapacityRule} {l c : Nat} (h : fits rule l c = true) : l ≤ c := by
  cases rule <;> simp only [fits, decide_eq_true_eq] at h <;> omega

end Sys2Proof.Machine
end

