-- ==== Sys2Proof/Laws/Step.lean ====
section
/-! SUPPORT. What a step can do, once: reset out of the fault state, nothing, the engine's move, or the host's. -/

namespace Sys2Proof.Machine

/-- The engine's turn, as `nextMove` sees it. -/
theorem nextMove_engine {s t : State} (h : nextMove s = .engine t) (hf : s.faulted = none) :
    EngineTurn s ∧ t = engineStart s := by
  unfold nextMove at h
  split at h
  · rename_i ho
    split at h
    · rename_i hp
      cases h
      exact ⟨⟨hf, hp, .inl ho⟩, by simp [engineStart, ho]⟩
    · cases h
  · rename_i op rest ho
    split at h
    · rename_i hp
      split at h
      · rename_i ht
        cases h
        refine ⟨⟨hf, hp, .inr (by simp [ht])⟩, ?_⟩
        obtain ⟨⟩ := s
        simp_all [engineStart]
      · rename_i ts ht
        cases h
        exact ⟨⟨hf, hp, .inr (by simp [ht])⟩, by simp [engineStart, ho, ht]⟩
      · cases h
    · cases h

/-- The host's turn, as `nextMove` sees it. -/
theorem nextMove_host {s t : State} {op : HostOp} (h : nextMove s = .host op t) (hf : s.faulted = none) :
    HostTurn s op ∧ t = hostStart s := by
  unfold nextMove at h
  split at h
  · split at h <;> cases h
  · rename_i op' rest ho
    split at h
    · rename_i hp
      split at h
      · cases h
      · cases h
      · rename_i ts ht
        cases h
        exact ⟨⟨hf, by simp [ho], .inr (by simp [ht])⟩, by simp [hostStart, ho, ht, hp]⟩
    · rename_i hp
      cases h
      exact ⟨⟨hf, by simp [ho], .inl (by simpa using hp)⟩, by simp [hostStart, ho, hp]⟩

theorem nextMove_of_engineTurn {s : State} (h : EngineTurn s) : nextMove s = .engine (engineStart s) := by
  obtain ⟨_, hp, ht⟩ := h
  unfold nextMove engineStart
  cases ho : s.hostOps with
  | nil => simp [hp]
  | cons op rest =>
    simp only [hp, if_true]
    rw [if_neg (by simp)]
    cases htn : s.turns with
    | nil => obtain ⟨⟩ := s; simp_all
    | cons a ts =>
      cases a with
      | engine => rfl
      | host => simp [ho, htn] at ht

theorem nextMove_of_hostTurn {s : State} {op : HostOp} (h : HostTurn s op) :
    nextMove s = .host op (hostStart s) := by
  obtain ⟨_, ho, ht⟩ := h
  unfold nextMove hostStart
  cases hops : s.hostOps with
  | nil => simp [hops] at ho
  | cons op' rest =>
    simp only [hops, List.head?_cons, Option.some.injEq] at ho
    subst ho
    cases hp : s.pending with
    | false => simp
    | true =>
      cases htn : s.turns with
      | nil => simp [hp, htn] at ht
      | cons a ts =>
        cases a with
        | engine => simp [hp, htn] at ht
        | host => simp

theorem step_of_engineTurn {s : State} (h : EngineTurn s) :
    step s = settleMove (engineStart s) (engineStep (engineStart s)) := by
  simp [step, h.1, liveStep, nextMove_of_engineTurn h]

theorem step_of_hostTurn {s : State} {op : HostOp} (h : HostTurn s op) :
    step s = settleMove (hostStart s) (hostStep op (hostStart s)) := by
  simp [step, h.1, liveStep, nextMove_of_hostTurn h]

/-- The platform's reset resets the state it is asserted in, its entries of the input lists used up. -/
theorem step_of_resetTurn {s : State} (h : ResetTurn s) :
    step s = .next (if s.faulted = none then hostStart s else { s with hostOps := s.hostOps.tail }).hardReset := by
  rcases h with h | ⟨hf, ho⟩
  · rw [step_of_hostTurn h, if_pos h.1]
    rfl
  · rw [if_neg hf]
    unfold step
    split
    · unfold faultedStep
      split
      · rename_i rest hr
        rw [hr]
        rfl
      · rename_i hr
        cases hops : s.hostOps with
        | nil => simp [hops] at ho
        | cons op rest =>
          simp only [hops, List.head?_cons, Option.some.injEq] at ho
          exact absurd (ho ▸ hops) (hr rest)
    · rename_i hn
      exact absurd hn hf

/-- A settled move answers the move's next state, or the fault state. -/
theorem settleMove_next {s t : State} {o : Host.Outcome State Fault Refusal} (h : settleMove s o = .next t) :
    o = .next t ∨ ∃ r, o = .fault r ∧ t = s.enterFault r := by
  cases o with
  | next u => exact .inl (by simpa [settleMove] using h)
  | fault r => exact .inr ⟨r, rfl, by simpa [settleMove] using h.symm⟩
  | refused r => cases h

/-- Everything a step that answers a next state can have done. -/
theorem step_cases {s t : State} (h : step s = .next t) :
    (∃ r rest, s.faulted = some r ∧ s.hostOps = .reset :: rest ∧ t = ({ s with hostOps := rest } : State).hardReset) ∨
    (s.faulted = none ∧ t = s) ∨
    (EngineTurn s ∧
      ((∃ e, decode s.latched = .error e ∧ t = (engineStart s).illegalCommand) ∨
        ∃ i, decode s.latched = .ok i ∧ (exec i (engineStart s) = .next t ∨
          ∃ r, exec i (engineStart s) = .fault r ∧ t = (engineStart s).enterFault r))) ∨
    (∃ op, HostTurn s op ∧ (hostStep op (hostStart s) = .next t ∨
      ∃ r, hostStep op (hostStart s) = .fault r ∧ t = (hostStart s).enterFault r)) := by
  unfold step at h
  split at h
  · rename_i r hf
    unfold faultedStep at h
    split at h
    · rename_i rest ho
      cases h
      exact .inl ⟨r, rest, hf, ho, rfl⟩
    · cases h
  · rename_i hf
    unfold liveStep at h
    split at h
    · cases h
      exact .inr (.inl ⟨hf, rfl⟩)
    · rename_i u hm
      obtain ⟨he, rfl⟩ := nextMove_engine hm hf
      have hl : (engineStart s).latched = s.latched := by
        unfold engineStart
        split <;> rfl
      refine .inr (.inr (.inl ⟨he, ?_⟩))
      unfold engineStep at h
      rw [hl] at h
      cases hd : decode s.latched with
      | error e =>
        simp only [hd, settleMove, Host.Outcome.next.injEq] at h
        exact .inl ⟨e, rfl, h.symm⟩
      | ok i =>
        rw [hd] at h
        exact .inr ⟨i, rfl, settleMove_next h⟩
    · rename_i op u hm
      obtain ⟨hh, rfl⟩ := nextMove_host hm hf
      exact .inr (.inr (.inr ⟨op, hh, settleMove_next h⟩))

end Sys2Proof.Machine
end

