-- ==== Sys2Proof/Laws/HostPort.lean ====
section
/-! SUPPORT. The host's accesses: which location an address names, and everything a host access can do. -/

namespace Sys2Proof.Machine

/-! ### The window (10_state.md R22, R39, 20_memory.md R61) -/

theorem WindowReg.exists_msg (p : Params) (k : Nat) : (WindowReg.msg k).exists p = true ↔ k < p.msgMax :=
  decide_eq_true_iff
theorem WindowReg.exists_bitw (p : Params) (k : Nat) : (WindowReg.bitw k).exists p = true ↔ k < wordCount p.bitMax :=
  decide_eq_true_iff
theorem WindowReg.exists_text (p : Params) (k : Nat) : (WindowReg.text k).exists p = true ↔ k < p.textMax :=
  decide_eq_true_iff

theorem ifExists_of_exists {p : Params} {r : WindowReg} (h : r.exists p = true) : ifExists p r = some r := by
  simp [ifExists, h]

/-- What the parameter checks say (00_scope.md R7). -/
theorem Params.wellFormed_iff (p : Params) : p.wellFormed = true ↔
    1 ≤ p.msgMax ∧ p.msgMax ≤ 262144 ∧ p.gridBytesMax ≤ p.bitMax ∧ p.bitMax ≤ p.textMax ∧ p.textMax ≤ 262144 := by
  simp only [Params.wellFormed, Params.msgMaxFits, Params.gridFits, Params.bitsFit, Params.textFits, Bool.and_eq_true,
    decide_eq_true_eq, and_assoc]

/-- The location at an aligned offset of the window is the target of a 32-bit access there. -/
theorem busTarget_of_windowReg {p : Params} {r : WindowReg} {off : Nat} (h : off < windowSize) (ha : off % 4 = 0)
    (hr : windowReg p off = some r) : busTarget p 32 (p.blockBase + off) = .reg r := by
  unfold busTarget
  rw [if_neg (by omega), if_neg (by simp only [Nat.add_sub_cancel_left]; omega)]
  simp only [Nat.add_sub_cancel_left, hr]

/-- An aligned offset that names no location is a bus error (10_state.md R39). -/
theorem busTarget_of_none {p : Params} {width off : Nat} (h : off < windowSize)
    (hb : width ≠ 32 ∨ off % 4 ≠ 0 ∨ windowReg p off = none) : busTarget p width (p.blockBase + off) = .busError := by
  unfold busTarget
  rw [if_neg (by omega)]
  simp only [Nat.add_sub_cancel_left]
  by_cases hw : width ≠ 32 ∨ off % 4 ≠ 0
  · rw [if_pos hw]
  · rw [if_neg hw]
    rcases hb with hb | hb | hb
    · exact absurd (.inl hb) hw
    · exact absurd (.inr hb) hw
    · rw [hb]

/-- Every register below the reserved range is the target of its address, whatever the parameters. -/
theorem busTarget_register (p : Params) (r : WindowReg) (h : r.offset < 0x28) :
    busTarget p 32 (p.blockBase + r.offset) = .reg r := by
  cases r with
  | msg k => simp only [WindowReg.offset] at h; omega
  | bitw k => simp only [WindowReg.offset] at h; omega
  | text k => simp only [WindowReg.offset] at h; omega
  | _ => exact busTarget_of_windowReg (by decide) (by decide) rfl

/-- With parameters in their bounds, every location that exists is the target of its address. -/
theorem busTarget_existing {p : Params} (hp : p.wellFormed = true) (r : WindowReg) (h : r.exists p = true) :
    busTarget p 32 (p.blockBase + r.offset) = .reg r := by
  rw [Params.wellFormed_iff] at hp
  cases r with
  | msg k =>
    have hk := (WindowReg.exists_msg p k).mp h
    refine busTarget_of_windowReg (off := 0x100000 + 4 * k) (by unfold windowSize; omega) (by omega) ?_
    unfold windowReg
    rw [if_neg (by omega), if_pos (by omega), show (0x100000 + 4 * k - 0x100000) / 4 = k by omega]
    exact ifExists_of_exists h
  | bitw k =>
    have hk := (WindowReg.exists_bitw p k).mp h
    have hb : wordCount p.bitMax ≤ 8192 := by unfold wordCount; omega
    refine busTarget_of_windowReg (off := 0x200000 + 4 * k) (by unfold windowSize; omega) (by omega) ?_
    unfold windowReg
    rw [if_neg (by omega), if_neg (by omega), if_pos (by omega), show (0x200000 + 4 * k - 0x200000) / 4 = k by omega]
    exact ifExists_of_exists h
  | text k =>
    have hk := (WindowReg.exists_text p k).mp h
    refine busTarget_of_windowReg (off := 0x300000 + 4 * k) (by unfold windowSize; omega) (by omega) ?_
    unfold windowReg
    rw [if_neg (by omega), if_neg (by omega), if_neg (by omega), if_pos (by omega),
      show (0x300000 + 4 * k - 0x300000) / 4 = k by omega]
    exact ifExists_of_exists h
  | _ => exact busTarget_register p _ (by decide)

/-- The target of an access is a location only at its own address, with width 32. -/
theorem busTarget_reg_exists {p : Params} {width addr : Nat} {r : WindowReg} (h : busTarget p width addr = .reg r) :
    width = 32 ∧ addr = p.blockBase + r.offset ∧ r.exists p = true ∧ windowReg p r.offset = some r := by
  unfold busTarget at h
  by_cases ho : addr < p.blockBase ∨ p.blockBase + windowSize ≤ addr
  · rw [if_pos ho] at h; cases h
  · rw [if_neg ho] at h
    by_cases hw : width ≠ 32 ∨ (addr - p.blockBase) % 4 ≠ 0
    · rw [if_pos hw] at h; cases h
    · rw [if_neg hw] at h
      obtain ⟨off, rfl⟩ : ∃ off, addr = p.blockBase + off := ⟨addr - p.blockBase, by omega⟩
      simp only [Nat.add_sub_cancel_left] at h hw
      refine ⟨by omega, ?_⟩
      cases hr : windowReg p off with
      | none => rw [hr] at h; cases h
      | some q =>
        rw [hr] at h
        cases h
        suffices hs : off = r.offset ∧ r.exists p = true from ⟨by omega, hs.2, by rw [← hs.1, hr]⟩
        have hx : ∀ q' : WindowReg, ifExists p q' = some r → q' = r ∧ r.exists p = true := by
          intro q' hq
          unfold ifExists at hq
          split at hq
          · cases hq; exact ⟨rfl, ‹_›⟩
          · cases hq
        unfold windowReg at hr
        split at hr
        · obtain ⟨q, hq⟩ : ∃ q, off / 4 = q := ⟨_, rfl⟩
          rw [hq] at hr
          split at hr <;> cases hr <;> exact ⟨by simp only [WindowReg.offset]; omega, rfl⟩
        · split at hr
          · obtain ⟨rfl, he⟩ := hx _ hr
            exact ⟨by simp only [WindowReg.offset]; omega, he⟩
          · split at hr
            · obtain ⟨rfl, he⟩ := hx _ hr
              exact ⟨by simp only [WindowReg.offset]; omega, he⟩
            · split at hr
              · obtain ⟨rfl, he⟩ := hx _ hr
                exact ⟨by simp only [WindowReg.offset]; omega, he⟩
              · cases hr

/-! ### The accesses -/

/-- A read answers a next state only from a location that may be read and has been written, and it only delivers. -/
theorem hostRead_next {width addr : Nat} {s t : State} (h : hostRead width addr s = .next t) :
    ∃ r v, busTarget s.params width addr = .reg r ∧ (s.pending = true → r.allowedWhileBusy = true) ∧
      s.readReg r = some v ∧ t = s.deliver v := by
  unfold hostRead at h
  split at h
  · cases h
  · cases h
  · rename_i r hr
    split at h
    · cases h
    · rename_i hb
      split at h
      · cases h
      · rename_i v hv
        cases h
        exact ⟨r, v, hr, by simpa [State.busy] using hb, hv, rfl⟩

/-- A write answers a next state only at a location that may be written, and its effect is that location's. -/
theorem hostWrite_next {width addr : Nat} {v : Word} {s t : State} (h : hostWrite width addr v s = .next t) :
    ∃ r, busTarget s.params width addr = .reg r ∧ (s.pending = true → r.allowedWhileBusy = true) ∧
      t = s.writeReg r v := by
  unfold hostWrite at h
  split at h
  · cases h
  · cases h
  · rename_i r hr
    split at h
    · cases h
    · rename_i hb
      cases h
      exact ⟨r, hr, by simpa [State.busy] using hb, rfl⟩

/-- A read of a location, the host having the turn: hazard, unwritten, or delivered. -/
theorem step_busRead {s : State} {r : WindowReg} {addr : Nat} (hr : busTarget s.params 32 addr = .reg r)
    (h : HostTurn s (.busRead 32 addr)) :
    step s =
      if s.pending && !r.allowedWhileBusy then .next ((hostStart s).enterFault .hostHazard)
      else match s.readReg r with
        | none => .next ((hostStart s).enterFault .unwrittenRead)
        | some v => .next ((hostStart s).deliver v) := by
  have hr' : busTarget (hostStart s).params 32 addr = .reg r := hr
  have hb : (hostStart s).busy = s.pending := rfl
  have hv : (hostStart s).readReg r = s.readReg r := by cases r <;> rfl
  rw [step_of_hostTurn h]
  simp only [hostStep, hostRead, hr', hb, hv]
  cases s.pending && !r.allowedWhileBusy with
  | true => rfl
  | false => cases s.readReg r <;> rfl

/-- A write of a location, the host having the turn: hazard, or that location's effect. -/
theorem step_busWrite {s : State} {r : WindowReg} {addr : Nat} {v : Word} (hr : busTarget s.params 32 addr = .reg r)
    (h : HostTurn s (.busWrite 32 addr v)) :
    step s =
      if s.pending && !r.allowedWhileBusy then .next ((hostStart s).enterFault .hostHazard)
      else .next ((hostStart s).writeReg r v) := by
  have hr' : busTarget (hostStart s).params 32 addr = .reg r := hr
  have hb : (hostStart s).busy = s.pending := rfl
  rw [step_of_hostTurn h]
  simp only [hostStep, hostWrite, hr', hb]
  cases s.pending && !r.allowedWhileBusy <;> rfl

/-- A pixel access answers a next state only with no command pending and within the pixel memory. -/
theorem hostPixRead_next {a : Nat} {s t : State} (h : hostPixRead a s = .next t) :
    a < s.params.gridBytesMax ∧ s.pending = false ∧ t = s.deliver ((memRead s.pix a).setWidth 32) := by
  unfold hostPixRead at h
  split at h
  · cases h
  · split at h
    · cases h
    · rename_i ha hb
      cases h
      exact ⟨by omega, by simpa [State.busy] using hb, rfl⟩

theorem hostPixWrite_next {a : Nat} {v : Byte} {s t : State} (h : hostPixWrite a v s = .next t) :
    a < s.params.gridBytesMax ∧ s.pending = false ∧ t = { s with pix := memWrite s.pix a v } := by
  unfold hostPixWrite at h
  split at h
  · cases h
  · split at h
    · cases h
    · rename_i ha hb
      cases h
      exact ⟨by omega, by simpa [State.busy] using hb, rfl⟩

/-- A poll delivers STATUS, and stays first in the list while BUSY reads 1. -/
theorem hostPoll_next {s t : State} (h : hostPoll s = .next t) :
    t = s.deliver s.status ∨ t = { s.deliver s.status with hostOps := .poll :: s.hostOps } := by
  unfold hostPoll at h
  split at h
  · cases h; exact .inr rfl
  · cases h; exact .inl rfl

end Sys2Proof.Machine
end

