-- ==== Sys2Proof/Laws/Huffman.lean ====
section
/-! SUPPORT. The small laws of tree paths, node lists and the stable sort (41_huffman.md R133 to R139). -/

namespace Sys2Proof.Machine

/-! ### Paths -/

@[simp] theorem followPath_nil (nodes : List Node) (n : Nat) : followPath nodes n [] = some n := rfl

/-- A path that ends somewhere goes on from there. -/
theorem followPath_append {nodes : List Node} {n m : Nat} {x : List Bool} (y : List Bool)
    (h : followPath nodes n x = some m) : followPath nodes n (x ++ y) = followPath nodes m y := by
  induction x generalizing n with
  | nil => cases h; rfl
  | cons b rest ih =>
    simp only [followPath, List.cons_append] at h ⊢
    split at h
    · exact ih h
    · cases h

/-! ### Frequencies and the sort -/

/-- A node keeps its frequency when nodes are appended to the arena. -/
theorem freqAt_append {nodes : List Node} (more : List Node) {n : Nat} (h : n < nodes.length) :
    freqAt (nodes ++ more) n = freqAt nodes n := by
  simp [freqAt, List.getElem?_append_left h]

theorem insertByFreq_length (nodes : List Node) (x : Nat) (l : List Nat) :
    (insertByFreq nodes x l).length = l.length + 1 := by
  induction l with
  | nil => rfl
  | cons y rest ih =>
    simp only [insertByFreq]
    split
    · rfl
    · simp [ih]

@[simp] theorem stableSortByFreq_nil (nodes : List Node) : stableSortByFreq nodes [] = [] := rfl

@[simp] theorem stableSortByFreq_cons (nodes : List Node) (x : Nat) (l : List Nat) :
    stableSortByFreq nodes (x :: l) = insertByFreq nodes x (stableSortByFreq nodes l) := rfl

@[simp] theorem stableSortByFreq_length (nodes : List Node) (l : List Nat) :
    (stableSortByFreq nodes l).length = l.length := by
  induction l with
  | nil => rfl
  | cons x rest ih => simp [insertByFreq_length, ih]

/-! ### The node list of a pass -/

@[simp] theorem passList_zero (nodes : List Node) (k : Nat) : passList nodes k 0 = List.range k := rfl

@[simp] theorem passList_succ (nodes : List Node) (k j : Nat) :
    passList nodes k (j + 1) = (stableSortByFreq nodes (passList nodes k j)).drop 2 ++ [k + j] := rfl

/-- Each pass makes the node list one shorter. -/
theorem passList_length (nodes : List Node) {k j : Nat} (h : j < k) : (passList nodes k j).length = k - j := by
  induction j with
  | zero => simp
  | succ j ih =>
    have := ih (by omega)
    simp only [passList_succ, List.length_append, List.length_drop, stableSortByFreq_length, this, List.length_singleton]
    omega

end Sys2Proof.Machine
end

