-- ==== Sys2Proof/Laws/PerInstr.lean ====
section
/-! SUPPORT. The families of LAWS.json: one lemma per command about the command as syntax. -/

namespace Sys2Proof.Laws.EncodedFields

/-- The word of a command holds its OP and KIND codes, its reserved bits are clear, and its fields are well formed
(30_encoding.md R80 to R82). -/
def Statement (i : Instr) : Prop :=
  (cmdFields (encode i)).op = i.op.code ∧ (cmdFields (encode i)).kind = kindCode i.kind ∧
    (cmdFields (encode i)).rsv = 0#26 ∧ (cmdFields (encode i)).wellFormed = true

theorem encodeRaw : Statement .encodeRaw := by unfold Statement; decide
theorem encodeCaesar : Statement .encodeCaesar := by unfold Statement; decide
theorem encodeHuff : Statement .encodeHuff := by unfold Statement; decide
theorem decodeRaw : Statement .decodeRaw := by unfold Statement; decide
theorem decodeCaesar : Statement .decodeCaesar := by unfold Statement; decide
theorem decodeHuff : Statement .decodeHuff := by unfold Statement; decide
theorem write : Statement .write := by unfold Statement; decide
theorem readall : Statement .readall := by unfold Statement; decide
theorem embedRaw : Statement .embedRaw := by unfold Statement; decide
theorem embedCaesar : Statement .embedCaesar := by unfold Statement; decide
theorem embedHuff : Statement .embedHuff := by unfold Statement; decide
theorem extractRaw : Statement .extractRaw := by unfold Statement; decide
theorem extractCaesar : Statement .extractCaesar := by unfold Statement; decide
theorem extractHuff : Statement .extractHuff := by unfold Statement; decide
theorem newsession : Statement .newsession := by unfold Statement; decide

end Sys2Proof.Laws.EncodedFields
end

