-- ==== Sys2Proof/Tests/Slice0.lean ====
section
/-! SUPPORT. Tests: the well-formedness smoke, words written out bit by bit, one-step tests on the spec's own vectors
(95_test_vectors.md and the examples of the rules), and for each statement a witness that its hypotheses can be met. -/

namespace Sys2Proof.Tests
open Sys2Proof.Machine
set_option Elab.async false

/-! ### Well-formedness smoke: for each check an ill-formed term it refuses, and a well-formed one -/

theorem smoke_fields_good : (CmdFields.mk 0x5#4 2#2 0#26).wellFormed = true := by decide
theorem smoke_rsvClear : (CmdFields.mk 0x1#4 0#2 1#26).rsvClear = false ∧
    (CmdFields.mk 0x1#4 0#2 1#26).wellFormed = false := by decide
theorem smoke_opKnown : (CmdFields.mk 0x8#4 0#2 0#26).opKnown = false ∧
    (CmdFields.mk 0x0#4 0#2 0#26).opKnown = false ∧ (CmdFields.mk 0x8#4 0#2 0#26).wellFormed = false := by decide
theorem smoke_kindKnown : (CmdFields.mk 0x1#4 3#2 0#26).kindKnown = false ∧
    (CmdFields.mk 0x1#4 3#2 0#26).wellFormed = false := by decide
theorem smoke_kindFits : (CmdFields.mk 0x3#4 1#2 0#26).kindFits = false ∧
    (CmdFields.mk 0x3#4 1#2 0#26).wellFormed = false := by decide
theorem smoke_params_good : Params.chosen.wellFormed = true := by decide
theorem smoke_msgMaxFits : ({ Params.chosen with msgMax := 0 } : Params).msgMaxFits = false ∧
    ({ Params.chosen with msgMax := 262145 } : Params).wellFormed = false := by decide
theorem smoke_gridFits : ({ Params.chosen with bitMax := 8 } : Params).gridFits = false ∧
    ({ Params.chosen with bitMax := 8 } : Params).wellFormed = false := by decide
theorem smoke_bitsFit : ({ Params.chosen with textMax := 8 } : Params).bitsFit = false ∧
    ({ Params.chosen with textMax := 8 } : Params).wellFormed = false := by decide
theorem smoke_textFits : ({ Params.chosen with textMax := 262145 } : Params).textFits = false ∧
    ({ Params.chosen with textMax := 262145 } : Params).wellFormed = false := by decide

/-! ### Decoding: RSV, KIND, OP written out bit by bit (30_encoding.md R80 to R82, R85) -/

theorem test_decode_encodeRaw : decode (0b00000000000000000000000000#26 ++ 0b00#2 ++ 0b0001#4) = .ok .encodeRaw := by decide
theorem test_decode_encodeCaesar : decode (0b00000000000000000000000000#26 ++ 0b01#2 ++ 0b0001#4) = .ok .encodeCaesar := by decide
theorem test_decode_encodeHuff : decode (0b00000000000000000000000000#26 ++ 0b10#2 ++ 0b0001#4) = .ok .encodeHuff := by decide
theorem test_decode_decodeRaw : decode (0b00000000000000000000000000#26 ++ 0b00#2 ++ 0b0010#4) = .ok .decodeRaw := by decide
theorem test_decode_decodeCaesar : decode (0b00000000000000000000000000#26 ++ 0b01#2 ++ 0b0010#4) = .ok .decodeCaesar := by decide
theorem test_decode_decodeHuff : decode (0b00000000000000000000000000#26 ++ 0b10#2 ++ 0b0010#4) = .ok .decodeHuff := by decide
theorem test_decode_write : decode (0b00000000000000000000000000#26 ++ 0b00#2 ++ 0b0011#4) = .ok .write := by decide
theorem test_decode_readall : decode (0b00000000000000000000000000#26 ++ 0b00#2 ++ 0b0100#4) = .ok .readall := by decide
theorem test_decode_embedRaw : decode (0b00000000000000000000000000#26 ++ 0b00#2 ++ 0b0101#4) = .ok .embedRaw := by decide
theorem test_decode_embedCaesar : decode (0b00000000000000000000000000#26 ++ 0b01#2 ++ 0b0101#4) = .ok .embedCaesar := by decide
theorem test_decode_embedHuff : decode (0b00000000000000000000000000#26 ++ 0b10#2 ++ 0b0101#4) = .ok .embedHuff := by decide
theorem test_decode_extractRaw : decode (0b00000000000000000000000000#26 ++ 0b00#2 ++ 0b0110#4) = .ok .extractRaw := by decide
theorem test_decode_extractCaesar : decode (0b00000000000000000000000000#26 ++ 0b01#2 ++ 0b0110#4) = .ok .extractCaesar := by decide
theorem test_decode_extractHuff : decode (0b00000000000000000000000000#26 ++ 0b10#2 ++ 0b0110#4) = .ok .extractHuff := by decide
theorem test_decode_newsession : decode (0b00000000000000000000000000#26 ++ 0b00#2 ++ 0b0111#4) = .ok .newsession := by decide
theorem test_decode_rejects : decode 0x00000000#32 = .error .reservedOp ∧ decode 0x0000000F#32 = .error .reservedOp ∧
    decode 0x00000032#32 = .error .reservedKind ∧ decode 0x00000037#32 = .error .reservedKind ∧
    decode 0x00000024#32 = .error .kindNotAllowed ∧ decode 0x80000001#32 = .error .reservedBits := by decide
theorem test_decodeTableWord : decodeTableWord 32 0x26 = some .extractHuff ∧ decodeTableWord 32 0x36 = none := by decide

/-! ### States the tests start from -/

/-- The state of an outcome, and whether it is one. -/
def nextOr (d : State) : Host.Outcome State Fault Refusal → State
  | .next t => t
  | _ => d

def isNext : Host.Outcome State Fault Refusal → Bool
  | .next _ => true
  | _ => false

theorem eq_next {d : State} {o : Host.Outcome State Fault Refusal} (h : isNext o = true) : o = .next (nextOr d o) := by
  cases o with
  | next t => rfl
  | fault r => cases h
  | refused r => cases h

/-- One execution from `s` answers a next state in which `p` holds. -/
def after (i : Instr) (s : State) (p : State → Bool) : Bool := isNext (exec i s) && p (nextOr s (exec i s))

/-- One step from `s` answers a next state in which `p` holds. -/
def afterStep (s : State) (p : State → Bool) : Bool := isNext (step s) && p (nextOr s (step s))

/-- A block with small buffers and the 36 slots of a 3 × 4 grid. -/
def smallParams : Params := { Params.chosen with msgMax := 4, bitMax := 64, textMax := 64, gridBytesMax := 36 }

def small : State := { State.reset with params := smallParams }

/-- "AB" loaded, and a grid of `r` rows and `c` columns. -/
def abIn (r c : BitVec 16) : State := { small with msg := [(0, 0x41#32), (1, 0x42#32)], msgLen := 2, rows := r, cols := c }

/-- A stream of up to 32 bits loaded. -/
def withStream (w : Word) (n : Nat) (s : State) : State := { s with bitw := [(0, w)], bitLen := n }

/-- The tree of "AB#" (41_huffman.md R146): A = 10, B = 11, # = 0. -/
def abTree : TreeStore where
  nodes := [.leaf 1 (symsOf 0x41#8) 0x41#8, .leaf 1 (symsOf 0x42#8) 0x42#8, .leaf 1 (symsOf 0x23#8) 0x23#8,
    .internal 2 (symsOf 0x41#8 ||| symsOf 0x42#8) 0 1,
    .internal 3 (symsOf 0x23#8 ||| (symsOf 0x41#8 ||| symsOf 0x42#8)) 2 3]
  root := 4

def withAbTree (s : State) : State := { s with tree := abTree, treeValid := true }

/-- Pixel memory `n` bytes long, byte `a` holding `f a`. -/
def pixOf (n : Nat) (f : Nat → Byte) : Memory := ((List.range n).map fun a => (a, f a)).filter fun c => c.2 != unlistedByte

/-- A command latched, the engine alone to move. -/
def pendingWith (w : Word) (s : State) : State := { s with pending := true, latched := w }

/-- No command pending, the host to make one access. -/
def hostDoes (op : HostOp) : State := { small with hostOps := [op] }

/-- A command pending, the host to make one access before the engine moves. -/
def hostDoesBusy (op : HostOp) : State := { small with pending := true, hostOps := [op], turns := [.host] }

theorem hostTurn_hostDoes (op : HostOp) : HostTurn (hostDoes op) op := ⟨rfl, rfl, .inl rfl⟩
theorem hostTurn_hostDoesBusy (op : HostOp) : HostTurn (hostDoesBusy op) op := ⟨rfl, rfl, .inr rfl⟩

/-! ### One-step tests on the spec's examples -/

/-- 40_codec_raw_caesar.md R109, example. -/
theorem test_encodeRaw : after .encodeRaw (abIn 0 0) (fun t =>
    t.bitLen == 24 && bufferRead t.bitw 0 == some 0x41422300#32 && t.err == .noError && !t.treeValid) = true := by decide +kernel
/-- R109, MSG_LEN = 0. -/
theorem test_encodeRaw_empty : after .encodeRaw small (fun t =>
    t.bitLen == 8 && bufferRead t.bitw 0 == some 0x23000000#32) = true := by decide +kernel
/-- R110, example. -/
theorem test_encodeCaesar : after .encodeCaesar (abIn 0 0) (fun t =>
    t.bitLen == 24 && bufferRead t.bitw 0 == some 0x44452600#32) = true := by decide +kernel
/-- R110, the wrap: 0xFF with SHIFT = 3 becomes 0x02. -/
theorem test_encodeCaesar_wraps : after .encodeCaesar { small with msg := [(0, 0xFF#32)], msgLen := 1 } (fun t =>
    bufferRead t.bitw 0 == some 0x02260000#32) = true := by decide +kernel
/-- 41_huffman.md R146, example. -/
theorem test_encodeHuff : after .encodeHuff (abIn 0 0) (fun t =>
    t.bitLen == 5 && bufferRead t.bitw 0 == some 0xB0000000#32 && t.treeValid && t.treeInfo == 0x00020003#32) = true := by
  decide +kernel
/-- 41_huffman.md R131, R133: the tree of "AB#" under both leaf orders, one of them that of the example of R146. -/
theorem test_buildTree : buildTree .firstOccurrence [0x41#8, 0x42#8, 0x23#8] = abTree ∧
    findCode (buildTree .ascendingSymbol [0x41#8, 0x42#8, 0x23#8]) 0x42#8 = some [false] := by decide +kernel
/-- R111, example. -/
theorem test_decodeRaw : after .decodeRaw (withStream 0x41422300#32 24 small) (fun t =>
    t.textLen == 2 && t.decPos == 24 && t.delim && bufferRead t.text 0 == some 0x41#32 &&
      bufferRead t.text 1 == some 0x42#32) = true := by decide +kernel
/-- R111, BIT_LEN not a multiple of 8: the partial chunk is dropped, and no error. -/
theorem test_decodeRaw_partial : after .decodeRaw (withStream 0x41200000#32 12 small) (fun t =>
    t.textLen == 1 && t.decPos == 8 && !t.delim && t.err == .noError) = true := by decide +kernel
/-- R112, example. -/
theorem test_decodeCaesar : after .decodeCaesar (withStream 0x44452600#32 24 small) (fun t =>
    t.textLen == 2 && t.decPos == 24 && t.delim && bufferRead t.text 1 == some 0x42#32) = true := by decide +kernel
/-- 90_conflicts.md C4: "A B" with shift 3 decodes to "A". -/
theorem test_decodeCaesar_clash : after .decodeCaesar (withStream 0x44234526#32 32 small) (fun t =>
    t.textLen == 1 && t.decPos == 16 && t.delim) = true := by decide +kernel
/-- R147, example. -/
theorem test_decodeHuff : after .decodeHuff (withAbTree (withStream 0xB0000000#32 5 small)) (fun t =>
    t.textLen == 2 && t.decPos == 5 && t.delim && bufferRead t.text 0 == some 0x41#32) = true := by decide +kernel
/-- R147: TREE_VALID = 1 and BIT_LEN = 0 is TRUNCATED. -/
theorem test_decodeHuff_truncated : after .decodeHuff (withAbTree small) (fun t => t.err == .truncated) = true := by
  decide +kernel
/-- 42_embedder.md R176, example: byte `i` holds 0x10 + i before. -/
theorem test_write : after .write (withStream 0x41422300#32 24
      { abIn 3 4 with pix := pixOf 36 fun a => BitVec.ofNat 8 (0x10 + a) }) (fun t =>
    memRead t.pix 0 == 0x10#8 && memRead t.pix 1 == 0x11#8 && memRead t.pix 3 == 0x12#8 && memRead t.pix 23 == 0x27#8 &&
      memRead t.pix 24 == 0x28#8 && memRead t.pix 35 == 0x33#8 && t.err == .noError) = true := by decide +kernel
/-- R176, 90_conflicts.md C2: four bits into 12 slots is CAPACITY under MARGIN. -/
theorem test_write_capacity : after .write (withStream 0xB0000000#32 4 { small with rows := 2, cols := 2 }) (fun t =>
    t.err == .capacity && t.pix == []) = true := by decide +kernel
/-- R177, example. -/
theorem test_readall : after .readall { small with rows := 2, cols := 3, pix := pixOf 36 fun a => if a = 1 ∨ a = 4 then 0xFE#8 else 0xFF#8 }
    (fun t => t.bitLen == 18 && bufferRead t.bitw 0 == some 0xB7FFC000#32) = true := by decide +kernel
/-- R175: 4 × 4 × 3 = 48 slots in a memory of 36 bytes is GEOMETRY. -/
theorem test_readall_geometry : after .readall { small with rows := 4, cols := 4 } (fun t => t.err == .geometry) = true := by
  decide +kernel
/-- 43_session.md R191, example: slots 0..23 take 010000010100001000100011. -/
theorem test_embedRaw : after .embedRaw { abIn 3 4 with pix := pixOf 36 fun _ => 0xFF#8 } (fun t =>
    readLsbs t.pix 24 == [false, true, false, false, false, false, false, true, false, true, false, false, false, false, true, false,
      false, false, true, false, false, false, true, true] && memRead t.pix 24 == 0xFF#8 && t.err == .noError) = true := by
  decide +kernel
/-- R192, example: slots 0..23 take 0x44, 0x45, 0x26. -/
theorem test_embedCaesar : after .embedCaesar { abIn 3 4 with pix := pixOf 36 fun _ => 0xFF#8 } (fun t =>
    readLsbs t.pix 24 == bin8 0x44#8 ++ bin8 0x45#8 ++ bin8 0x26#8 && memRead t.pix 24 == 0xFF#8) = true := by decide +kernel
/-- R193, example: bytes 0..4 become FF FE FF FF FE. -/
theorem test_embedHuff : after .embedHuff { abIn 2 3 with pix := pixOf 36 fun _ => 0xFF#8 } (fun t =>
    (List.range 6).map (memRead t.pix) == [0xFF#8, 0xFE#8, 0xFF#8, 0xFF#8, 0xFE#8, 0xFF#8] && t.treeValid) = true := by
  decide +kernel
/-- R193: a CAPACITY error leaves the new tree and the new stream. -/
theorem test_embedHuff_capacity : after .embedHuff (abIn 2 2) (fun t =>
    t.err == .capacity && t.treeValid && t.bitLen == 5 && t.pix == []) = true := by decide +kernel
/-- The 3 × 4 grid of 0xFF bytes with a stream in its first LSBs. -/
def gridWith (bits : List Bool) : State :=
  { small with rows := 3, cols := 4, pix := pixOf 36 fun a => if bits.getD a true then 0xFF#8 else 0xFE#8 }

/-- R195, example. -/
theorem test_extractRaw : after .extractRaw (gridWith (rawEncode [0x41#8, 0x42#8, 0x23#8])) (fun t =>
    t.textLen == 2 && t.decPos == 24 && t.delim && t.bitLen == 36 && bufferRead t.text 1 == some 0x42#32) = true := by
  decide +kernel
/-- R196, example. -/
theorem test_extractCaesar : after .extractCaesar (gridWith (rawEncode [0x44#8, 0x45#8, 0x26#8])) (fun t =>
    t.textLen == 2 && t.decPos == 24 && t.delim && bufferRead t.text 0 == some 0x41#32) = true := by decide +kernel
/-- R197, example. -/
theorem test_extractHuff : after .extractHuff (withAbTree (gridWith [true, false, true, true, false])) (fun t =>
    t.textLen == 2 && t.decPos == 5 && t.delim) = true := by decide +kernel
/-- R197: SESSION is raised after the read stage. -/
theorem test_extractHuff_session : after .extractHuff (gridWith []) (fun t =>
    t.err == .session && t.bitLen == 36 && t.textLen == 0) = true := by decide +kernel
/-- R198, example. -/
theorem test_newsession : after .newsession (withAbTree small) (fun t => !t.treeValid && t.err == .noError && t.done) = true := by
  decide +kernel
/-- R87, example. -/
theorem test_illegal : afterStep (pendingWith 0x00000000#32 (withAbTree small)) (fun t =>
    t.err == .illegalCmd && t.treeValid && t.done && !t.pending) = true := by decide +kernel
/-- 10_state.md R48: an unwritten message entry faults; the fault state then stands (60_exceptions.md R222). -/
theorem test_unwritten : afterStep (pendingWith 0x00000001#32 { small with msgLen := 1 }) (fun t =>
    t.faulted == some .unwrittenRead && t.pending && !t.done) = true := by decide +kernel
/-- 30_encoding.md R92: `run NEWSESSION` is a CMD write, then a poll. -/
theorem test_pseudo_run : Pseudo.expand smallParams (.run 0x00000007#32) = [.busWrite 32 0 0x00000007#32, .poll] := by decide
/-- R92: `ldbits "10110"` and `shift -3`. -/
theorem test_pseudo_ldbits : Pseudo.expand smallParams (.ldbits [true, false, true, true, false]) =
      [.busWrite 32 0x200000 0xB0000000#32, .busWrite 32 0x10 5#32] ∧
    Pseudo.expand smallParams (.shift (-3)) = [.busWrite 32 8 253#32] := by decide +kernel
/-- `withFetchWord`: the very next step runs the command. -/
theorem test_withFetchWord : afterStep (State.reset.withFetchWord 32 0x07) (fun t => t.done && t.err == .noError) = true := by
  decide +kernel

/-! ### Witnesses: for each statement with hypotheses, inputs that meet them together -/

/-- The engine's turn with ENCODE.RAW latched completes; with an unwritten entry it faults; an idle state is idle. -/
theorem witness_StepRunsDecodedCommand :
    (EngineTurn (pendingWith 0x00000001#32 small) ∧ decode (pendingWith 0x00000001#32 small).latched = .ok .encodeRaw ∧
      isNext (exec .encodeRaw (engineStart (pendingWith 0x00000001#32 small))) = true) ∧
    (EngineTurn (pendingWith 0x00000001#32 { small with msgLen := 1 }) ∧
      exec .encodeRaw (engineStart (pendingWith 0x00000001#32 { small with msgLen := 1 })) = .fault .unwrittenRead) ∧
    small.faulted = none ∧ small.pending = false ∧ small.hostOps = [] :=
  ⟨⟨⟨rfl, rfl, .inl rfl⟩, by decide, by decide +kernel⟩, ⟨⟨rfl, rfl, .inl rfl⟩, rfl⟩, rfl, rfl, rfl⟩

/-- Both outcomes of a choice: the host has an access to make and the engine moves first. -/
theorem witness_EngineTurn_with_host_access :
    EngineTurn { pendingWith 0x00000007#32 small with hostOps := [.poll], turns := [.engine, .host] } ∧
    EngineTurn { pendingWith 0x00000007#32 small with hostOps := [.poll], turns := [] } :=
  ⟨⟨rfl, rfl, .inr (by decide)⟩, ⟨rfl, rfl, .inr (by decide)⟩⟩

theorem witness_IllegalWordCompletesWithIllegalCmd :
    EngineTurn (pendingWith 0x00000008#32 small) ∧ legalWord (pendingWith 0x00000008#32 small).latched = false :=
  ⟨⟨rfl, rfl, .inl rfl⟩, by decide⟩

theorem witness_CommandWriteAcceptedOrDropped :
    HostTurn (hostDoes (.busWrite 32 0 0x7#32)) (.busWrite 32 0 0x7#32) ∧
    HostTurn (hostDoesBusy (.busWrite 32 0 0x7#32)) (.busWrite 32 0 0x7#32) ∧
    (hostDoesBusy (.busWrite 32 0 0x7#32)).pending = true ∧ small.params.blockBase = 0 :=
  ⟨hostTurn_hostDoes _, hostTurn_hostDoesBusy _, rfl, rfl⟩

theorem witness_BusyHostChangesOnlyOvr :
    HostTurn (hostDoesBusy (.busWrite 32 4 0x8#32)) (.busWrite 32 4 0x8#32) ∧ (.busWrite 32 4 0x8#32 : HostOp) ≠ .reset ∧
    (hostDoesBusy (.busWrite 32 4 0x8#32)).pending = true ∧ isNext (step (hostDoesBusy (.busWrite 32 4 0x8#32))) = true :=
  ⟨hostTurn_hostDoesBusy _, by decide, rfl, by decide +kernel⟩

/-- Set, cleared by the write, cleared by reset, and steps that clear it. -/
theorem witness_OvrIsSticky :
    (HostTurn (hostDoesBusy (.busWrite 32 0 0#32)) (.busWrite 32 0 0#32) ∧ (hostDoesBusy (.busWrite 32 0 0#32)).pending = true) ∧
    (HostTurn (hostDoes (.busWrite 32 4 0x8#32)) (.busWrite 32 4 0x8#32) ∧ (0x8#32).getLsbD 3 = true) ∧
    (ResetTurn (hostDoes .reset) ∧ ResetTurn { hostDoes .reset with faulted := some .unwrittenRead }) ∧
    afterStep { hostDoes (.busWrite 32 4 0x8#32) with ovr := true } (fun t => !t.ovr) = true ∧
    afterStep { hostDoes .reset with ovr := true } (fun t => !t.ovr) = true :=
  ⟨⟨hostTurn_hostDoesBusy _, rfl⟩, ⟨hostTurn_hostDoes _, by decide⟩, ⟨.inl (hostTurn_hostDoes _), .inr (by decide)⟩,
    by decide +kernel, by decide +kernel⟩

theorem witness_StatusFieldsAndWrite : HostTurn (hostDoes (.busWrite 32 4 0xFFFFFFF7#32)) (.busWrite 32 4 0xFFFFFFF7#32) :=
  hostTurn_hostDoes _

theorem witness_PollingReachesTheEngineStep :
    ({ hostDoesBusy .poll with turns := [.host, .host, .engine] } : State).faulted = none ∧
    ({ hostDoesBusy .poll with turns := [.host, .host, .engine] } : State).pending = true ∧
    ({ hostDoesBusy .poll with turns := [.host, .host, .engine] } : State).hostOps = .poll :: [] := ⟨rfl, rfl, rfl⟩

/-- Each clause, at the highest value kept and the first one discarded. -/
theorem witness_RegisterWritesKeepLegalValues :
    (∀ op, (hostDoes op).pending = false) ∧
    HostTurn (hostDoes (.busWrite 32 0x8 0x1FF#32)) (.busWrite 32 0x8 0x1FF#32) ∧
    HostTurn (hostDoes (.busWrite 32 0x1C 0x1FFFF#32)) (.busWrite 32 0x1C 0x1FFFF#32) ∧
    HostTurn (hostDoes (.busWrite 32 0x20 0xFFFF#32)) (.busWrite 32 0x20 0xFFFF#32) ∧
    HostTurn (hostDoes (.busWrite 32 0xC 4#32)) (.busWrite 32 0xC 4#32) ∧
    HostTurn (hostDoes (.busWrite 32 0xC 5#32)) (.busWrite 32 0xC 5#32) ∧
    HostTurn (hostDoes (.busWrite 32 0x10 64#32)) (.busWrite 32 0x10 64#32) ∧
    HostTurn (hostDoes (.busWrite 32 0x10 65#32)) (.busWrite 32 0x10 65#32) ∧
    (∀ off ∈ [0x14, 0x18, 0x24], HostTurn (hostDoes (.busWrite 32 off 1#32)) (.busWrite 32 off 1#32)) ∧
    ParamsLegal small ∧ 63 < small.params.textMax ∧
    HostTurn (hostDoes (.busWrite 32 (0x300000 + 4 * 63) 1#32)) (.busWrite 32 (0x300000 + 4 * 63) 1#32) :=
  ⟨fun _ => rfl, hostTurn_hostDoes _, hostTurn_hostDoes _, hostTurn_hostDoes _, hostTurn_hostDoes _, hostTurn_hostDoes _,
    hostTurn_hostDoes _, hostTurn_hostDoes _, fun _ _ => hostTurn_hostDoes _, by unfold ParamsLegal; decide, by decide,
    hostTurn_hostDoes _⟩

/-- The effects at those values: kept at the depth, discarded above it. -/
theorem test_lengths_write_any_read_legal :
    afterStep (hostDoes (.busWrite 32 0xC 4#32)) (fun t => t.msgLen == 4) = true ∧
    afterStep (hostDoes (.busWrite 32 0xC 5#32)) (fun t => t.msgLen == 0) = true ∧
    afterStep (hostDoes (.busWrite 32 0x10 65#32)) (fun t => t.bitLen == 0) = true := by decide +kernel

theorem witness_RegisterReadsReturnTheirValues :
    (hostDoes (.busRead 32 0x24)).pending = false ∧
    (∀ off ∈ [0x0, 0x4, 0x8, 0xC, 0x10, 0x14, 0x18, 0x1C, 0x20, 0x24], HostTurn (hostDoes (.busRead 32 off)) (.busRead 32 off)) :=
  ⟨rfl, fun _ _ => hostTurn_hostDoes _⟩

/-- A written and an unwritten entry of each buffer, at the last index. -/
theorem witness_BufferReadsReturnOrFault :
    ParamsLegal small ∧ small.pending = false ∧ 3 < small.params.msgMax ∧ 1 < (small.params.bitMax + 31) / 32 ∧
    63 < small.params.textMax ∧
    HostTurn (hostDoes (.busRead 32 (0x100000 + 4 * 3))) (.busRead 32 (0x100000 + 4 * 3)) ∧
    HostTurn (hostDoes (.busRead 32 (0x200000 + 4 * 1))) (.busRead 32 (0x200000 + 4 * 1)) ∧
    HostTurn (hostDoes (.busRead 32 (0x300000 + 4 * 63))) (.busRead 32 (0x300000 + 4 * 63)) ∧
    bufferRead ({ small with msg := [(3, 7#32)] } : State).msg 3 = some 7#32 ∧ bufferRead small.msg 3 = none ∧
    bufferRead small.bitw 1 = none ∧ bufferRead small.text 63 = none ∧
    bufferRead ({ small with bitw := [(1, 7#32)] } : State).bitw 1 = some 7#32 ∧
    bufferRead ({ small with text := [(63, 7#32)] } : State).text 63 = some 7#32 :=
  ⟨by unfold ParamsLegal; decide, rfl, by decide, by decide, by decide, hostTurn_hostDoes _, hostTurn_hostDoes _,
    hostTurn_hostDoes _, rfl, rfl, rfl, rfl, rfl, rfl⟩

theorem witness_BufferWriteThenRead :
    ParamsLegal small ∧ small.pending = false ∧ 3 < small.params.msgMax ∧ 1 < (small.params.bitMax + 31) / 32 ∧
    HostTurn (hostDoes (.busWrite 32 (0x100000 + 4 * 3) 7#32)) (.busWrite 32 (0x100000 + 4 * 3) 7#32) ∧
    HostTurn (hostDoes (.busWrite 32 (0x200000 + 4 * 1) 7#32)) (.busWrite 32 (0x200000 + 4 * 1) 7#32) :=
  ⟨by unfold ParamsLegal; decide, rfl, by decide, by decide, hostTurn_hostDoes _, hostTurn_hostDoes _⟩

theorem witness_HostReadHasNoSideEffect :
    (HostTurn (hostDoes (.busRead 32 4)) (.busRead 32 4) ∧ isNext (step (hostDoes (.busRead 32 4))) = true) ∧
    (HostTurn (hostDoes (.pixRead 35)) (.pixRead 35) ∧ isNext (step (hostDoes (.pixRead 35))) = true) ∧
    (HostTurn (hostDoesBusy .poll) .poll ∧ isNext (step (hostDoesBusy .poll)) = true) :=
  ⟨⟨hostTurn_hostDoes _, by decide +kernel⟩, ⟨hostTurn_hostDoes _, by decide +kernel⟩,
    ⟨hostTurn_hostDoesBusy _, by decide +kernel⟩⟩

/-- Each kind of bad access, at the ends of its range. -/
theorem witness_BadWindowAccessIsBusError :
    (∀ p ∈ [(16, 0x4), (32, 0x6), (32, 0x28), (32, 0xFFFFC), (32, 0x100010), (32, 0x1FFFFC), (32, 0x200008), (32, 0x2FFFFC),
        (32, 0x300100), (32, 0x3FFFFC)],
      p.2 < 0x400000 ∧ (p.1 ≠ 32 ∨ p.2 % 4 ≠ 0 ∨ (0x28 ≤ p.2 ∧ p.2 < 0x100000) ∨
        (0x100000 + 4 * small.params.msgMax ≤ p.2 ∧ p.2 < 0x200000) ∨
        (0x200000 + 4 * ((small.params.bitMax + 31) / 32) ≤ p.2 ∧ p.2 < 0x300000) ∨ 0x300000 + 4 * small.params.textMax ≤ p.2)) ∧
    ∀ w a, HostTurn (hostDoes (.busRead w a)) (.busRead w a) ∧ HostTurn (hostDoes (.busWrite w a 0#32)) (.busWrite w a 0#32) ∧
      (hostDoes (.busRead w a)).pending = false :=
  ⟨by decide, fun _ _ => ⟨hostTurn_hostDoes _, hostTurn_hostDoes _, rfl⟩⟩

/-- The accesses next to those ranges are none. -/
theorem test_window_edges :
    busTarget smallParams 32 0x24 = .reg .treeInfo ∧ busTarget smallParams 32 0x28 = .busError ∧
    busTarget smallParams 32 0x10000C = .reg (.msg 3) ∧ busTarget smallParams 32 0x200004 = .reg (.bitw 1) ∧
    busTarget smallParams 32 0x3000FC = .reg (.text 63) ∧ busTarget smallParams 32 0x400000 = .outside ∧
    busTarget { smallParams with blockBase := 0x1000 } 32 0xFFC = .outside := by decide

theorem witness_BusyAccessIsHazard :
    ParamsLegal small ∧ (hostDoesBusy (.pixRead 35)).pending = true ∧
    (WindowReg.config.exists smallParams = true ∧ WindowReg.config ≠ .status ∧ WindowReg.config ≠ .cmd) ∧
    ((WindowReg.text 63).exists smallParams = true ∧ WindowReg.text 63 ≠ .status ∧ WindowReg.text 63 ≠ .cmd) ∧
    35 < smallParams.gridBytesMax ∧
    ∀ op, HostTurn (hostDoesBusy op) op :=
  ⟨by unfold ParamsLegal; decide, rfl, by decide, by decide, by decide, hostTurn_hostDoesBusy⟩

theorem witness_HostPixelReadsAndWrites :
    small.pending = false ∧ 35 < small.params.gridBytesMax ∧ HostTurn (hostDoes (.pixRead 35)) (.pixRead 35) ∧
    HostTurn (hostDoes (.pixWrite 35 0xFF#8)) (.pixWrite 35 0xFF#8) :=
  ⟨rfl, by decide, hostTurn_hostDoes _, hostTurn_hostDoes _⟩

theorem witness_FaultStateLeftOnlyByReset :
    ({ hostDoes .poll with faulted := some .hostHazard } : State).faulted = some .hostHazard ∧
    (hostDoes .poll).hostOps.head? ≠ some .reset ∧ (hostDoes .reset).hostOps.head? = some .reset := by decide

theorem witness_ResetAction :
    HostTurn (hostDoes .reset) .reset ∧ HostTurn (hostDoesBusy .reset) .reset ∧
    ({ hostDoes .reset with faulted := some .unwrittenRead } : State).faulted ≠ none ∧
    ({ hostDoes .reset with faulted := some .unwrittenRead } : State).hostOps.head? = some .reset :=
  ⟨hostTurn_hostDoes _, hostTurn_hostDoesBusy _, by decide, rfl⟩

theorem witness_FirstCommandsAfterReset :
    small = { State.reset with params := smallParams, pix := [] } ∧ smallParams.rawPolicy = .returnText ∧
    ({ smallParams with rawPolicy := .raiseTruncated } : Params).rawPolicy = .raiseTruncated ∧
    smallParams.capacityRule = .marginRule ∧ 8 ≤ smallParams.bitMax ∧
    1 ≤ ({ smallParams with bitMax := 1 } : Params).bitMax := ⟨rfl, rfl, rfl, rfl, by decide, by decide⟩

theorem witness_RawEncodeBits : (0 : Nat) < [0x41#8].length ∧ 7 < 8 := by decide

theorem witness_RawRoundTrip : delimSym ∉ [0x41#8, 0x42#8] := by decide

theorem witness_CaesarRoundTrip : delimSym ∉ [0x41#8, 0x42#8] ∧ shiftDown delimSym 3#8 ∉ [0x41#8, 0x42#8] := by decide

theorem witness_CaesarDecodeStopsAtClash : delimSym ∉ [0x41#8] ∧ shiftDown delimSym 3#8 ∉ [0x41#8] := by decide

theorem witness_BuiltTreeIsSound : delimSym ∈ [0x41#8, 0x42#8, 0x23#8] ∧
    0 < (leafOrder .firstOccurrence [0x41#8, 0x42#8, 0x23#8]).length ∧
    1 + 1 < (leafOrder .firstOccurrence [0x41#8, 0x42#8, 0x23#8]).length := by decide

/-- 41_huffman.md R133 on "AB#" by hand: A and B are merged first, then # and their parent. -/
theorem test_passList : passList abTree.nodes 3 0 = [0, 1, 2] ∧ passList abTree.nodes 3 1 = [2, 3] ∧
    passList abTree.nodes 3 2 = [4] := by decide +kernel

/-- 41_huffman.md R146, example: A = 10, B = 11, # = 0. -/
theorem test_followPath : followPath abTree.nodes 4 [true, false] = some 0 ∧ followPath abTree.nodes 4 [true, true] = some 1 ∧
    followPath abTree.nodes 4 [false] = some 2 := by decide +kernel

theorem witness_CodesArePrefixFree :
    0x41#8 ∈ [0x41#8, 0x42#8, 0x23#8] ∧ 0x23#8 ∈ [0x41#8, 0x42#8, 0x23#8] ∧ 0x41#8 ≠ 0x23#8 ∧
    findCode (buildTree .firstOccurrence [0x41#8, 0x42#8, 0x23#8]) 0x41#8 = some [true, false] ∧
    findCode (buildTree .firstOccurrence [0x41#8, 0x42#8, 0x23#8]) 0x23#8 = some [false] := by decide +kernel

/-- One leaf, and two. -/
theorem witness_HuffmanCodesExistAndAreBounded : [0x23#8] ≠ [] ∧ [0x41#8, 0x23#8] ≠ [] ∧
    2 ≤ (leafOrder .firstOccurrence [0x41#8, 0x23#8]).length ∧ 0x41#8 ∈ [0x41#8, 0x23#8] := by decide

theorem witness_OneLeafTreeUsesOneBit : ∀ c ∈ [0x23#8, 0x23#8], c = delimSym := by decide

theorem witness_TreeInfoDescribesTheTree :
    small.treeValid = false ∧ (withAbTree small).treeValid = true ∧ [0x41#8, 0x42#8, 0x23#8] ≠ [] ∧
    (withAbTree small).tree = buildTree .firstOccurrence [0x41#8, 0x42#8, 0x23#8] := by decide +kernel

theorem holdsStream_five : HoldsStream (withStream 0xB0000000#32 5 small) [true, false, true, true, false] :=
  ⟨rfl, by decide +kernel⟩

/-- With nothing after the stream, and with something after it, under either bound. -/
theorem witness_HuffmanRoundTrip :
    delimSym ∉ [0x41#8, 0x42#8] ∧ (withAbTree (withStream 0xB0000000#32 5 small)).treeValid = true ∧
    huffEncode small.params.leafOrder ([0x41#8, 0x42#8] ++ [delimSym]) = some (abTree, [true, false, true, true, false]) ∧
    HoldsStream (withAbTree (withStream 0xB0000000#32 5 small)) ([true, false, true, true, false] ++ []) ∧
    HoldsStream (withAbTree (withStream 0xB0000000#32 6 small)) ([true, false, true, true, false] ++ [false]) ∧
    small.params.huffBound = .allBits ∧
    ({ small with params := { smallParams with huffBound := .allButLast } } : State).params.huffBound = .allButLast :=
  ⟨by decide, rfl, by decide +kernel, ⟨rfl, by decide +kernel⟩, ⟨rfl, by decide +kernel⟩, rfl, rfl⟩

theorem holdsMessage_ab (r c : BitVec 16) : HoldsMessage (abIn r c) [0x41#8, 0x42#8] :=
  ⟨rfl, by
    intro k h
    match k, h with
    | 0, _ => rfl
    | 1, _ => rfl⟩

theorem witness_EncodeFixedWidthResult :
    HoldsMessage (abIn 3 4) [0x41#8, 0x42#8] ∧ 8 * ([0x41#8, 0x42#8].length + 1) ≤ (abIn 3 4).params.bitMax :=
  ⟨holdsMessage_ab 3 4, by decide⟩

theorem witness_EncodeHuffResult :
    HoldsMessage (abIn 3 4) [0x41#8, 0x42#8] ∧
    ([0x41#8, 0x42#8] ++ [0x23#8]).map (findCode (buildTree (abIn 3 4).params.leafOrder ([0x41#8, 0x42#8] ++ [0x23#8]))) =
      [[true, false], [true, true], [false]].map some ∧
    [[true, false], [true, true], [false]].flatten.length ≤ (abIn 3 4).params.bitMax ∧
    HoldsMessage { abIn 3 4 with params := Params.chosen } [0x41#8, 0x42#8] ∧
    255 * ([0x41#8, 0x42#8].length + 1) ≤ Params.chosen.bitMax :=
  ⟨holdsMessage_ab 3 4, by decide +kernel, by decide, holdsMessage_ab 3 4, by decide⟩

/-- The three stops: an unwritten entry; entries 256 and 255; a stream longer than the bit buffer. -/
theorem witness_EncodeStageStops :
    (∃ k, k < ({ small with msgLen := 1 } : State).msgLen ∧ bufferRead ({ small with msgLen := 1 } : State).msg k = none) ∧
    ((∀ k, k < 1 → ∃ w, bufferRead [(0, 256#32)] k = some w) ∧
      ∃ k w, k < 1 ∧ bufferRead [(0, 256#32)] k = some w ∧ 255 < w.toNat) ∧
    (HoldsMessage { abIn 3 4 with params := { smallParams with bitMax := 23 } } [0x41#8, 0x42#8] ∧
      23 < 8 * ([0x41#8, 0x42#8].length + 1)) ∧
    HoldsMessage { abIn 3 4 with params := { smallParams with bitMax := 4 } } [0x41#8, 0x42#8] ∧
    huffEncode smallParams.leafOrder ([0x41#8, 0x42#8] ++ [0x23#8]) = some (abTree, [true, false, true, true, false]) ∧
    4 < [true, false, true, true, false].length :=
  ⟨⟨0, by decide, rfl⟩, ⟨fun k h => ⟨256#32, by rw [Nat.lt_one_iff.mp h]; rfl⟩, 0, 256#32, by decide, rfl, by decide⟩,
    ⟨holdsMessage_ab 3 4, by decide⟩, holdsMessage_ab 3 4, by decide +kernel, by decide⟩

theorem test_entry_255_is_a_symbol :
    after .encodeRaw { small with msg := [(0, 255#32)], msgLen := 1 } (fun t => t.err == .noError) = true ∧
    after .encodeRaw { small with msg := [(0, 256#32)], msgLen := 1 } (fun t => t.err == .format) = true := by decide +kernel

/-- A stream whose delimiter is found, and one without delimiter read to its last complete chunk, under each policy. -/
theorem witness_DecodeFixedWidthResult :
    (StreamStarts (withStream 0x41422300#32 24 small) (rawEncode [0x41#8, 0x42#8, 0x23#8]) ∧
      (rawDecode (rawEncode [0x41#8, 0x42#8, 0x23#8])).found = true) ∧
    (StreamStarts (withStream 0x41200000#32 12 small) (rawEncode [0x41#8]) ∧
      (withStream 0x41200000#32 12 small).bitLen / 8 ≤ (rawEncode [0x41#8]).length / 8 ∧
      (rawDecode (rawEncode [0x41#8])).found = false ∧ (caesarDecode (rawEncode [0x41#8]) 3#8).found = false ∧
      small.params.rawPolicy = .returnText ∧
      ({ smallParams with rawPolicy := .raiseTruncated } : Params).rawPolicy = .raiseTruncated) :=
  ⟨⟨⟨by decide +kernel, by decide +kernel⟩, by decide +kernel⟩,
    ⟨by decide +kernel, by decide +kernel⟩, by decide +kernel, by decide +kernel, by decide +kernel, rfl, rfl⟩

theorem witness_DecodeHuffResult :
    small.treeValid = false ∧
    ((withAbTree (withStream 0xB0000000#32 5 small)).treeValid = true ∧
      StreamStarts (withAbTree (withStream 0xB0000000#32 5 small)) [true, false, true, true, false] ∧
      5 ≤ decodeBound small.params.huffBound 5 ∧
      huffWalk abTree abTree.root 0 [true, false, true, true, false] =
        some { out := [0x41#8, 0x42#8], found := true, pos := 5 }) ∧
    (StreamStarts (withAbTree (withStream 0xB0000000#32 4 small)) [true, false, true, true] ∧
      4 = decodeBound small.params.huffBound 4 ∧
      (huffWalk abTree abTree.root 0 [true, false, true, true]).map Decoded.found = some false) :=
  ⟨rfl, ⟨rfl, ⟨by decide +kernel, by decide +kernel⟩, by decide, by decide +kernel⟩,
    ⟨by decide +kernel, by decide +kernel⟩, by decide, by decide +kernel⟩

/-- BIT_LEN = 40 with only BITW[0] written. -/
theorem witness_DecodeFaultsOnConsumedUnwrittenBit :
    StreamStarts (withAbTree (withStream 0xAAAAAAAA#32 40 small)) (rawEncode [0xAA#8, 0xAA#8, 0xAA#8, 0xAA#8]) ∧
    (rawEncode [0xAA#8, 0xAA#8, 0xAA#8, 0xAA#8]).length < 40 ∧
    (withStream 0xAAAAAAAA#32 40 small).streamBit (rawEncode [0xAA#8, 0xAA#8, 0xAA#8, 0xAA#8]).length = none ∧
    (rawDecode (rawEncode [0xAA#8, 0xAA#8, 0xAA#8, 0xAA#8])).found = false ∧
    (rawEncode [0xAA#8, 0xAA#8, 0xAA#8, 0xAA#8]).length / 8 < 40 / 8 ∧
    (rawEncode [0xAA#8, 0xAA#8, 0xAA#8, 0xAA#8]).length < decodeBound small.params.huffBound 40 ∧
    (huffWalk abTree abTree.root 0 (rawEncode [0xAA#8, 0xAA#8, 0xAA#8, 0xAA#8])).map Decoded.found = some false :=
  ⟨⟨by decide +kernel, by decide +kernel⟩, by decide +kernel, by decide +kernel, by decide +kernel, by decide +kernel,
    by decide +kernel, by decide +kernel⟩

theorem witness_WriteResult :
    ({ small with rows := 4, cols := 4 } : State).params.gridBytesMax < ({ small with rows := 4, cols := 4 } : State).capacity ∧
    (GridInMemory (abIn 2 2) ∧ fits (abIn 2 2).params.capacityRule 4 (abIn 2 2).capacity = false) ∧
    (GridInMemory (abIn 3 4) ∧ fits (abIn 3 4).params.capacityRule 24 (abIn 3 4).capacity = true) ∧
    (∃ j, j < 24 ∧ ({ abIn 3 4 with bitLen := 24 } : State).streamBit j = none) ∧
    HoldsStream (withStream 0x41422300#32 24 (abIn 3 4)) (rawEncode [0x41#8, 0x42#8, 0x23#8]) :=
  ⟨by decide, ⟨by unfold GridInMemory; decide, by decide⟩, ⟨by unfold GridInMemory; decide, by decide⟩, ⟨0, by decide, rfl⟩,
    rfl, by decide +kernel⟩

theorem witness_ReadAllResult :
    GridInMemory (abIn 3 4) ∧
    ({ small with rows := 4, cols := 4 } : State).params.gridBytesMax < ({ small with rows := 4, cols := 4 } : State).capacity :=
  ⟨by unfold GridInMemory; decide, by decide⟩

theorem witness_SlotIsPixelByte : 35 < 3 * 4 * 3 := by decide

theorem witness_CapacityCheckBounds : 16 ≤ 36 ∧ fits .marginRule 24 36 = true ∧ fits .marginRule 25 36 = false ∧ 12 < 16 ∧
    fits .exactRule 36 36 = true := by decide

/-- An embed that ends in CAPACITY, and one that succeeds. -/
theorem witness_PixelWritesAreAllOrNothing :
    Instr.embedHuff ∈ [Instr.write, .embedRaw, .embedCaesar, .embedHuff] ∧
    after .embedHuff (abIn 2 2) (fun t => t.err != .noError) = true ∧
    after .embedHuff (abIn 2 3) (fun t => t.err == .noError) = true := by decide +kernel

theorem witness_PackUnpackRoundTrip :
    ∃ t, exec .write (withStream 0x41422300#32 24 (abIn 3 4)) = .next t ∧ t.err = .noError ∧ PixelsKept t t ∧
      t.rows = (abIn 3 4).rows ∧ t.cols = (abIn 3 4).cols ∧ t.params = (abIn 3 4).params :=
  ⟨_, eq_next (d := small) (by decide +kernel), by decide +kernel, fun _ => rfl, by decide +kernel, by decide +kernel,
    by decide +kernel⟩

theorem witness_CompositesRunTheirStages :
    isNext (exec (encodeOf .huff) (abIn 3 4)) = true ∧
    exec (encodeOf .raw) { small with msgLen := 1 } = .fault .unwrittenRead ∧ isNext (exec .readall (abIn 3 4)) = true :=
  ⟨by decide +kernel, rfl, by decide +kernel⟩

theorem witness_EmbedResult :
    HoldsMessage (abIn 3 4) [0x41#8, 0x42#8] ∧ GridInMemory (abIn 3 4) ∧
    8 * ([0x41#8, 0x42#8].length + 1) ≤ (abIn 3 4).params.bitMax ∧
    fits (abIn 3 4).params.capacityRule (8 * ([0x41#8, 0x42#8].length + 1)) (abIn 3 4).capacity = true ∧
    huffEncode (abIn 3 4).params.leafOrder ([0x41#8, 0x42#8] ++ [0x23#8]) =
      some (abTree, [true, false, true, true, false]) ∧
    5 ≤ (abIn 3 4).params.bitMax ∧ fits (abIn 3 4).params.capacityRule 5 (abIn 3 4).capacity = true :=
  ⟨holdsMessage_ab 3 4, by unfold GridInMemory; decide, by decide, by decide, by decide +kernel, by decide, by decide⟩

theorem witness_ExtractResult :
    GridInMemory (gridWith []) ∧ (gridWith []).treeValid = false ∧ (withAbTree (gridWith [])).treeValid = true ∧
    (rawDecode (readLsbs (gridWith []).pix (gridWith []).capacity)).found = false ∧
    (huffWalk abTree abTree.root 0 ((readLsbs (gridWith []).pix (gridWith []).capacity).take
      (decodeBound small.params.huffBound (gridWith []).capacity))).map Decoded.found = some false ∧
    (huffWalk abTree abTree.root 0 ((readLsbs (gridWith [true, false, false]).pix (gridWith []).capacity).take
      (decodeBound small.params.huffBound (gridWith []).capacity))) =
        some { out := [0x41#8], found := true, pos := 3 } :=
  ⟨by unfold GridInMemory; decide, rfl, rfl, by decide +kernel, by decide +kernel, by decide +kernel⟩

theorem witness_EmbedExtractRoundTrip : ∀ k ∈ [Kind.raw, .caesar, .huff],
    HoldsMessage (abIn 3 4) [0x41#8, 0x42#8] ∧ 0x23#8 ∉ [0x41#8, 0x42#8] ∧
    (k = .caesar → (0x23#8 - (abIn 3 4).shift) ∉ [0x41#8, 0x42#8]) ∧
    (k = .huff → (abIn 3 4).params.huffBound = .allBits ∨ (abIn 3 4).params.capacityRule = .marginRule) ∧
    ∃ t, exec (embedOf k) (abIn 3 4) = .next t ∧ t.err = .noError ∧ PixelsKept t t ∧ TreeKept t t := by
  intro k hk
  refine ⟨holdsMessage_ab 3 4, by decide, fun _ => by decide, fun _ => .inl rfl, nextOr small (exec (embedOf k) (abIn 3 4)),
    eq_next ?_, ?_, fun _ => rfl, rfl, rfl⟩ <;> (revert k; decide +kernel)

theorem witness_NewSessionEndsTheSession :
    isNext (exec .newsession (withAbTree small)) = true ∧
    ∀ i ∈ [Instr.decodeRaw, .decodeCaesar, .extractRaw, .extractCaesar], isNext (exec i small) = true := by decide +kernel

theorem witness_CommandsWriteOnlyTheirColumn :
    ∀ i ∈ commandTable.map Prod.snd, isNext (exec i (withAbTree (withStream 0xB0000000#32 5 (abIn 3 4)))) = true := by
  decide +kernel

/-- Set by ENCODE.HUFF, cleared by NEWSESSION, cleared by reset. -/
theorem witness_TreeValidChangesOnlyByEncodeOrSession :
    afterStep (pendingWith 0x00000021#32 (abIn 3 4)) (fun t => t.treeValid != (abIn 3 4).treeValid) = true ∧
    afterStep (pendingWith 0x00000007#32 (withAbTree small)) (fun t => t.treeValid != true) = true ∧
    afterStep { withAbTree small with hostOps := [.reset] } (fun t => t.treeValid != true) = true := by decide +kernel

theorem witness_ErrorCodesByCommand :
    ∀ i ∈ commandTable.map Prod.snd, isNext (exec i (abIn 3 4)) = true := by decide +kernel

/-- The tree of "AB#" is sound (10_state.md R44). -/
theorem abTree_sound : TreeSound abTree where
  leaves_pos := by decide
  leaves_le := by decide
  nodes_count := by decide
  root_last := by decide
  syms_distinct := by decide +kernel
  node_sound := by
    intro i h
    match i, h with
    | 0, _ => exact ⟨by decide, by decide +kernel⟩
    | 1, _ => exact ⟨by decide, by decide +kernel⟩
    | 2, _ => exact ⟨by decide, by decide +kernel⟩
    | 3, _ => exact ⟨by decide, by decide, by decide, by decide +kernel, by decide +kernel⟩
    | 4, _ => exact ⟨by decide, by decide, by decide, by decide +kernel, by decide +kernel⟩
  one_parent := by decide
  has_delim := by decide +kernel

theorem witness_CommandsCompleteOrMeetUnwritten : TreeInv (withAbTree small) ∧ (withAbTree small).treeValid = true :=
  ⟨fun _ => abTree_sound, rfl⟩

theorem witness_StepKeepsTreeSound :
    TreeInv (pendingWith 0x00000021#32 (withAbTree (abIn 3 4))) ∧
    isNext (step (pendingWith 0x00000021#32 (withAbTree (abIn 3 4)))) = true := ⟨fun _ => abTree_sound, by decide +kernel⟩

theorem witness_StepKeepsStorage :
    StorageInv (pendingWith 0x00000015#32 (abIn 3 4)) ∧ isNext (step (pendingWith 0x00000015#32 (abIn 3 4))) = true :=
  ⟨⟨by unfold ParamsLegal; decide, by unfold LengthsInRange; decide, by unfold StorageCanonical; decide⟩, by decide +kernel⟩

theorem witness_StepKeepsLifecycle :
    LifecycleSound (pendingWith 0x00000002#32 (withStream 0x41422300#32 24 small)) ∧
    TextReadable (pendingWith 0x00000002#32 (withStream 0x41422300#32 24 small)) ∧
    isNext (step (pendingWith 0x00000002#32 (withStream 0x41422300#32 24 small))) = true :=
  ⟨by unfold LifecycleSound; decide, fun k h => absurd h (by exact Nat.not_lt_zero k), by decide +kernel⟩

end Sys2Proof.Tests
end

/-! Scope (00_scope.md): the fault state and its reset, the polling host, and the storage invariant. -/

namespace Sys2Proof.Machine

/-! ### The fault state (00_scope.md R11, 60_exceptions.md R222) -/

theorem step_of_faulted {s : State} {r : Fault} (h : s.faulted = some r) : step s = faultedStep r s := by
  simp [step, h]

theorem faultedStep_eq_fault {s : State} (r : Fault) (h : s.hostOps.head? ≠ some .reset) :
    faultedStep r s = .fault r := by
  unfold faultedStep
  split
  · next rest ho => exact absurd (by rw [ho, List.head?_cons]) h
  · rfl

/-- Settles O19: with no reset first in the list the fault state answers its fault, and a reset from it is a hard
reset. -/
theorem faultStateLeftOnlyByReset : Obligations.FaultStateLeftOnlyByReset := by
  intro s r hf
  refine ⟨fun hr => ?_, fun hr => ?_⟩
  · rw [step_of_faulted hf, faultedStep_eq_fault r hr]
  · exact ⟨_, step_of_resetTurn (.inr ⟨by simp [hf], hr⟩), rfl⟩

/-! ### The polling host (30_encoding.md R92, log 5) -/

/-- STATUS bit 0 is BUSY, which is PENDING (10_state.md R24, R25). -/
theorem State.status_getLsbD_zero (s : State) : s.status.getLsbD 0 = s.pending := by
  unfold State.status State.busy
  rw [BitVec.getLsbD_append]
  cases s.pending <;> rfl

/-- While BUSY reads 1 a poll delivers STATUS and stays the host's next operation. -/
theorem hostPoll_of_pending {s : State} (hp : s.pending = true) :
    hostPoll s = .next { s.deliver s.status with hostOps := .poll :: s.hostOps } := by
  rw [hostPoll, if_pos (by rw [State.status_getLsbD_zero, hp])]

/-- A poll of a pending command uses up its entry of `turns` and delivers STATUS; nothing else changes. -/
theorem step_of_pollTurn {s : State} {rest : List HostOp} {ts : List Agent} (hf : s.faulted = none)
    (hp : s.pending = true) (ho : s.hostOps = .poll :: rest) (ht : s.turns = .host :: ts) :
    step s = .next { s with turns := ts, reads := s.status :: s.reads } := by
  have hturn : HostTurn s .poll := ⟨hf, by simp [ho], .inr (by simp [ht])⟩
  have hstatus : (hostStart s).status = s.status := rfl
  rw [step_of_hostTurn hturn, hostStep, hostPoll_of_pending (s := hostStart s) hp, hstatus]
  simp [settleMove, hostStart, State.deliver, hp, ho, ht]

/-- Settles O10, by induction on `turns`: an entry for the host is one more poll, any other list is the engine's
turn. -/
theorem pollingReachesTheEngineStep : Obligations.PollingReachesTheEngineStep := by
  intro s rest hf hp ho
  induction hts : s.turns generalizing s with
  | nil => exact ⟨0, s, by simp, rfl, ⟨hf, hp, .inr (by simp [hts])⟩, rfl⟩
  | cons a ts ih =>
    cases a with
    | engine => exact ⟨0, s, by simp, rfl, ⟨hf, hp, .inr (by simp [hts])⟩, rfl⟩
    | host =>
      obtain ⟨k, t, hk, hrun, hturn, ht⟩ :=
        ih { s with turns := ts, reads := s.status :: s.reads } hf hp ho rfl
      have hstep := step_of_pollTurn hf hp ho hts
      refine ⟨k + 1, t, by simpa using hk, ?_, hturn, ?_⟩
      · simpa [Host.Core.run, core, hstep] using hrun
      · refine ht.trans ?_
        rw [List.replicate_succ', List.append_assoc, List.singleton_append]
        rfl

/-! ### What the decode functions return lies within the stream (40_codec_raw_caesar.md R101, R105, 41_huffman.md R145) -/

/-- Eight bits are consumed for each symbol, and no bit past the last complete chunk. -/
theorem rawDecodeChunks_bounds (m n : Nat) (bits : List Bool) :
    8 * (m + (rawDecodeChunks m n bits).out.length) ≤ (rawDecodeChunks m n bits).pos ∧
      (rawDecodeChunks m n bits).pos ≤ 8 * (m + n) := by
  induction n generalizing m bits with
  | zero => simp [rawDecodeChunks]
  | succ n ih =>
    simp only [rawDecodeChunks]
    split
    · simp only [List.length_nil]
      omega
    · have := ih (m + 1) (bits.drop 8)
      simp only [List.length_cons]
      omega

theorem rawDecode_bounds (bits : List Bool) :
    8 * (rawDecode bits).out.length ≤ (rawDecode bits).pos ∧ (rawDecode bits).pos ≤ bits.length := by
  have := rawDecodeChunks_bounds 0 (bits.length / 8) bits
  unfold rawDecode
  omega

/-- The unshift stage keeps the leading symbols, and the boundary it returns is the raw stage's or a delimiter's. -/
theorem unshiftFrom_bounds (sh : BitVec 8) (found : Bool) (pos m : Nat) (cs : List Symbol) :
    (unshiftFrom sh found pos m cs).out.length ≤ cs.length ∧
      (unshiftFrom sh found pos m cs).pos ≤ max pos (8 * (m + cs.length)) := by
  induction cs generalizing m with
  | nil => simp [unshiftFrom]
  | cons c cs ih =>
    simp only [unshiftFrom]
    split
    · simp only [List.length_nil, List.length_cons]
      omega
    · have := ih (m + 1)
      simp only [List.length_cons]
      omega

theorem caesarDecode_bounds (bits : List Bool) (sh : BitVec 8) :
    (caesarDecode bits sh).out.length ≤ bits.length ∧ (caesarDecode bits sh).pos ≤ bits.length := by
  have hraw := rawDecode_bounds bits
  have hunshift := unshiftFrom_bounds sh (rawDecode bits).found (rawDecode bits).pos 0 (rawDecode bits).out
  simp only [caesarDecode]
  omega

/-- A walk consumes at least one bit for each symbol. -/
theorem huffWalk_bounds {t : TreeStore} {cur j : Nat} {bits : List Bool} {d : Decoded}
    (h : huffWalk t cur j bits = some d) : d.out.length ≤ bits.length ∧ d.pos ≤ j + bits.length := by
  induction bits generalizing cur j d with
  | nil =>
    cases h
    simp
  | cons b bits ih =>
    unfold huffWalk at h
    split at h
    · cases h
    · have := ih h
      simp only [List.length_cons]
      omega
    · obtain ⟨d', hd', rfl⟩ := Option.map_eq_some_iff.mp h
      have := ih hd'
      simp only [List.length_cons]
      omega
    · cases h
      simp only [List.length_nil, List.length_cons]
      omega

/-! ### The storage invariant over the updates of the state -/

/-- The parameters are those of `s`, and the storage invariant holds. -/
def StorageKept (s t : State) : Prop := StorageInv t ∧ t.params = s.params

theorem StorageKept.trans {s t u : State} (hst : StorageKept s t) (htu : StorageKept t u) : StorageKept s u :=
  ⟨htu.1, htu.2.trans hst.2⟩

theorem storageKept_writeStream {s : State} (hs : StorageInv s) {bits : List Bool}
    (hb : bits.length ≤ s.params.bitMax) : StorageKept s (s.writeStream bits) := by
  obtain ⟨hp, ⟨hmsgLen, -, htextLen, hdecPos⟩, hpix, hgrid, hmsg, hbitw, htext⟩ := hs
  have hwords : 0 + (packStream bits).length ≤ wordCount s.params.bitMax := by
    simpa using wordCount_mono hb
  exact ⟨⟨hp, ⟨hmsgLen, hb, htextLen, hdecPos⟩, hpix, hgrid, hmsg,
    bufferWf_bufferWriteAll _ _ 0 hwords hbitw, htext⟩, rfl⟩

theorem storageKept_writeText {s : State} (hs : StorageInv s) {out : List Symbol} (found : Bool) {pos : Nat}
    (ho : out.length ≤ s.params.textMax) (hpos : pos ≤ s.params.bitMax) :
    StorageKept s (s.writeText out found pos) := by
  obtain ⟨hp, ⟨hmsgLen, hbitLen, -, -⟩, hpix, hgrid, hmsg, hbitw, htext⟩ := hs
  exact ⟨⟨hp, ⟨hmsgLen, hbitLen, ho, hpos⟩, hpix, hgrid, hmsg, hbitw,
    bufferWf_bufferWriteAll _ _ 0 (by simpa using ho) htext⟩, rfl⟩

theorem storageKept_pix {s : State} (hs : StorageInv s) {m : Memory} (hm : Memory.wf m = true)
    (hb : cellsBelow s.params.gridBytesMax m = true) : StorageKept s { s with pix := m } := by
  obtain ⟨hp, hlen, -, -, hbuffers⟩ := hs
  exact ⟨⟨hp, hlen, hm, hb, hbuffers⟩, rfl⟩

/-- A host write of a location that exists stays within the depths; a length past its buffer is discarded. -/
theorem storageKept_writeReg {s : State} (hs : StorageInv s) {r : WindowReg} (hr : r.exists s.params = true) (v : Word) :
    StorageKept s (s.writeReg r v) := by
  cases r with
  | cmd =>
    rw [State.writeReg, State.writeCmd]
    split <;> exact ⟨hs, rfl⟩
  | msgLen =>
    rw [State.writeReg]
    split
    case isTrue hv =>
      obtain ⟨hp, ⟨-, hlen⟩, hstore⟩ := hs
      exact ⟨⟨hp, ⟨hv, hlen⟩, hstore⟩, rfl⟩
    case isFalse => exact ⟨hs, rfl⟩
  | bitLen =>
    rw [State.writeReg]
    split
    case isTrue hv =>
      obtain ⟨hp, ⟨hmsgLen, -, hlen⟩, hstore⟩ := hs
      exact ⟨⟨hp, ⟨hmsgLen, hv, hlen⟩, hstore⟩, rfl⟩
    case isFalse => exact ⟨hs, rfl⟩
  | msg k =>
    have hk := (WindowReg.exists_msg s.params k).mp hr
    obtain ⟨hp, hlen, hpix, hgrid, hmsg, hbuffers⟩ := hs
    exact ⟨⟨hp, hlen, hpix, hgrid, bufferWf_bufferWrite v hk hmsg, hbuffers⟩, rfl⟩
  | bitw w =>
    have hw := (WindowReg.exists_bitw s.params w).mp hr
    obtain ⟨hp, hlen, hpix, hgrid, hmsg, hbitw, htext⟩ := hs
    exact ⟨⟨hp, hlen, hpix, hgrid, hmsg, bufferWf_bufferWrite v hw hbitw, htext⟩, rfl⟩
  | status | config | textLen | decPos | gridRows | gridCols | treeInfo | text => exact ⟨hs, rfl⟩

/-- Reset empties the buffers and clears the lengths; the pixel memory and the parameters stay. -/
theorem storageKept_hardReset {s : State} (hs : StorageInv s) : StorageKept s s.hardReset := by
  obtain ⟨hp, -, hpix, hgrid, -⟩ := hs
  have hlen : LengthsInRange s.hardReset := ⟨Nat.zero_le _, Nat.zero_le _, Nat.zero_le _, Nat.zero_le _⟩
  exact ⟨⟨hp, hlen, hpix, hgrid, rfl, rfl, rfl⟩, rfl⟩

/-! ### The storage invariant over the stages -/

/-- Every state a stage leaves, on success or error, keeps the storage of `s`. -/
def StageOutcome.KeepsStorage (s : State) : StageOutcome → Prop
  | .ok t => StorageKept s t
  | .error _ t => StorageKept s t
  | .fault _ => True

theorem StageOutcome.KeepsStorage.trans {s u : State} {o : StageOutcome} (hsu : StorageKept s u)
    (ho : o.KeepsStorage u) : o.KeepsStorage s := by
  cases o with
  | ok t => exact hsu.trans ho
  | error e t => exact hsu.trans ho
  | fault r => trivial

theorem StageOutcome.KeepsStorage.andThen {s : State} {o : StageOutcome} {next : State → StageOutcome}
    (ho : o.KeepsStorage s) (hnext : ∀ u, StorageInv u → (next u).KeepsStorage u) :
    (o.andThen next).KeepsStorage s := by
  cases o with
  | ok u => exact .trans ho (hnext u ho.1)
  | error e u => exact ho
  | fault r => trivial

theorem StageOutcome.KeepsStorage.finish {s t : State} {o : StageOutcome} (ho : o.KeepsStorage s)
    (h : o.finish = .next t) : StorageKept s t := by
  rcases StageOutcome.finish_next h with ⟨u, rfl, rfl⟩ | ⟨e, u, rfl, rfl⟩
  · exact ho
  · exact ho

theorem encodeStage_keepsStorage (k : Kind) {s : State} (hs : StorageInv s) : (encodeStage k s).KeepsStorage s := by
  cases h : encodeStage k s with
  | ok t =>
    obtain ⟨m, tree, bits, -, -, -, hb, ⟨-, rfl⟩ | ⟨T, -, rfl⟩⟩ := encodeStage_ok h
    · exact storageKept_writeStream (s := s.dropTree) hs hb
    · exact storageKept_writeStream (s := s.dropTree) hs hb
  | error e t =>
    obtain ⟨rfl, -⟩ := encodeStage_error h
    exact ⟨hs, rfl⟩
  | fault r => trivial

/-- A text decoded within the bits of the stream fits the text buffer, BIT_MAX being at most TEXT_MAX. -/
theorem storageKept_writeText_of_le_bitLen {s : State} (hs : StorageInv s) {out : List Symbol} (found : Bool)
    {pos : Nat} (ho : out.length ≤ s.bitLen) (hpos : pos ≤ s.bitLen) :
    StorageKept s (s.writeText out found pos) := by
  have hparams := (Params.wellFormed_iff s.params).mp hs.1
  have hbitLen : s.bitLen ≤ s.params.bitMax := hs.2.1.2.1
  exact storageKept_writeText hs found (by omega) (by omega)

theorem fixedDecodeStage_keepsStorage {decoder : List Bool → Decoded} {s : State} (hs : StorageInv s)
    (hd : ∀ bits, (decoder bits).out.length ≤ bits.length ∧ (decoder bits).pos ≤ bits.length) :
    (fixedDecodeStage decoder s).KeepsStorage s := by
  rcases fixedDecodeStage_cases decoder s with ⟨-, -, e⟩ | ⟨-, ⟨-, -, e⟩ | ⟨-, e⟩⟩
  · rw [e]; trivial
  · rw [e]; exact ⟨hs, rfl⟩
  · rw [e]
    have hlen := s.writtenPrefix_spec.1
    obtain ⟨hout, hpos⟩ := hd s.writtenPrefix
    exact storageKept_writeText_of_le_bitLen hs _ (by omega) (by omega)

theorem huffDecodeStage_keepsStorage {s : State} (hs : StorageInv s) : (huffDecodeStage s).KeepsStorage s := by
  rcases huffDecodeStage_cases s with ⟨-, e⟩ | ⟨-, ⟨-, e⟩ | ⟨d, hd, ⟨-, e⟩ | ⟨-, -, e⟩ | ⟨-, -, e⟩⟩⟩
  · rw [e]; exact ⟨hs, rfl⟩
  · rw [e]; trivial
  · rw [e]
    have hlen := s.writtenPrefix_spec.1
    obtain ⟨hout, hpos⟩ := huffWalk_bounds hd
    rw [List.length_take] at hout hpos
    exact storageKept_writeText_of_le_bitLen hs _ (by omega) (by omega)
  · rw [e]; trivial
  · rw [e]; exact ⟨hs, rfl⟩

theorem decodeStage_keepsStorage (k : Kind) {s : State} (hs : StorageInv s) : (decodeStage k s).KeepsStorage s := by
  cases k with
  | raw =>
    refine fixedDecodeStage_keepsStorage hs fun bits => ?_
    have := rawDecode_bounds bits
    omega
  | caesar => exact fixedDecodeStage_keepsStorage hs fun bits => caesarDecode_bounds bits s.shift
  | huff => exact huffDecodeStage_keepsStorage hs

/-- The stream fits the grid, and the grid the pixel memory. -/
theorem writeStage_keepsStorage {s : State} (hs : StorageInv s) : (writeStage s).KeepsStorage s := by
  rcases writeStage_cases s with ⟨-, e⟩ | ⟨hgrid, ⟨-, e⟩ | ⟨hfits, ⟨-, e⟩ | ⟨hlen, e⟩⟩⟩
  · rw [e]; exact ⟨hs, rfl⟩
  · rw [e]; exact ⟨hs, rfl⟩
  · rw [e]; trivial
  · rw [e]
    have hcap := fits_le hfits
    obtain ⟨hpix, hbelow, -⟩ := hs.2.2
    exact storageKept_pix hs (Memory.wf_embedFrom hpix 0 _) (cellsBelow_embedFrom hbelow 0 _ (by omega))

/-- A grid within the pixel memory is read into no more bits than the bit buffer holds, GRID_BYTES_MAX being at most
BIT_MAX. -/
theorem readAllStage_keepsStorage {s : State} (hs : StorageInv s) : (readAllStage s).KeepsStorage s := by
  rcases readAllStage_cases s with ⟨-, e⟩ | ⟨hgrid, e⟩
  · rw [e]; exact ⟨hs, rfl⟩
  · rw [e]
    have hparams := (Params.wellFormed_iff s.params).mp hs.1
    exact storageKept_writeStream hs (by rw [readLsbs_length]; omega)

theorem embedStages_keepsStorage (k : Kind) {s : State} (hs : StorageInv s) : (embedStages k s).KeepsStorage s :=
  (encodeStage_keepsStorage k hs).andThen fun _ => writeStage_keepsStorage

theorem extractStages_keepsStorage (k : Kind) {s : State} (hs : StorageInv s) : (extractStages k s).KeepsStorage s :=
  (readAllStage_keepsStorage hs).andThen fun _ => decodeStage_keepsStorage k

/-! ### The storage invariant over the moves and the step -/

theorem exec_keepsStorage {i : Instr} {s t : State} (hs : StorageInv s) (h : exec i s = .next t) :
    StorageKept s t := by
  cases i with
  | encodeRaw => exact (encodeStage_keepsStorage .raw hs).finish h
  | encodeCaesar => exact (encodeStage_keepsStorage .caesar hs).finish h
  | encodeHuff => exact (encodeStage_keepsStorage .huff hs).finish h
  | decodeRaw => exact (decodeStage_keepsStorage .raw hs).finish h
  | decodeCaesar => exact (decodeStage_keepsStorage .caesar hs).finish h
  | decodeHuff => exact (decodeStage_keepsStorage .huff hs).finish h
  | write => exact (writeStage_keepsStorage hs).finish h
  | readall => exact (readAllStage_keepsStorage hs).finish h
  | embedRaw => exact (embedStages_keepsStorage .raw hs).finish h
  | embedCaesar => exact (embedStages_keepsStorage .caesar hs).finish h
  | embedHuff => exact (embedStages_keepsStorage .huff hs).finish h
  | extractRaw => exact (extractStages_keepsStorage .raw hs).finish h
  | extractCaesar => exact (extractStages_keepsStorage .caesar hs).finish h
  | extractHuff => exact (extractStages_keepsStorage .huff hs).finish h
  | newsession =>
    have hdrop : (StageOutcome.ok s.dropTree).KeepsStorage s := ⟨hs, rfl⟩
    exact hdrop.finish h

theorem hostStep_keepsStorage {op : HostOp} {s t : State} (hs : StorageInv s) (h : hostStep op s = .next t) :
    StorageKept s t := by
  cases op with
  | busRead width addr =>
    obtain ⟨r, v, -, -, -, rfl⟩ := hostRead_next h
    exact ⟨hs, rfl⟩
  | busWrite width addr v =>
    obtain ⟨r, hr, -, rfl⟩ := hostWrite_next h
    obtain ⟨-, -, hexists, -⟩ := busTarget_reg_exists hr
    exact storageKept_writeReg hs hexists v
  | pixRead a =>
    obtain ⟨-, -, rfl⟩ := hostPixRead_next h
    exact ⟨hs, rfl⟩
  | pixWrite a v =>
    obtain ⟨ha, -, rfl⟩ := hostPixWrite_next h
    obtain ⟨hpix, hbelow, -⟩ := hs.2.2
    exact storageKept_pix hs (Memory.wf_memWrite hpix a v) (cellsBelow_memWrite ha v hbelow)
  | poll => rcases hostPoll_next h with rfl | rfl <;> exact ⟨hs, rfl⟩
  | reset =>
    cases h
    exact storageKept_hardReset hs

/-- The engine's move starts from a state that differs in `turns` only. -/
theorem storageKept_engineStart {s : State} (hs : StorageInv s) : StorageKept s (engineStart s) := by
  unfold engineStart
  split <;> exact ⟨hs, rfl⟩

/-- The host's move starts from a state that differs in its input lists only. -/
theorem storageKept_hostStart {s : State} (hs : StorageInv s) : StorageKept s (hostStart s) := ⟨hs, rfl⟩

/-- Settles O57: reset, the engine's command and the host's access each keep the storage, and a faulting move changes
none of it. -/
theorem stepKeepsStorage : Obligations.StepKeepsStorage := by
  intro s t hs h
  have hengine := storageKept_engineStart hs
  have hhost := storageKept_hostStart hs
  rcases step_cases h with
    ⟨r, rest, -, -, rfl⟩ | ⟨-, rfl⟩ | ⟨-, ⟨e, -, rfl⟩ | ⟨i, -, hexec | ⟨r, -, rfl⟩⟩⟩ | ⟨op, -, hop | ⟨r, -, rfl⟩⟩
  · exact storageKept_hardReset (s := { s with hostOps := rest }) hs
  · exact ⟨hs, rfl⟩
  · exact hengine
  · exact hengine.trans (exec_keepsStorage hengine.1 hexec)
  · exact hengine
  · exact hhost.trans (hostStep_keepsStorage hhost.1 hop)
  · exact hhost

end Sys2Proof.Machine

/-! State (10_state.md R43, R44; 41_huffman.md R130 to R137): the tree an encode stage builds is sound. -/

namespace Sys2Proof.Machine

/-! ### Symbols and symbol sets -/

/-- The set of one symbol holds that symbol alone. -/
theorem hasSym_symsOf (c d : Symbol) : hasSym (symsOf c) d = decide (c = d) := by
  have hd : d.toNat < 256 := d.isLt
  simp [hasSym, symsOf, BitVec.toNat_inj, eq_comm, hd]

theorem hasSym_or (v w : BitVec 256) (c : Symbol) : hasSym (v ||| w) c = (hasSym v c || hasSym w c) := by
  simp [hasSym]

/-- The sets of distinct symbols are disjoint. -/
theorem symsOf_disjoint {c d : Symbol} (h : c ≠ d) : symsOf c &&& symsOf d = 0 := by
  have hne : c.toNat ≠ d.toNat := fun e => h (BitVec.eq_of_toNat_eq e)
  apply BitVec.eq_of_getLsbD_eq
  intro i hi
  simp only [symsOf, BitVec.getLsbD_and, BitVec.getLsbD_twoPow]
  by_cases hc : i = c.toNat <;> by_cases hd : i = d.toNat <;> simp <;> omega

/-- A set disjoint from two others is disjoint from their union. -/
theorem and_or_eq_zero {u v w : BitVec 256} (hv : u &&& v = 0) (hw : u &&& w = 0) : u &&& (v ||| w) = 0 := by
  rw [BitVec.and_or_distrib_left, hv, hw, BitVec.or_self]

/-- There are 256 symbols. -/
theorem length_le_256_of_nodup {l : List Symbol} (h : l.Nodup) : l.length ≤ 256 := by
  have hs : l.map BitVec.toNat ⊆ List.range 256 := by
    intro n hn
    obtain ⟨c, -, rfl⟩ := List.mem_map.mp hn
    exact List.mem_range.mpr c.isLt
  have hn : (l.map BitVec.toNat).Nodup := h.map fun a b => BitVec.eq_of_toNat_eq
  simpa using (hn.subperm hs).length_le

/-! ### The leaf orders (41_huffman.md R131) -/

theorem mem_firstOccurrences {c : Symbol} {t : List Symbol} : c ∈ firstOccurrences t ↔ c ∈ t := by
  induction t with
  | nil => rfl
  | cons d t ih =>
    by_cases h : c = d <;> simp [firstOccurrences, ih, h]

theorem firstOccurrences_nodup (t : List Symbol) : (firstOccurrences t).Nodup := by
  induction t with
  | nil => exact List.nodup_nil
  | cons c t ih => exact List.nodup_cons.mpr ⟨by simp, ih.filter _⟩

theorem mem_ascendingSymbols {c : Symbol} {t : List Symbol} : c ∈ ascendingSymbols t ↔ c ∈ t := by
  have hc : c ∈ (List.range 256).map fun n => BitVec.ofNat 8 n :=
    List.mem_map.mpr ⟨c.toNat, List.mem_range.mpr c.isLt, by simp⟩
  simp only [ascendingSymbols, List.mem_filter, hc, true_and, List.contains_iff_mem]

theorem ascendingSymbols_nodup (t : List Symbol) : (ascendingSymbols t).Nodup := by
  refine List.Nodup.filter _ (List.Nodup.map_on ?_ List.nodup_range)
  intro a ha b hb hab
  have := congrArg BitVec.toNat hab
  simp only [List.mem_range] at ha hb
  simpa [Nat.mod_eq_of_lt ha, Nat.mod_eq_of_lt hb] using this

/-- Either leaf order lists the symbols of the text. -/
theorem mem_leafOrder {o : LeafOrder} {c : Symbol} {t : List Symbol} : c ∈ leafOrder o t ↔ c ∈ t := by
  cases o with
  | firstOccurrence => exact mem_firstOccurrences
  | ascendingSymbol => exact mem_ascendingSymbols

/-- Either leaf order lists each symbol once. -/
theorem leafOrder_nodup (o : LeafOrder) (t : List Symbol) : (leafOrder o t).Nodup := by
  cases o with
  | firstOccurrence => exact firstOccurrences_nodup t
  | ascendingSymbol => exact ascendingSymbols_nodup t

theorem leafOrder_length_pos {o : LeafOrder} {t : List Symbol} (h : t ≠ []) : 0 < (leafOrder o t).length := by
  obtain ⟨c, hc⟩ := List.exists_mem_of_ne_nil t h
  exact List.length_pos_of_mem (mem_leafOrder.mpr hc)

/-- The counts of the distinct symbols of a text add up to its length. -/
theorem sum_count_leafOrder (o : LeafOrder) (t : List Symbol) :
    ((leafOrder o t).map fun c => t.count c).sum = t.length := by
  have hperm : (leafOrder o t).Perm t.dedup :=
    (List.perm_ext_iff_of_nodup (leafOrder_nodup o t) t.nodup_dedup).mpr fun c => by simp [mem_leafOrder]
  rw [(hperm.map _).sum_eq]
  exact List.sum_map_count_dedup_eq_length t

/-! ### The stable sort (41_huffman.md R134) -/

theorem insertByFreq_perm (nodes : List Node) (x : Nat) (l : List Nat) : (insertByFreq nodes x l).Perm (x :: l) := by
  induction l with
  | nil => exact .refl _
  | cons y l ih =>
    rw [insertByFreq]
    split
    · exact .refl _
    · exact (ih.cons y).trans (.swap x y l)

theorem stableSortByFreq_perm (nodes : List Node) (l : List Nat) : (stableSortByFreq nodes l).Perm l := by
  induction l with
  | nil => exact .refl _
  | cons x l ih => exact (insertByFreq_perm nodes x _).trans (ih.cons x)

theorem insertByFreq_ascending {nodes : List Node} (x : Nat) {l : List Nat}
    (hl : l.Pairwise fun a b => freqAt nodes a ≤ freqAt nodes b) :
    (insertByFreq nodes x l).Pairwise fun a b => freqAt nodes a ≤ freqAt nodes b := by
  induction l with
  | nil => exact List.pairwise_singleton _ _
  | cons y l ih =>
    obtain ⟨hy, hl'⟩ := List.pairwise_cons.mp hl
    rw [insertByFreq]
    split
    case isTrue hxy =>
      refine List.pairwise_cons.mpr ⟨fun z hz => ?_, hl⟩
      rcases List.mem_cons.mp hz with rfl | hz
      · exact hxy
      · exact hxy.trans (hy z hz)
    case isFalse hxy =>
      refine List.pairwise_cons.mpr ⟨fun z hz => ?_, ih hl'⟩
      rcases List.mem_cons.mp ((insertByFreq_perm nodes x l).subset hz) with rfl | hz
      · omega
      · exact hy z hz

theorem stableSortByFreq_ascending (nodes : List Node) (l : List Nat) :
    (stableSortByFreq nodes l).Pairwise fun a b => freqAt nodes a ≤ freqAt nodes b := by
  induction l with
  | nil => exact List.Pairwise.nil
  | cons x l ih => exact insertByFreq_ascending x ih

/-- Inserting compares frequencies of the listed nodes only. -/
theorem insertByFreq_congr {nodes nodes' : List Node} {x : Nat} {l : List Nat}
    (h : ∀ n ∈ x :: l, freqAt nodes' n = freqAt nodes n) : insertByFreq nodes' x l = insertByFreq nodes x l := by
  induction l with
  | nil => rfl
  | cons y l ih =>
    have hl : ∀ n ∈ x :: l, freqAt nodes' n = freqAt nodes n := fun n hn =>
      h n (((List.sublist_cons_self y l).cons_cons x).subset hn)
    rw [insertByFreq, insertByFreq, h x (by simp), h y (by simp), ih hl]

/-- The sort compares frequencies of the listed nodes only. -/
theorem stableSortByFreq_congr {nodes nodes' : List Node} {l : List Nat}
    (h : ∀ n ∈ l, freqAt nodes' n = freqAt nodes n) : stableSortByFreq nodes' l = stableSortByFreq nodes l := by
  induction l with
  | nil => rfl
  | cons x l ih =>
    rw [stableSortByFreq_cons, stableSortByFreq_cons, ih fun n hn => h n (List.mem_cons_of_mem x hn)]
    exact insertByFreq_congr fun n hn => h n (((stableSortByFreq_perm nodes l).cons x).subset hn)

/-! ### Nodes appended to the arena -/

theorem symsAt_append {nodes : List Node} (more : List Node) {n : Nat} (h : n < nodes.length) :
    symsAt (nodes ++ more) n = symsAt nodes n := by
  simp [symsAt, List.getElem?_append_left h]

@[simp] theorem freqAt_concat_length (nodes : List Node) (x : Node) : freqAt (nodes ++ [x]) nodes.length = x.freq := by
  simp [freqAt]

@[simp] theorem symsAt_concat_length (nodes : List Node) (x : Node) : symsAt (nodes ++ [x]) nodes.length = x.syms := by
  simp [symsAt]

theorem leafSyms_append (xs ys : List Node) : leafSyms (xs ++ ys) = leafSyms xs ++ leafSyms ys := by
  induction xs with
  | nil => rfl
  | cons x xs ih => cases x <;> simp [leafSyms, ih]

theorem childRefs_append (xs ys : List Node) : childRefs (xs ++ ys) = childRefs xs ++ childRefs ys := by
  induction xs with
  | nil => rfl
  | cons x xs ih => cases x <;> simp [childRefs, ih]

/-- LEAVES counts the leaves' symbols. -/
theorem countP_isLeaf (nodes : List Node) : nodes.countP Node.isLeaf = (leafSyms nodes).length := by
  induction nodes with
  | nil => rfl
  | cons x xs ih => cases x <;> simp [List.countP_cons, leafSyms, Node.isLeaf, ih]

/-- A node whose children come before it stays sound when nodes are appended. -/
theorem nodeSound_append {nodes : List Node} (more : List Node) {i : Nat} {x : Node} (hi : i ≤ nodes.length)
    (h : NodeSound nodes i x) : NodeSound (nodes ++ more) i x := by
  cases x with
  | leaf f v c => exact h
  | internal f v l r =>
    obtain ⟨hl, hr, hf, hv, hd⟩ := h
    have hl' : l < nodes.length := by omega
    have hr' : r < nodes.length := by omega
    refine ⟨hl, hr, ?_, ?_, ?_⟩
    · rw [freqAt_append more hl', freqAt_append more hr', hf]
    · rw [symsAt_append more hl', symsAt_append more hr', hv]
    · rw [symsAt_append more hl', symsAt_append more hr', hd]

/-! ### The node list of a pass (41_huffman.md R133) -/

/-- The node list of a pass holds nodes created before it. -/
theorem passList_lt {nodes : List Node} {k j n : Nat} (h : n ∈ passList nodes k j) : n < k + j := by
  induction j generalizing n with
  | zero => simpa using h
  | succ j ih =>
    rcases List.mem_append.mp h with h | h
    · have := ih ((stableSortByFreq_perm nodes _).subset (List.mem_of_mem_drop h))
      omega
    · rw [List.mem_singleton] at h
      omega

/-- The node list of a pass depends on the nodes created before it only. -/
theorem passList_append {nodes : List Node} (more : List Node) {k j : Nat} (h : k + j ≤ nodes.length + 1) :
    passList (nodes ++ more) k j = passList nodes k j := by
  induction j with
  | zero => rfl
  | succ j ih =>
    have hsort : stableSortByFreq (nodes ++ more) (passList nodes k j) = stableSortByFreq nodes (passList nodes k j) :=
      stableSortByFreq_congr fun n hn => freqAt_append more (by have := passList_lt hn; omega)
    rw [passList_succ, passList_succ, ih (by omega), hsort]

/-- So does its sorted form. -/
theorem sorted_passList_append {nodes : List Node} (more : List Node) {k j : Nat} (h : k + j ≤ nodes.length) :
    stableSortByFreq (nodes ++ more) (passList (nodes ++ more) k j) = stableSortByFreq nodes (passList nodes k j) := by
  rw [passList_append more (by omega)]
  exact stableSortByFreq_congr fun n hn => freqAt_append more (by have := passList_lt hn; omega)

/-- The last pass leaves the last node created. -/
theorem passList_last (nodes : List Node) {k : Nat} (h : 0 < k) : passList nodes k (k - 1) = [2 * k - 2] := by
  have hlen := passList_length nodes (show k - 1 < k by omega)
  cases hj : k - 1 with
  | zero =>
    obtain rfl : k = 1 := by omega
    rfl
  | succ j =>
    rw [hj, passList_succ, List.length_append, List.length_singleton] at hlen
    have hnil := List.eq_nil_of_length_eq_zero (l := (stableSortByFreq nodes (passList nodes k j)).drop 2) (by omega)
    rw [passList_succ, hnil, List.nil_append, show k + j = 2 * k - 2 by omega]

/-! ### The forest a pass works on -/

/-- The node that a pass creates of its first two nodes (41_huffman.md R133). -/
def mergedNode (nodes : List Node) (l r : Nat) : Node :=
  .internal (freqAt nodes l + freqAt nodes r) (symsAt nodes l ||| symsAt nodes r) l r

/-- The nodes are a forest with the listed ones as its roots: every node is sound, the listed ones are the child of none
and every other one is the child of exactly one, and the roots' sets are disjoint. -/
structure Forest (nodes : List Node) (roots : List Nat) : Prop where
  roots_lt     : ∀ n ∈ roots, n < nodes.length
  roots_nodup  : roots.Nodup
  node_sound   : ∀ i, (h : i < nodes.length) → NodeSound nodes i nodes[i]
  parent_count : ∀ i, (childRefs nodes).count i = if i < nodes.length ∧ i ∉ roots then 1 else 0
  disjoint     : roots.Pairwise fun a b => symsAt nodes a &&& symsAt nodes b = 0

theorem Forest.perm {nodes : List Node} {roots roots' : List Nat} (hf : Forest nodes roots) (hp : roots'.Perm roots) :
    Forest nodes roots' where
  roots_lt n hn := hf.roots_lt n (hp.subset hn)
  roots_nodup := hp.nodup_iff.mpr hf.roots_nodup
  node_sound := hf.node_sound
  parent_count i := by simp only [hf.parent_count, hp.mem_iff]
  disjoint := (hp.pairwise_iff fun h => by rwa [BitVec.and_comm]).mpr hf.disjoint

section Merge
variable {nodes : List Node} {l r : Nat} {rest : List Nat}

/-- The new node is a root in place of its children. -/
theorem Forest.parent_count_merge (hf : Forest nodes (l :: r :: rest)) (i : Nat) :
    (childRefs (nodes ++ [mergedNode nodes l r])).count i =
      if i < (nodes ++ [mergedNode nodes l r]).length ∧ i ∉ rest ++ [nodes.length] then 1 else 0 := by
  have hl := hf.roots_lt l (by simp)
  have hr := hf.roots_lt r (by simp)
  have hnodup := hf.roots_nodup
  simp only [List.nodup_cons, List.mem_cons, not_or] at hnodup
  obtain ⟨⟨hlr, hlrest⟩, hrrest, -⟩ := hnodup
  have hrefs : childRefs (nodes ++ [mergedNode nodes l r]) = childRefs nodes ++ [l, r] := by
    rw [childRefs_append]
    rfl
  rw [hrefs, List.count_append, hf.parent_count]
  simp only [List.mem_cons, List.mem_append, List.length_append, List.length_singleton, List.not_mem_nil, or_false]
  by_cases hil : i = l
  · subst hil
    simp [hl.ne, hlrest, Ne.symm hlr, hl.trans (Nat.lt_succ_self _)]
  · by_cases hir : i = r
    · subst hir
      simp [hr.ne, hrrest, hlr, hr.trans (Nat.lt_succ_self _)]
    · have hcount : List.count i [l, r] = 0 := by simp [Ne.symm hil, Ne.symm hir]
      rw [hcount, Nat.add_zero]
      congr 1
      simp only [hil, hir, false_or, not_or, eq_iff_iff]
      constructor
      · rintro ⟨hi, hrest⟩
        exact ⟨by omega, hrest, by omega⟩
      · rintro ⟨hi, hrest, hne⟩
        exact ⟨by omega, hrest⟩

/-- A pass turns two trees of the forest into one (41_huffman.md R133, R137). -/
theorem Forest.merge (hf : Forest nodes (l :: r :: rest)) :
    Forest (nodes ++ [mergedNode nodes l r]) (rest ++ [nodes.length]) where
  roots_lt n hn := by
    rw [List.length_append, List.length_singleton]
    rcases List.mem_append.mp hn with hn | hn
    · exact (hf.roots_lt n (by simp [hn])).trans (Nat.lt_succ_self _)
    · simp only [List.mem_singleton] at hn
      omega
  roots_nodup := by
    have hrest : rest.Nodup := hf.roots_nodup.of_cons.of_cons
    refine List.nodup_append.mpr ⟨hrest, List.nodup_singleton _, fun a ha b hb => ?_⟩
    rw [List.mem_singleton.mp hb]
    exact (hf.roots_lt a (by simp [ha])).ne
  node_sound i h := by
    by_cases hi : i < nodes.length
    · rw [List.getElem_append_left hi]
      exact nodeSound_append _ hi.le (hf.node_sound i hi)
    · obtain rfl : i = nodes.length := by simp only [List.length_append, List.length_singleton] at h; omega
      rw [List.getElem_concat_length rfl]
      have hdisj := (List.pairwise_cons.mp hf.disjoint).1 r (by simp)
      exact nodeSound_append _ le_rfl ⟨hf.roots_lt l (by simp), hf.roots_lt r (by simp), rfl, rfl, hdisj⟩
  parent_count := hf.parent_count_merge
  disjoint := by
    obtain ⟨hl, hdisj⟩ := List.pairwise_cons.mp hf.disjoint
    obtain ⟨hr, hrest⟩ := List.pairwise_cons.mp hdisj
    have hold : ∀ n ∈ rest, symsAt (nodes ++ [mergedNode nodes l r]) n = symsAt nodes n := fun n hn =>
      symsAt_append _ (hf.roots_lt n (by simp [hn]))
    refine List.pairwise_append.mpr ⟨?_, List.pairwise_singleton _ _, fun a ha b hb => ?_⟩
    · exact hrest.imp_of_mem fun ha hb h => by rw [hold _ ha, hold _ hb, h]
    · rw [List.mem_singleton.mp hb, hold a ha, symsAt_concat_length]
      refine and_or_eq_zero ?_ ?_
      · rw [BitVec.and_comm, hl a (by simp [ha])]
      · rw [BitVec.and_comm, hr a ha]

/-- A pass keeps the sum of the roots' frequencies. -/
theorem Forest.sum_freqAt_merge (hf : Forest nodes (l :: r :: rest)) :
    ((rest ++ [nodes.length]).map (freqAt (nodes ++ [mergedNode nodes l r]))).sum =
      ((l :: r :: rest).map (freqAt nodes)).sum := by
  have hold : rest.map (freqAt (nodes ++ [mergedNode nodes l r])) = rest.map (freqAt nodes) :=
    List.map_congr_left fun n hn => freqAt_append _ (hf.roots_lt n (by simp [hn]))
  have hnew : freqAt (nodes ++ [mergedNode nodes l r]) nodes.length = freqAt nodes l + freqAt nodes r :=
    freqAt_concat_length nodes _
  simp only [List.map_append, List.map_cons, List.map_nil, List.sum_append, List.sum_cons, List.sum_nil, hold, hnew]
  omega

/-- A pass keeps the symbols of the roots' sets. -/
theorem Forest.covered_merge (hf : Forest nodes (l :: r :: rest)) {c : Symbol}
    (hc : ∃ n ∈ l :: r :: rest, hasSym (symsAt nodes n) c = true) :
    ∃ n ∈ rest ++ [nodes.length], hasSym (symsAt (nodes ++ [mergedNode nodes l r]) n) c = true := by
  obtain ⟨n, hn, hsym⟩ := hc
  by_cases hrest : n ∈ rest
  · exact ⟨n, by simp [hrest], by rwa [symsAt_append _ (hf.roots_lt n hn)]⟩
  · refine ⟨nodes.length, by simp, ?_⟩
    rw [symsAt_concat_length, mergedNode, Node.syms, hasSym_or, Bool.or_eq_true]
    simp only [List.mem_cons, hrest, or_false] at hn
    rcases hn with rfl | rfl
    · exact .inl hsym
    · exact .inr hsym

end Merge

/-! ### The loop of buildTree (41_huffman.md R133) -/

/-- What holds after `j` passes over the leaves of a text: the arena is the leaves in leaf order, then one internal node
for each pass, made of the first two nodes of its sorted list; the nodes are a forest with the node list as its roots,
which carry the symbols and the length of the text. -/
structure PassInv (o : LeafOrder) (t : List Symbol) (j : Nat) (nodes : List Node) : Prop where
  leaves_first : (leafOrder o t).map (leafNode t) <+: nodes
  nodes_length : nodes.length = (leafOrder o t).length + j
  leaf_syms    : leafSyms nodes = leafOrder o t
  merges       : ∀ i, i < j → ∃ f v l r rest, nodes[(leafOrder o t).length + i]? = some (.internal f v l r) ∧
    stableSortByFreq nodes (passList nodes (leafOrder o t).length i) = l :: r :: rest
  forest       : Forest nodes (passList nodes (leafOrder o t).length j)
  covered      : ∀ c ∈ t, ∃ n ∈ passList nodes (leafOrder o t).length j, hasSym (symsAt nodes n) c = true
  total        : ((passList nodes (leafOrder o t).length j).map (freqAt nodes)).sum = t.length

theorem leafSyms_leaves (t l : List Symbol) : leafSyms (l.map (leafNode t)) = l := by
  induction l with
  | nil => rfl
  | cons c l ih => simp [leafNode, leafSyms, ih]

theorem childRefs_leaves (t l : List Symbol) : childRefs (l.map (leafNode t)) = [] := by
  induction l with
  | nil => rfl
  | cons c l ih => simp [leafNode, childRefs, ih]

/-- The leaves alone are a forest of one-node trees. -/
theorem forest_leaves (o : LeafOrder) (t : List Symbol) :
    Forest ((leafOrder o t).map (leafNode t)) (List.range (leafOrder o t).length) where
  roots_lt n hn := by simpa using hn
  roots_nodup := List.nodup_range
  node_sound i h := by
    rw [List.getElem_map]
    exact ⟨List.count_pos_iff.mpr (mem_leafOrder.mp (List.getElem_mem _)), rfl⟩
  parent_count i := by simp [childRefs_leaves]
  disjoint := by
    refine List.Pairwise.imp_of_mem (fun ha hb hne => ?_) List.nodup_range
    rw [List.mem_range] at ha hb
    simp only [symsAt, List.getElem?_map, List.getElem?_eq_getElem ha, List.getElem?_eq_getElem hb]
    exact symsOf_disjoint fun h => hne ((leafOrder_nodup o t).getElem_inj_iff.mp h)

theorem passInv_leaves (o : LeafOrder) (t : List Symbol) : PassInv o t 0 ((leafOrder o t).map (leafNode t)) where
  leaves_first := List.prefix_rfl
  nodes_length := by simp
  leaf_syms := leafSyms_leaves t _
  merges i hi := absurd hi (Nat.not_lt_zero i)
  forest := forest_leaves o t
  covered c hc := by
    obtain ⟨i, hi, rfl⟩ := List.getElem_of_mem (mem_leafOrder (o := o) |>.mpr hc)
    refine ⟨i, by simpa using hi, ?_⟩
    simp [symsAt, hi, leafNode, Node.syms, hasSym_symsOf]
  total := by
    have hfreq : (List.range (leafOrder o t).length).map (freqAt ((leafOrder o t).map (leafNode t))) =
        (leafOrder o t).map fun c => t.count c :=
      List.ext_getElem (by simp) fun i hi _ => by
        simp only [List.length_map, List.length_range] at hi
        simp [freqAt, hi, leafNode, Node.freq]
    rw [passList_zero, hfreq, sum_count_leafOrder]

section Pass
variable {o : LeafOrder} {t : List Symbol} {j : Nat} {nodes : List Node}

/-- Before the last pass there are two nodes to merge. -/
theorem exists_two_sorted (hj : j + 1 < (leafOrder o t).length) : ∃ l r rest,
    stableSortByFreq nodes (passList nodes (leafOrder o t).length j) = l :: r :: rest := by
  have hlen := stableSortByFreq_length nodes (passList nodes (leafOrder o t).length j)
  rw [passList_length nodes (by omega)] at hlen
  match stableSortByFreq nodes (passList nodes (leafOrder o t).length j), hlen with
  | [], h => rw [List.length_nil] at h; omega
  | [_], h => rw [List.length_singleton] at h; omega
  | l :: r :: rest, _ => exact ⟨l, r, rest, rfl⟩

variable {l r : Nat} {rest : List Nat}

theorem PassInv.sorted_append (hp : PassInv o t j nodes) {i : Nat} (hi : i ≤ j) (more : List Node) :
    stableSortByFreq (nodes ++ more) (passList (nodes ++ more) (leafOrder o t).length i) =
      stableSortByFreq nodes (passList nodes (leafOrder o t).length i) :=
  sorted_passList_append more (by rw [hp.nodes_length]; omega)

/-- The next node list holds the new node in place of its children. -/
theorem PassInv.passList_merged (hp : PassInv o t j nodes)
    (hsort : stableSortByFreq nodes (passList nodes (leafOrder o t).length j) = l :: r :: rest) :
    passList (nodes ++ [mergedNode nodes l r]) (leafOrder o t).length (j + 1) = rest ++ [nodes.length] := by
  rw [passList_succ, hp.sorted_append le_rfl, hsort, hp.nodes_length]
  rfl

/-- A pass keeps what holds of the arena and the node list. -/
theorem PassInv.merge (hp : PassInv o t j nodes)
    (hsort : stableSortByFreq nodes (passList nodes (leafOrder o t).length j) = l :: r :: rest) :
    PassInv o t (j + 1) (nodes ++ [mergedNode nodes l r]) := by
  have hlist := hp.passList_merged hsort
  have hperm := stableSortByFreq_perm nodes (passList nodes (leafOrder o t).length j)
  rw [hsort] at hperm
  have hf := hp.forest.perm hperm
  exact {
    leaves_first := hp.leaves_first.trans (List.prefix_append _ _)
    nodes_length := by simp [hp.nodes_length, Nat.add_assoc]
    leaf_syms := by rw [leafSyms_append, hp.leaf_syms]; exact List.append_nil _
    merges := fun i hi => by
      rcases Nat.lt_succ_iff_lt_or_eq.mp hi with hi | rfl
      · obtain ⟨f, v, l', r', rest', hnode, hs⟩ := hp.merges i hi
        have hlt : (leafOrder o t).length + i < nodes.length := by rw [hp.nodes_length]; omega
        exact ⟨f, v, l', r', rest', by rw [List.getElem?_append_left hlt, hnode], by rw [hp.sorted_append hi.le, hs]⟩
      · refine ⟨freqAt nodes l + freqAt nodes r, symsAt nodes l ||| symsAt nodes r, l, r, rest, ?_, ?_⟩
        · rw [← hp.nodes_length, List.getElem?_concat_length, mergedNode]
        · rw [hp.sorted_append le_rfl, hsort]
    forest := hlist ▸ hf.merge
    covered := fun c hc => by
      obtain ⟨n, hn, hsym⟩ := hp.covered c hc
      rw [hlist]
      exact hf.covered_merge ⟨n, hperm.mem_iff.mpr hn, hsym⟩
    total := by rw [hlist, hf.sum_freqAt_merge, (hperm.map _).sum_eq, hp.total] }

theorem PassInv.mergePass (hp : PassInv o t j nodes) (hj : j + 1 < (leafOrder o t).length) :
    ∃ nodes', mergePass nodes (passList nodes (leafOrder o t).length j) =
      (nodes', passList nodes' (leafOrder o t).length (j + 1)) ∧ PassInv o t (j + 1) nodes' := by
  obtain ⟨l, r, rest, hsort⟩ := exists_two_sorted (nodes := nodes) hj
  refine ⟨nodes ++ [mergedNode nodes l r], ?_, hp.merge hsort⟩
  rw [hp.passList_merged hsort, Machine.mergePass, hsort]
  rfl

theorem PassInv.mergePasses {n : Nat} (hp : PassInv o t j nodes) (hj : j + n < (leafOrder o t).length) :
    ∃ nodes', mergePasses n nodes (passList nodes (leafOrder o t).length j) =
      (nodes', passList nodes' (leafOrder o t).length (j + n)) ∧ PassInv o t (j + n) nodes' := by
  induction n generalizing j nodes with
  | zero => exact ⟨nodes, rfl, hp⟩
  | succ n ih =>
    obtain ⟨nodes₁, hpass, hp₁⟩ := hp.mergePass (by omega)
    obtain ⟨nodes₂, hpasses, hp₂⟩ := ih hp₁ (by omega)
    rw [Nat.add_right_comm] at hpasses hp₂
    exact ⟨nodes₂, by rw [Machine.mergePasses, hpass, hpasses, Nat.add_assoc], hp₂⟩

end Pass

/-- The tree of a text is what the loop leaves after its last pass. -/
theorem passInv_buildTree (o : LeafOrder) {t : List Symbol} (ht : t ≠ []) :
    PassInv o t ((leafOrder o t).length - 1) (buildTree o t).nodes ∧
      (buildTree o t).root = 2 * (leafOrder o t).length - 2 := by
  have hk := leafOrder_length_pos (o := o) ht
  obtain ⟨nodes, hpasses, hp⟩ := (passInv_leaves o t).mergePasses (n := (leafOrder o t).length - 1) (by omega)
  rw [Nat.zero_add, passList_zero, passList_last nodes hk] at hpasses
  rw [Nat.zero_add] at hp
  rw [buildTree, hpasses]
  exact ⟨hp, rfl⟩

theorem leaves_buildTree (o : LeafOrder) {t : List Symbol} (ht : t ≠ []) :
    (buildTree o t).leaves = (leafOrder o t).length := by
  rw [TreeStore.leaves, countP_isLeaf, (passInv_buildTree o ht).1.leaf_syms]

theorem nnodes_buildTree (o : LeafOrder) {t : List Symbol} (ht : t ≠ []) :
    (buildTree o t).nnodes = 2 * (leafOrder o t).length - 1 := by
  have hk := leafOrder_length_pos (o := o) ht
  rw [TreeStore.nnodes, (passInv_buildTree o ht).1.nodes_length]
  omega

/-- The last pass leaves ROOT alone. -/
theorem passList_buildTree (o : LeafOrder) {t : List Symbol} (ht : t ≠ []) :
    passList (buildTree o t).nodes (leafOrder o t).length ((leafOrder o t).length - 1) = [(buildTree o t).root] := by
  rw [passList_last _ (leafOrder_length_pos ht), (passInv_buildTree o ht).2]

theorem getElem?_buildTree_leaf (o : LeafOrder) {t : List Symbol} (ht : t ≠ []) {i : Nat}
    (hi : i < (leafOrder o t).length) :
    (buildTree o t).nodes[i]? = some (leafNode t (leafOrder o t)[i]) := by
  have hlen : i < ((leafOrder o t).map (leafNode t)).length := by simpa using hi
  obtain ⟨more, hmore⟩ := (passInv_buildTree o ht).1.leaves_first
  rw [← hmore, List.getElem?_append_left hlen, List.getElem?_map, List.getElem?_eq_getElem hi, Option.map_some]

/-- The tree of a text that holds the delimiter is sound (10_state.md R44). -/
theorem treeSound_buildTree (o : LeafOrder) {t : List Symbol} (hd : delimSym ∈ t) : TreeSound (buildTree o t) := by
  have ht : t ≠ [] := List.ne_nil_of_mem hd
  have hk := leafOrder_length_pos (o := o) ht
  obtain ⟨hp, hroot⟩ := passInv_buildTree o ht
  have hf := hp.forest
  rw [passList_buildTree o ht] at hf
  have hnnodes := nnodes_buildTree o ht
  have hleaves := leaves_buildTree o ht
  exact {
    leaves_pos := by omega
    leaves_le := hleaves ▸ length_le_256_of_nodup (leafOrder_nodup o t)
    nodes_count := by rw [hnnodes, hleaves]
    root_last := by omega
    syms_distinct := hp.leaf_syms ▸ leafOrder_nodup o t
    node_sound := hf.node_sound
    one_parent := fun i hi => by
      rw [hf.parent_count]
      by_cases h : i = (buildTree o t).root <;> simp [h, hi]
    has_delim := by rw [hp.leaf_syms, mem_leafOrder]; exact hd }

/-- Settles O30: the loop of `buildTree` keeps `PassInv`, which after the last pass describes the tree; the sort
puts the two nodes that a pass merges in ascending order, below the rest. -/
theorem builtTreeIsSound : Obligations.BuiltTreeIsSound := by
  intro o t hd
  have ht : t ≠ [] := List.ne_nil_of_mem hd
  obtain ⟨hp, hroot⟩ := passInv_buildTree o ht
  have hlast := passList_buildTree o ht
  refine ⟨treeSound_buildTree o hd, leaves_buildTree o ht, fun i hi => getElem?_buildTree_leaf o ht hi,
    fun j hj => ?_, hlast, nnodes_buildTree o ht, hroot, ?_⟩
  · obtain ⟨f, v, l, r, rest, hnode, hsort⟩ := hp.merges j (by omega)
    have hasc := stableSortByFreq_ascending (buildTree o t).nodes
      (passList (buildTree o t).nodes (leafOrder o t).length j)
    rw [hsort] at hasc
    obtain ⟨hl, hasc⟩ := List.pairwise_cons.mp hasc
    obtain ⟨hr, -⟩ := List.pairwise_cons.mp hasc
    exact ⟨f, v, l, r, rest, hnode, hsort, hl r (by simp), hr⟩
  · have htotal := hp.total
    rw [hlast] at htotal
    simpa using htotal

end Sys2Proof.Machine

/-! State (10_state.md R38, 41_huffman.md R138 to R141, R148, R153): the codes of a built tree, and TREE_INFO. -/

namespace Sys2Proof.Machine

/-! ### Code lookup (41_huffman.md R138) -/

section Lookup
variable {nodes : List Node} (hsound : ∀ i, (h : i < nodes.length) → NodeSound nodes i nodes[i])
include hsound

/-- The lookup finds every symbol of the node it starts from: an internal node's set is its children's, which come
before it. -/
theorem exists_findCodeFrom {c : Symbol} {fuel n : Nat} (hn : n < nodes.length) (hfuel : n < fuel)
    (hc : hasSym (symsAt nodes n) c = true) : ∃ x, findCodeFrom nodes c fuel n = some x := by
  induction fuel generalizing n with
  | zero => omega
  | succ fuel ih =>
    have hnode := hsound n hn
    simp only [findCodeFrom, List.getElem?_eq_getElem hn]
    simp only [symsAt, List.getElem?_eq_getElem hn, Option.map_some, Option.getD_some] at hc
    split
    · next h => cases h
    · exact ⟨[], rfl⟩
    · next f v l r h =>
      simp only [Option.some.injEq] at h
      rw [h] at hnode hc
      obtain ⟨hl, hr, -, rfl, -⟩ := hnode
      rw [Node.syms, hasSym_or, Bool.or_eq_true] at hc
      by_cases hright : hasSym (symsAt nodes r) c = true
      · obtain ⟨x, hx⟩ := ih (hr.trans hn) (by omega) hright
        exact ⟨true :: x, by simp [hright, hx]⟩
      · have hleft := hc.resolve_right hright
        obtain ⟨x, hx⟩ := ih (hl.trans hn) (by omega) hleft
        exact ⟨false :: x, by simp [hright, hleft, hx]⟩

/-- Where the first `k` nodes are leaves, a code has at most one bit for each internal node up to where the lookup
starts. -/
theorem findCodeFrom_length_le {k : Nat} (hleaves : ∀ i, i < k → ∃ f v c, nodes[i]? = some (.leaf f v c)) {c : Symbol}
    {fuel n : Nat} {x : List Bool} (hx : findCodeFrom nodes c fuel n = some x) : x.length ≤ n + 1 - k := by
  induction fuel generalizing n x with
  | zero => cases hx
  | succ fuel ih =>
    unfold findCodeFrom at hx
    split at hx
    · cases hx
    · cases hx
      exact Nat.zero_le _
    · next f v l r hnode =>
      obtain ⟨hn, hget⟩ := List.getElem?_eq_some_iff.mp hnode
      have hchildren := hsound n hn
      rw [hget] at hchildren
      obtain ⟨hl, hr, -⟩ := hchildren
      have hk : k ≤ n := by
        by_contra hlt
        obtain ⟨f', v', c', hleaf⟩ := hleaves n (by omega)
        rw [hleaf] at hnode
        cases hnode
      split at hx
      · obtain ⟨y, hy, rfl⟩ := Option.map_eq_some_iff.mp hx
        have := ih hy
        rw [List.length_cons]
        omega
      · split at hx
        · obtain ⟨y, hy, rfl⟩ := Option.map_eq_some_iff.mp hx
          have := ih hy
          rw [List.length_cons]
          omega
        · cases hx

end Lookup

/-- Every symbol of a text has a code in its tree. -/
theorem exists_findCode_buildTree (o : LeafOrder) {t : List Symbol} {c : Symbol} (hc : c ∈ t) :
    ∃ x, findCode (buildTree o t) c = some x := by
  have ht : t ≠ [] := List.ne_nil_of_mem hc
  have hp := (passInv_buildTree o ht).1
  obtain ⟨n, hn, hsym⟩ := hp.covered c hc
  have hlt := hp.forest.roots_lt n hn
  rw [passList_buildTree o ht, List.mem_singleton] at hn
  subst hn
  rw [findCode]
  split
  · exact ⟨[false], rfl⟩
  · exact exists_findCodeFrom hp.forest.node_sound hlt hlt hsym

/-- A code of the tree of a text has at most `max(1, k − 1)` bits (41_huffman.md R153). -/
theorem findCode_buildTree_length_le {o : LeafOrder} {t : List Symbol} (ht : t ≠ []) {c : Symbol} {x : List Bool}
    (hx : findCode (buildTree o t) c = some x) : x.length ≤ max 1 ((leafOrder o t).length - 1) := by
  rw [findCode] at hx
  split at hx
  · cases hx
    exact le_max_left _ _
  · obtain ⟨hp, hroot⟩ := passInv_buildTree o ht
    have hleaves : ∀ i, i < (leafOrder o t).length → ∃ f v c, (buildTree o t).nodes[i]? = some (.leaf f v c) :=
      fun i hi => ⟨_, _, _, getElem?_buildTree_leaf o ht hi⟩
    have hlen := findCodeFrom_length_le hp.forest.node_sound hleaves hx
    omega

/-! ### TREE_INFO (10_state.md R38, 41_huffman.md R148) -/

theorem le_foldl_max {α : Type} (f : α → Nat) {l : List α} {c : α} (hc : c ∈ l) :
    f c ≤ l.foldl (fun m d => max m (f d)) 0 := by
  induction l using List.reverseRecOn with
  | nil => cases hc
  | append_singleton l d ih =>
    rw [List.foldl_append, List.foldl_cons, List.foldl_nil]
    rcases List.mem_append.mp hc with hc | hc
    · exact (ih hc).trans (le_max_left _ _)
    · rw [List.mem_singleton.mp hc]
      exact le_max_right _ _

theorem exists_eq_foldl_max {α : Type} (f : α → Nat) {l : List α} (hl : l ≠ []) :
    ∃ c ∈ l, f c = l.foldl (fun m d => max m (f d)) 0 := by
  induction l using List.reverseRecOn with
  | nil => exact absurd rfl hl
  | append_singleton l d ih =>
    rw [List.foldl_append, List.foldl_cons, List.foldl_nil]
    by_cases hle : l.foldl (fun m d => max m (f d)) 0 ≤ f d
    · exact ⟨d, by simp, (max_eq_right hle).symm⟩
    · obtain ⟨c, hc, hmax⟩ := ih fun h => hle (by simp [h])
      exact ⟨c, by simp [hc], by rw [hmax, max_eq_left (by omega)]⟩

/-- MAXLEN is at least the length of every leaf's code. -/
theorem length_le_maxLen {t : TreeStore} {c : Symbol} {x : List Bool} (hc : c ∈ leafSyms t.nodes)
    (hx : findCode t c = some x) : x.length ≤ t.maxLen := by
  have := le_foldl_max (fun c => ((findCode t c).map List.length).getD 0) hc
  simpa [TreeStore.maxLen, hx] using this

/-- Where every leaf's symbol has a code, MAXLEN is the length of one of them. -/
theorem exists_length_eq_maxLen {t : TreeStore} (hne : leafSyms t.nodes ≠ [])
    (hcodes : ∀ c ∈ leafSyms t.nodes, ∃ x, findCode t c = some x) :
    ∃ c ∈ leafSyms t.nodes, ∃ x, findCode t c = some x ∧ x.length = t.maxLen := by
  obtain ⟨c, hc, hlen⟩ := exists_eq_foldl_max (fun c => ((findCode t c).map List.length).getD 0) hne
  obtain ⟨x, hx⟩ := hcodes c hc
  exact ⟨c, hc, x, hx, by simpa [TreeStore.maxLen, hx] using hlen⟩

theorem toNat_append_eq_add {n m : Nat} (x : BitVec n) (y : BitVec m) :
    (x ++ y).toNat = 2 ^ m * x.toNat + y.toNat := by
  rw [BitVec.toNat_append, ← Nat.shiftLeft_add_eq_or_of_lt y.isLt, Nat.shiftLeft_eq, Nat.mul_comm]

/-- With a valid tree whose counts fit their fields, TREE_INFO is LEAVES and MAXLEN. -/
theorem treeInfo_toNat {s : State} (hv : s.treeValid = true) (hleaves : s.tree.leaves ≤ 256)
    (hmax : s.tree.maxLen ≤ 255) : s.treeInfo.toNat = s.tree.leaves + 65536 * s.tree.maxLen := by
  rw [State.treeInfo, if_pos hv]
  simp only [toNat_append_eq_add, BitVec.toNat_ofNat]
  omega

/-- Settles O34: LEAVES is the number of distinct symbols, and MAXLEN a length that some leaf's code has and none
exceeds; both fit their fields. -/
theorem treeInfoDescribesTheTree : Obligations.TreeInfoDescribesTheTree := by
  refine ⟨fun s hv => by rw [State.treeInfo, hv]; rfl, fun s o t hv ht htree => ?_⟩
  have hk := leafOrder_length_pos (o := o) ht
  have hk256 := length_le_256_of_nodup (leafOrder_nodup o t)
  have hsyms := (passInv_buildTree o ht).1.leaf_syms
  have hleaves := leaves_buildTree o ht
  have hne : leafSyms (buildTree o t).nodes ≠ [] := by
    rw [hsyms]
    exact List.ne_nil_of_length_pos hk
  obtain ⟨c, hc, x, hx, hlen⟩ := exists_length_eq_maxLen hne fun c hc =>
    exists_findCode_buildTree o (by rwa [hsyms, mem_leafOrder] at hc)
  have hbound := findCode_buildTree_length_le ht hx
  rw [hsyms, mem_leafOrder] at hc
  refine ⟨(buildTree o t).maxLen, ?_, fun d hd y hy => ?_, c, hc, x, by rw [htree, hx], hlen⟩
  · rw [treeInfo_toNat hv (by rw [htree]; omega) (by rw [htree]; omega), htree, hleaves]
  · rw [htree] at hy
    exact length_le_maxLen (by rwa [hsyms, mem_leafOrder]) hy

end Sys2Proof.Machine

/-! State (10_state.md R26 to R30, R34, R42, R44): what a step does to OVR, the text, the command lifecycle and the
tree store. -/

namespace Sys2Proof.Machine

/-! ### Where the stages of a command can end -/

/-- Every way a stage commits, with the code it commits under, meets `P`; a fault commits nothing. -/
def StageOutcome.EndsIn (P : ErrorCode → State → Prop) : StageOutcome → Prop
  | .ok t => P .noError t
  | .error e t => P e t
  | .fault _ => True

theorem StageOutcome.EndsIn.mono {P Q : ErrorCode → State → Prop} {o : StageOutcome} (ho : o.EndsIn P)
    (h : ∀ e t, P e t → Q e t) : o.EndsIn Q := by
  cases o with
  | ok t => exact h _ t ho
  | error e t => exact h e t ho
  | fault r => trivial

theorem StageOutcome.EndsIn.andThen {P Q : ErrorCode → State → Prop} {o : StageOutcome} {next : State → StageOutcome}
    (ho : o.EndsIn P) (herror : ∀ e u, P e u → Q e u) (hnext : ∀ u, P .noError u → (next u).EndsIn Q) :
    (o.andThen next).EndsIn Q := by
  cases o with
  | ok u => exact hnext u ho
  | error e u => exact herror e u ho
  | fault r => trivial

theorem StageOutcome.EndsIn.finish {P : ErrorCode → State → Prop} {o : StageOutcome} {t : State} (ho : o.EndsIn P)
    (h : o.finish = .next t) : ∃ e u, P e u ∧ t = u.complete e := by
  rcases StageOutcome.finish_next h with ⟨u, rfl, rfl⟩ | ⟨e, u, rfl, rfl⟩
  · exact ⟨_, u, ho, rfl⟩
  · exact ⟨e, u, ho, rfl⟩

section Stages
variable {P : ErrorCode → State → Prop} {s : State}

theorem encodeStage_endsIn {k : Kind} (hformat : P .format s.dropTree) (hoverflow : P .overflow s.dropTree)
    (hstream : ∀ bits, P .noError (s.dropTree.writeStream bits))
    (htree : k = .huff → ∀ m bits, P .noError
      ((s.dropTree.writeStream bits).storeTree (buildTree s.params.leafOrder (textOf m)))) :
    (encodeStage k s).EndsIn P := by
  cases h : encodeStage k s with
  | ok t =>
    obtain ⟨m, tree, bits, -, -, htext, -, ⟨-, rfl⟩ | ⟨T, rfl, rfl⟩⟩ := encodeStage_ok h
    · exact hstream bits
    · cases k with
      | raw => cases htext
      | caesar => cases htext
      | huff =>
        obtain ⟨r, hr, hpair⟩ := Option.map_eq_some_iff.mp htext
        obtain ⟨codes, -, rfl⟩ := Option.map_eq_some_iff.mp hr
        cases hpair
        exact htree rfl m codes
  | error e t =>
    obtain ⟨rfl, rfl | rfl⟩ := encodeStage_error h
    · exact hformat
    · exact hoverflow
  | fault r => trivial

theorem decodeStage_endsIn {k : Kind} (htruncated : P .truncated s) (hsession : P .session s)
    (htext : ∀ out found pos, P .noError (s.writeText out found pos)) : (decodeStage k s).EndsIn P := by
  cases h : decodeStage k s with
  | ok t =>
    obtain ⟨out, found, pos, rfl⟩ := decodeStage_ok h
    exact htext out found pos
  | error e t =>
    obtain ⟨rfl, rfl | ⟨rfl, -, -⟩⟩ := decodeStage_error h
    · exact htruncated
    · exact hsession
  | fault r => trivial

theorem writeStage_endsIn (hgeometry : P .geometry s) (hcapacity : P .capacity s)
    (hpix : ∀ m, P .noError { s with pix := m }) : (writeStage s).EndsIn P := by
  rcases writeStage_cases s with ⟨-, e⟩ | ⟨-, ⟨-, e⟩ | ⟨-, ⟨-, e⟩ | ⟨-, e⟩⟩⟩
  · rw [e]; exact hgeometry
  · rw [e]; exact hcapacity
  · rw [e]; trivial
  · rw [e]; exact hpix _

theorem readAllStage_endsIn (hgeometry : P .geometry s) (hstream : ∀ bits, P .noError (s.writeStream bits)) :
    (readAllStage s).EndsIn P := by
  rcases readAllStage_cases s with ⟨-, e⟩ | ⟨-, e⟩
  · rw [e]; exact hgeometry
  · rw [e]; exact hstream _

end Stages

/-! ### Commands by their operation (30_encoding.md R85) -/

/-- A command that completes has ended where its stages can end, for each of the seven operations. -/
theorem exec_endsIn {P : Instr → ErrorCode → State → Prop} {s : State}
    (encode : ∀ k, (encodeStage k s).EndsIn (P (encodeOf k))) (decode : ∀ k, (decodeStage k s).EndsIn (P (decodeOf k)))
    (write : (writeStage s).EndsIn (P .write)) (readall : (readAllStage s).EndsIn (P .readall))
    (embed : ∀ k, (embedStages k s).EndsIn (P (embedOf k)))
    (extract : ∀ k, (extractStages k s).EndsIn (P (extractOf k)))
    (newsession : (StageOutcome.ok s.dropTree).EndsIn (P .newsession)) {i : Instr} {t : State}
    (h : exec i s = .next t) : ∃ e u, P i e u ∧ t = u.complete e := by
  cases i with
  | encodeRaw => exact (encode .raw).finish h
  | encodeCaesar => exact (encode .caesar).finish h
  | encodeHuff => exact (encode .huff).finish h
  | decodeRaw => exact (decode .raw).finish h
  | decodeCaesar => exact (decode .caesar).finish h
  | decodeHuff => exact (decode .huff).finish h
  | write => exact write.finish h
  | readall => exact readall.finish h
  | embedRaw => exact (embed .raw).finish h
  | embedCaesar => exact (embed .caesar).finish h
  | embedHuff => exact (embed .huff).finish h
  | extractRaw => exact (extract .raw).finish h
  | extractCaesar => exact (extract .caesar).finish h
  | extractHuff => exact (extract .huff).finish h
  | newsession => exact newsession.finish h

@[simp] theorem op_encodeOf (k : Kind) : (encodeOf k).op = .encode := by cases k <;> rfl
@[simp] theorem op_embedOf (k : Kind) : (embedOf k).op = .embed := by cases k <;> rfl
@[simp] theorem kind_encodeOf (k : Kind) : (encodeOf k).kind = some k := by cases k <;> rfl
@[simp] theorem kind_embedOf (k : Kind) : (embedOf k).kind = some k := by cases k <;> rfl

/-! ### What no command writes (30_encoding.md R89) -/

theorem hostStateKept_refl (s : State) : HostStateKept s s :=
  ⟨rfl, rfl, rfl, rfl, rfl, rfl, fun _ => rfl, rfl, rfl, rfl, rfl, rfl⟩

theorem HostStateKept.trans {s t u : State} (hst : HostStateKept s t) (htu : HostStateKept t u) :
    HostStateKept s u := by
  obtain ⟨a1, a2, a3, a4, a5, a6, a7, a8, a9, a10, a11, a12⟩ := hst
  obtain ⟨b1, b2, b3, b4, b5, b6, b7, b8, b9, b10, b11, b12⟩ := htu
  exact ⟨b1.trans a1, b2.trans a2, b3.trans a3, b4.trans a4, b5.trans a5, b6.trans a6, fun k => (b7 k).trans (a7 k),
    b8.trans a8, b9.trans a9, b10.trans a10, b11.trans a11, b12.trans a12⟩

theorem encodeStage_hostStateKept (k : Kind) (s : State) : (encodeStage k s).EndsIn fun _ => HostStateKept s :=
  have h := hostStateKept_refl s
  encodeStage_endsIn h h (fun _ => h) fun _ _ _ => h

theorem decodeStage_hostStateKept (k : Kind) (s : State) : (decodeStage k s).EndsIn fun _ => HostStateKept s :=
  have h := hostStateKept_refl s
  decodeStage_endsIn h h fun _ _ _ => h

theorem writeStage_hostStateKept (s : State) : (writeStage s).EndsIn fun _ => HostStateKept s :=
  have h := hostStateKept_refl s
  writeStage_endsIn h h fun _ => h

theorem readAllStage_hostStateKept (s : State) : (readAllStage s).EndsIn fun _ => HostStateKept s :=
  have h := hostStateKept_refl s
  readAllStage_endsIn h fun _ => h

theorem exec_hostStateKept {i : Instr} {s t : State} (h : exec i s = .next t) : HostStateKept s t := by
  obtain ⟨e, u, hu, rfl⟩ := exec_endsIn (P := fun _ _ => HostStateKept s) (fun k => encodeStage_hostStateKept k s)
    (fun k => decodeStage_hostStateKept k s) (writeStage_hostStateKept s) (readAllStage_hostStateKept s)
    (fun k => (encodeStage_hostStateKept k s).andThen (fun _ _ hu => hu) fun u hu =>
      (writeStage_hostStateKept u).mono fun _ _ ht => hu.trans ht)
    (fun k => (readAllStage_hostStateKept s).andThen (fun _ _ hu => hu) fun u hu =>
      (decodeStage_hostStateKept k u).mono fun _ _ ht => hu.trans ht)
    (hostStateKept_refl s) h
  exact hu

/-! ### The text (10_state.md R34, R42) -/

theorem textKept_refl (s : State) : TextKept s s := ⟨rfl, rfl, rfl, fun _ => rfl⟩

theorem TextKept.trans {s t u : State} (hst : TextKept s t) (htu : TextKept t u) : TextKept s u := by
  obtain ⟨hlen, hpos, hdelim, htext⟩ := hst
  obtain ⟨hlen', hpos', hdelim', htext'⟩ := htu
  exact ⟨hlen'.trans hlen, hpos'.trans hpos, hdelim'.trans hdelim, fun k => (htext' k).trans (htext k)⟩

/-- How a command leaves the text: as it was, whatever code but INTERNAL it completes with, or replaced, without
error. -/
def TextKeptOrDecoded (s : State) (e : ErrorCode) (t : State) : Prop :=
  (TextKept s t ∧ e ≠ .internal) ∨ (e = .noError ∧ ∃ out, HoldsText t out)

theorem TextKept.then_keptOrDecoded {s t u : State} {e : ErrorCode} (hst : TextKept s t)
    (htu : TextKeptOrDecoded t e u) : TextKeptOrDecoded s e u :=
  htu.imp_left fun ⟨h, he⟩ => ⟨hst.trans h, he⟩

theorem encodeStage_textKept (k : Kind) (s : State) :
    (encodeStage k s).EndsIn fun e t => TextKept s t ∧ e ≠ .internal :=
  have h := textKept_refl s
  encodeStage_endsIn ⟨h, by decide⟩ ⟨h, by decide⟩ (fun _ => ⟨h, by decide⟩) fun _ _ _ => ⟨h, by decide⟩

theorem writeStage_textKept (s : State) : (writeStage s).EndsIn fun e t => TextKept s t ∧ e ≠ .internal :=
  have h := textKept_refl s
  writeStage_endsIn ⟨h, by decide⟩ ⟨h, by decide⟩ fun _ => ⟨h, by decide⟩

theorem readAllStage_textKept (s : State) : (readAllStage s).EndsIn fun e t => TextKept s t ∧ e ≠ .internal :=
  have h := textKept_refl s
  readAllStage_endsIn ⟨h, by decide⟩ fun _ => ⟨h, by decide⟩

theorem decodeStage_textKeptOrDecoded (k : Kind) (s : State) : (decodeStage k s).EndsIn (TextKeptOrDecoded s) :=
  have h := textKept_refl s
  decodeStage_endsIn (.inl ⟨h, by decide⟩) (.inl ⟨h, by decide⟩) fun out found pos =>
    .inr ⟨rfl, out, holdsText_writeText s out found pos⟩

theorem exec_textKeptOrDecoded {i : Instr} {s t : State} (h : exec i s = .next t) :
    ∃ e u, TextKeptOrDecoded s e u ∧ t = u.complete e :=
  exec_endsIn (P := fun _ => TextKeptOrDecoded s) (fun k => (encodeStage_textKept k s).mono fun _ _ => .inl)
    (fun k => decodeStage_textKeptOrDecoded k s) ((writeStage_textKept s).mono fun _ _ => .inl)
    ((readAllStage_textKept s).mono fun _ _ => .inl)
    (fun k => (encodeStage_textKept k s).andThen (fun _ _ => .inl) fun u hu =>
      (writeStage_textKept u).mono fun _ _ ht => hu.1.then_keptOrDecoded (.inl ht))
    (fun k => (readAllStage_textKept s).andThen (fun _ _ => .inl) fun u hu =>
      (decodeStage_textKeptOrDecoded k u).mono fun _ _ => hu.1.then_keptOrDecoded)
    (.inl ⟨textKept_refl s, by decide⟩) h

/-! ### The tree store (10_state.md R30) -/

theorem treeKept_refl (s : State) : TreeKept s s := ⟨rfl, rfl⟩

theorem TreeKept.trans {s t u : State} (hst : TreeKept s t) (htu : TreeKept t u) : TreeKept s u :=
  ⟨htu.1.trans hst.1, htu.2.trans hst.2⟩

/-- What an encode stage leaves: no valid tree, or, for HUFF, the tree of a text that holds the delimiter. -/
def TreeDroppedOrBuilt (k : Option Kind) (t : State) : Prop :=
  t.treeValid = false ∨ (k = some .huff ∧ ∃ o text, delimSym ∈ text ∧ t.tree = buildTree o text)

/-- How a command leaves the tree store: kept, unless it has an encode stage or is NEWSESSION. -/
def TreeKeptUnlessEncoded (s : State) (i : Instr) (t : State) : Prop :=
  TreeKept s t ∨ (i.op ∈ [Op.encode, .embed, .newsession] ∧ TreeDroppedOrBuilt i.kind t)

theorem TreeKept.treeDroppedOrBuilt {k : Option Kind} {t u : State} (htu : TreeKept t u)
    (ht : TreeDroppedOrBuilt k t) : TreeDroppedOrBuilt k u := by
  rwa [TreeDroppedOrBuilt, htu.1, htu.2]

theorem encodeStage_treeDroppedOrBuilt (k : Kind) (s : State) :
    (encodeStage k s).EndsIn fun _ => TreeDroppedOrBuilt (some k) :=
  encodeStage_endsIn (.inl rfl) (.inl rfl) (fun _ => .inl rfl) fun hk m bits =>
    .inr ⟨congrArg some hk, s.params.leafOrder, textOf m, by simp [textOf], rfl⟩

theorem decodeStage_treeKept (k : Kind) (s : State) : (decodeStage k s).EndsIn fun _ => TreeKept s :=
  have h := treeKept_refl s
  decodeStage_endsIn h h fun _ _ _ => h

theorem writeStage_treeKept (s : State) : (writeStage s).EndsIn fun _ => TreeKept s :=
  have h := treeKept_refl s
  writeStage_endsIn h h fun _ => h

theorem readAllStage_treeKept (s : State) : (readAllStage s).EndsIn fun _ => TreeKept s :=
  have h := treeKept_refl s
  readAllStage_endsIn h fun _ => h

theorem exec_treeKeptUnlessEncoded {i : Instr} {s t : State} (h : exec i s = .next t) :
    TreeKeptUnlessEncoded s i t := by
  have hencode (k : Kind) (u : State) (hu : TreeDroppedOrBuilt (some k) u) :
      TreeKeptUnlessEncoded s (encodeOf k) u := .inr ⟨by simp, by rwa [kind_encodeOf]⟩
  have hembed (k : Kind) (u : State) (hu : TreeDroppedOrBuilt (some k) u) :
      TreeKeptUnlessEncoded s (embedOf k) u := .inr ⟨by simp, by rwa [kind_embedOf]⟩
  obtain ⟨e, u, hu, rfl⟩ := exec_endsIn (P := fun i _ => TreeKeptUnlessEncoded s i)
    (fun k => (encodeStage_treeDroppedOrBuilt k s).mono fun _ => hencode k)
    (fun k => (decodeStage_treeKept k s).mono fun _ _ => .inl) ((writeStage_treeKept s).mono fun _ _ => .inl)
    ((readAllStage_treeKept s).mono fun _ _ => .inl)
    (fun k => (encodeStage_treeDroppedOrBuilt k s).andThen (fun _ => hembed k) fun u hu =>
      (writeStage_treeKept u).mono fun _ v hv => hembed k v (hv.treeDroppedOrBuilt hu))
    (fun k => (readAllStage_treeKept s).andThen (fun _ _ => .inl) fun u hu =>
      (decodeStage_treeKept k u).mono fun _ _ hv => .inl (hu.trans hv))
    (.inr ⟨by decide, .inl rfl⟩) h
  exact hu

/-! ### What an access of the host writes -/

/-- An access that answers a next state resets, writes a location, or touches nothing but the pixel memory and the
model's own lists. -/
theorem hostStep_cases {op : HostOp} {s t : State} (h : hostStep op s = .next t) :
    (op = .reset ∧ t = s.hardReset) ∨
    (∃ r v, op = .busWrite 32 (s.params.blockBase + r.offset) v ∧ t = s.writeReg r v) ∨
    ∃ m ops rs, t = { s with pix := m, hostOps := ops, reads := rs } := by
  cases op with
  | busRead width addr =>
    obtain ⟨r, v, -, -, -, rfl⟩ := hostRead_next h
    exact .inr (.inr ⟨_, _, _, rfl⟩)
  | busWrite width addr v =>
    obtain ⟨r, hr, -, rfl⟩ := hostWrite_next h
    obtain ⟨rfl, rfl, -, -⟩ := busTarget_reg_exists hr
    exact .inr (.inl ⟨r, v, rfl, rfl⟩)
  | pixRead a =>
    obtain ⟨-, -, rfl⟩ := hostPixRead_next h
    exact .inr (.inr ⟨_, _, _, rfl⟩)
  | pixWrite a v =>
    obtain ⟨-, -, rfl⟩ := hostPixWrite_next h
    exact .inr (.inr ⟨_, _, _, rfl⟩)
  | poll => rcases hostPoll_next h with rfl | rfl <;> exact .inr (.inr ⟨_, _, _, rfl⟩)
  | reset =>
    cases h
    exact .inl ⟨rfl, rfl⟩

/-- The engine's move starts from a state that differs in `turns` only. -/
theorem engineStart_eq (s : State) : ∃ ts, engineStart s = { s with turns := ts } := by
  unfold engineStart
  split
  · exact ⟨s.turns, rfl⟩
  · exact ⟨_, rfl⟩

/-- A write of a location keeps the tree store. -/
theorem treeKept_writeReg (s : State) (r : WindowReg) (v : Word) : TreeKept s (s.writeReg r v) := by
  cases r with
  | cmd =>
    rw [State.writeReg, State.writeCmd]
    split <;> exact treeKept_refl s
  | msgLen | bitLen =>
    rw [State.writeReg]
    split <;> exact treeKept_refl s
  | status | config | textLen | decPos | gridRows | gridCols | treeInfo | msg | bitw | text => exact treeKept_refl s

/-- A step keeps the tree store, unless it resets or runs a command that has an encode stage or is NEWSESSION. -/
theorem step_tree_cases {s t : State} (h : step s = .next t) :
    (ResetTurn s ∧ t.treeValid = false) ∨ TreeKept s t ∨
      EngineTurn s ∧ ∃ i, decode s.latched = .ok i ∧ i.op ∈ [Op.encode, .embed, .newsession] ∧
        TreeDroppedOrBuilt i.kind t := by
  obtain ⟨ts, hstart⟩ := engineStart_eq s
  rcases step_cases h with
    ⟨r, rest, hf, ho, rfl⟩ | ⟨-, rfl⟩ | ⟨hturn, ⟨e, -, rfl⟩ | ⟨i, hi, hexec | ⟨r, -, rfl⟩⟩⟩ |
      ⟨op, hturn, hop | ⟨r, -, rfl⟩⟩
  · exact .inl ⟨.inr ⟨by simp [hf], by simp [ho]⟩, rfl⟩
  · exact .inr (.inl (treeKept_refl _))
  · rw [hstart]
    exact .inr (.inl (treeKept_refl s))
  · rw [hstart] at hexec
    rcases exec_treeKeptUnlessEncoded hexec with hkept | ⟨hop, htree⟩
    · exact .inr (.inl hkept)
    · exact .inr (.inr ⟨hturn, i, hi, hop, htree⟩)
  · rw [hstart]
    exact .inr (.inl (treeKept_refl s))
  · rcases hostStep_cases hop with ⟨rfl, rfl⟩ | ⟨r, v, -, rfl⟩ | ⟨m, ops, rs, rfl⟩
    · exact .inl ⟨.inl hturn, rfl⟩
    · exact .inr (.inl (treeKept_writeReg (hostStart s) r v))
    · exact .inr (.inl (treeKept_refl s))
  · exact .inr (.inl (treeKept_refl s))

/-- Settles O58: a step keeps the tree store, drops TREE_VALID, or stores the tree of a text that holds the delimiter,
which is sound. -/
theorem stepKeepsTreeSound : Obligations.StepKeepsTreeSound := by
  intro s t hs h hv
  rcases step_tree_cases h with ⟨-, hdrop⟩ | ⟨hvalid, htree⟩ | ⟨-, i, -, -, hdrop | ⟨-, o, text, hdelim, htree⟩⟩
  · simp [hdrop] at hv
  · rw [htree]
    exact hs (hvalid ▸ hv)
  · simp [hdrop] at hv
  · rw [htree]
    exact treeSound_buildTree o hdelim

/-- Settles O54: of the moves that change TREE_VALID, only a Huffman encode stage sets it. -/
theorem treeValidChangesOnlyByEncodeOrSession : Obligations.TreeValidChangesOnlyByEncodeOrSession := by
  intro s t h hne
  rcases step_tree_cases h with ⟨hreset, -⟩ | ⟨hvalid, -⟩ | ⟨hturn, i, hi, hop, htree⟩
  · exact .inl hreset
  · exact absurd hvalid hne
  · refine .inr ⟨hturn, i, hi, hop, fun hv => ?_⟩
    rcases htree with hdrop | ⟨hkind, -⟩
    · simp [hdrop] at hv
    · exact hkind

/-! ### The command lifecycle (30_encoding.md R84, R86) -/

theorem TextReadable.of_textKept {s t : State} (hs : TextReadable s) (h : TextKept s t) : TextReadable t := by
  obtain ⟨hlen, -, -, htext⟩ := h
  intro k hk
  rw [htext]
  exact hs k (hlen ▸ hk)

theorem HoldsText.textReadable {s : State} {out : List Symbol} (h : HoldsText s out) : TextReadable s := by
  obtain ⟨hlen, htext⟩ := h
  exact fun k hk => ⟨_, htext k (hlen ▸ hk)⟩

/-- A completion is sound where DELIM can only be set without error. -/
theorem lifecycleSound_complete {u : State} {e : ErrorCode} (hdelim : u.delim = true → e = .noError)
    (he : e ≠ .internal) : LifecycleSound (u.complete e) :=
  ⟨fun h => by simp at h, fun h => ⟨rfl, hdelim h⟩, he⟩

/-- A command starts with DELIM clear, and sets it only where it completes without error. -/
theorem exec_keepsLifecycle {i : Instr} {s t : State} (hdelim : s.delim = false) (hs : TextReadable s)
    (h : exec i s = .next t) : LifecycleSound t ∧ TextReadable t := by
  obtain ⟨e, u, ⟨hkept, he⟩ | ⟨rfl, out, hout⟩, rfl⟩ := exec_textKeptOrDecoded h
  · have hread := hs.of_textKept hkept
    obtain ⟨-, -, hd, -⟩ := hkept
    exact ⟨lifecycleSound_complete (fun hu => by simp [hd, hdelim] at hu) he, hread⟩
  · exact ⟨lifecycleSound_complete (fun _ => rfl) (by decide), hout.textReadable⟩

/-- An accepted command word clears DONE, ERR and DELIM; no other write touches them. -/
theorem lifecycleSound_writeReg {s : State} (hs : LifecycleSound s) (r : WindowReg) (v : Word) :
    LifecycleSound (s.writeReg r v) := by
  cases r with
  | cmd =>
    rw [State.writeReg, State.writeCmd]
    split
    · exact hs
    · exact ⟨fun _ => ⟨rfl, rfl, rfl⟩, fun h => by simp at h, by simp⟩
  | msgLen | bitLen =>
    rw [State.writeReg]
    split <;> exact hs
  | status | config | textLen | decPos | gridRows | gridCols | treeInfo | msg | bitw | text => exact hs

/-- No write touches the text or its length. -/
theorem textReadable_writeReg {s : State} (hs : TextReadable s) (r : WindowReg) (v : Word) :
    TextReadable (s.writeReg r v) := by
  cases r with
  | cmd =>
    rw [State.writeReg, State.writeCmd]
    split <;> exact hs
  | msgLen | bitLen =>
    rw [State.writeReg]
    split <;> exact hs
  | status | config | textLen | decPos | gridRows | gridCols | treeInfo | msg | bitw | text => exact hs

theorem hardReset_keepsLifecycle (s : State) : LifecycleSound s.hardReset ∧ TextReadable s.hardReset :=
  ⟨⟨fun h => absurd h Bool.false_ne_true, fun h => absurd h Bool.false_ne_true,
    by rw [State.hardReset_err]; decide⟩, fun k hk => absurd hk (Nat.not_lt_zero k)⟩

/-- Settles O59: reset, the engine's completion and the host's access each leave a sound lifecycle and a readable
text, and a faulting move changes none of it. -/
theorem stepKeepsLifecycle : Obligations.StepKeepsLifecycle := by
  intro s t hs htext h
  obtain ⟨ts, hstart⟩ := engineStart_eq s
  rcases step_cases h with
    ⟨r, rest, -, -, rfl⟩ | ⟨-, rfl⟩ | ⟨⟨-, hpending, -⟩, ⟨e, -, rfl⟩ | ⟨i, -, hexec | ⟨r, -, rfl⟩⟩⟩ |
      ⟨op, -, hop | ⟨r, -, rfl⟩⟩
  · exact hardReset_keepsLifecycle _
  · exact ⟨hs, htext⟩
  · rw [hstart]
    obtain ⟨-, -, hdelim⟩ := hs.1 hpending
    exact ⟨lifecycleSound_complete (fun hd => by simp [hdelim] at hd) (by decide), htext⟩
  · rw [hstart] at hexec
    obtain ⟨-, -, hdelim⟩ := hs.1 hpending
    exact exec_keepsLifecycle (s := { s with turns := ts }) hdelim htext hexec
  · rw [hstart]
    exact ⟨hs, htext⟩
  · rcases hostStep_cases hop with ⟨-, rfl⟩ | ⟨r, v, -, rfl⟩ | ⟨m, ops, rs, rfl⟩
    · exact hardReset_keepsLifecycle _
    · exact ⟨lifecycleSound_writeReg (s := hostStart s) hs r v, textReadable_writeReg (s := hostStart s) htext r v⟩
    · exact ⟨hs, htext⟩
  · exact ⟨hs, htext⟩

end Sys2Proof.Machine

/-! State (10_state.md R22 to R48): the register window, the buffers and the pixel memory as the host sees them, OVR and
STATUS, and the decodes that need an unwritten bit. -/

namespace Sys2Proof.Machine

/-! ### The host's accesses where no hazard forbids them (70_reset_and_hazards.md R246) -/

section Access
variable {s : State} {r : WindowReg} {addr : Nat} (hr : busTarget s.params 32 addr = .reg r)
include hr

theorem step_busWrite_allowed {v : Word} (ha : s.pending = false ∨ r.allowedWhileBusy = true)
    (h : HostTurn s (.busWrite 32 addr v)) : step s = .next ((hostStart s).writeReg r v) := by
  have hazard : (s.pending && !r.allowedWhileBusy) = false := by rcases ha with ha | ha <;> simp [ha]
  rw [step_busWrite hr h, hazard]
  rfl

theorem step_busRead_written {v : Word} (hp : s.pending = false) (hv : s.readReg r = some v)
    (h : HostTurn s (.busRead 32 addr)) : step s = .next { hostStart s with reads := v :: s.reads } := by
  rw [step_busRead hr h, hp, hv]
  rfl

theorem step_busRead_unwritten (hp : s.pending = false) (hv : s.readReg r = none)
    (h : HostTurn s (.busRead 32 addr)) : step s = .next { hostStart s with faulted := some .unwrittenRead } := by
  rw [step_busRead hr h, hp, hv]
  rfl

end Access

/-! ### OVR and STATUS (10_state.md R24, R28) -/

theorem busTarget_cmd (p : Params) : busTarget p 32 p.blockBase = .reg .cmd := busTarget_register p .cmd (by decide)

theorem busTarget_status (p : Params) : busTarget p 32 (p.blockBase + 4) = .reg .status :=
  busTarget_register p .status (by decide)

/-- A host write of STATUS clears OVR with bit 3, a command pending or not. -/
theorem step_writeStatus {s : State} {v : Word} (h : HostTurn s (.busWrite 32 (s.params.blockBase + 4) v)) :
    step s = .next { hostStart s with ovr := s.ovr && !v.getLsbD 3 } :=
  step_busWrite_allowed (busTarget_status s.params) (.inr rfl) h

/-- The one write that clears OVR is that of STATUS with bit 3 set. -/
theorem status_of_writeReg_clears_ovr {s : State} {r : WindowReg} {v : Word} (hs : s.ovr = true)
    (h : (s.writeReg r v).ovr = false) : r = .status ∧ v.getLsbD 3 = true := by
  cases r with
  | cmd =>
    rw [State.writeReg, State.writeCmd] at h
    split at h
    · cases h
    · exact absurd (hs.symm.trans h) (by decide)
  | status =>
    rw [State.writeReg, State.writeStatus] at h
    exact ⟨rfl, by simpa [hs] using h⟩
  | msgLen | bitLen =>
    rw [State.writeReg] at h
    split at h <;> exact absurd (hs.symm.trans h) (by decide)
  | config | textLen | decPos | gridRows | gridCols | treeInfo | msg | bitw | text =>
    exact absurd (hs.symm.trans h) (by decide)

/-- Of all moves only that write and reset clear OVR. -/
theorem step_clears_ovr {s t : State} (h : step s = .next t) (hs : s.ovr = true) (ht : t.ovr = false) :
    ResetTurn s ∨ ∃ v : Word, HostTurn s (.busWrite 32 (s.params.blockBase + 4) v) ∧ v.getLsbD 3 = true := by
  have hkept {u : State} (hu : u.ovr = s.ovr) : u.ovr ≠ false := by simp [hu, hs]
  obtain ⟨ts, hstart⟩ := engineStart_eq s
  rcases step_cases h with
    ⟨r, rest, hf, ho, rfl⟩ | ⟨-, rfl⟩ | ⟨-, ⟨e, -, rfl⟩ | ⟨i, -, hexec | ⟨r, -, rfl⟩⟩⟩ | ⟨op, hturn, hop | ⟨r, -, rfl⟩⟩
  · exact .inl (.inr ⟨by simp [hf], by simp [ho]⟩)
  · exact absurd ht (hkept rfl)
  · rw [hstart] at ht
    exact absurd ht (hkept rfl)
  · rw [hstart] at hexec
    obtain ⟨-, hovr, -⟩ := exec_hostStateKept hexec
    exact absurd ht (hkept hovr)
  · rw [hstart] at ht
    exact absurd ht (hkept rfl)
  · rcases hostStep_cases hop with ⟨rfl, rfl⟩ | ⟨r, v, rfl, rfl⟩ | ⟨m, ops, rs, rfl⟩
    · exact .inl (.inl hturn)
    · obtain ⟨rfl, hv⟩ := status_of_writeReg_clears_ovr (s := hostStart s) hs ht
      exact .inr ⟨v, hturn, hv⟩
    · exact absurd ht (hkept rfl)
  · exact absurd ht (hkept rfl)

/-- Settles O8: the writes of CMD and STATUS and reset do as said, and no other move clears OVR. -/
theorem ovrIsSticky : Obligations.OvrIsSticky := by
  refine ⟨rfl, fun s w hturn hp => ?_, fun s v hturn hv => ?_, fun s hturn => ?_, fun s t => step_clears_ovr⟩
  · refine ⟨_, step_busWrite_allowed (busTarget_cmd s.params) (.inr rfl) hturn, ?_⟩
    rw [State.writeReg, State.writeCmd, if_pos (show (hostStart s).pending = true from hp)]
    rfl
  · exact ⟨_, step_writeStatus hturn, by simp [hv]⟩
  · exact ⟨_, step_of_resetTurn hturn, rfl⟩

/-- STATUS is its fields at their bit positions. -/
theorem status_toNat (s : State) :
    s.status.toNat = s.pending.toNat + 2 * s.done.toNat + 4 * s.delim.toNat + 8 * s.ovr.toNat +
      16 * s.err.code.toNat + 256 * s.treeValid.toNat := by
  simp only [State.status, State.busy, toNat_append_eq_add, BitVec.toNat_ofBool, BitVec.toNat_ofNat]
  omega

/-- Settles O9: the fields of STATUS are its parts, and a write of it does what `State.writeStatus` says. -/
theorem statusFieldsAndWrite : Obligations.StatusFieldsAndWrite :=
  ⟨status_toNat, rfl, fun _ _ => step_writeStatus⟩

/-! ### Registers (10_state.md R31 to R39) -/

/-- Settles O11: with no command pending a write does what `State.writeReg` says of the location its offset names. -/
theorem registerWritesKeepLegalValues : Obligations.RegisterWritesKeepLegalValues := by
  intro s v hp
  have hwrite (r : WindowReg) (hr : r.offset < 0x28) (h : HostTurn s (.busWrite 32 (s.params.blockBase + r.offset) v)) :
      step s = .next ((hostStart s).writeReg r v) :=
    step_busWrite_allowed (busTarget_register s.params r hr) (.inl hp) h
  simp only [BitVec.ofNat_toNat]
  refine ⟨hwrite .config (by decide), hwrite .gridRows (by decide), hwrite .gridCols (by decide),
    hwrite .msgLen (by decide), hwrite .bitLen (by decide), fun off hoff h => ?_, fun k hparams hk h => ?_⟩
  · simp only [List.mem_cons, List.not_mem_nil, or_false] at hoff
    rcases hoff with rfl | rfl | rfl
    · exact hwrite .textLen (by decide) h
    · exact hwrite .decPos (by decide) h
    · exact hwrite .treeInfo (by decide) h
  · have htarget := busTarget_existing hparams (.text k) ((WindowReg.exists_text s.params k).mpr hk)
    rw [Nat.add_assoc] at h
    exact step_busWrite_allowed htarget (.inl hp) h

/-- Settles O12: the value of each row is what `State.readReg` says of the register at that offset. -/
theorem registerReadsReturnTheirValues : Obligations.RegisterReadsReturnTheirValues := by
  intro s off v hp hrow h
  have hread (r : WindowReg) (hr : r.offset < 0x28) (hoff : off = r.offset) (hv : s.readReg r = some v) :
      step s = .next { hostStart s with reads := v :: s.reads } :=
    step_busRead_written (busTarget_register s.params r hr) hp hv (hoff ▸ h)
  simp only [BitVec.ofNat_toNat, List.mem_cons, List.not_mem_nil, or_false, Prod.mk.injEq] at hrow
  rcases hrow with ⟨hoff, rfl⟩ | ⟨hoff, rfl⟩ | ⟨hoff, rfl⟩ | ⟨hoff, rfl⟩ | ⟨hoff, rfl⟩ | ⟨hoff, rfl⟩ | ⟨hoff, rfl⟩ |
    ⟨hoff, rfl⟩ | ⟨hoff, rfl⟩ | ⟨hoff, rfl⟩
  · exact hread .cmd (by decide) hoff rfl
  · exact hread .status (by decide) hoff rfl
  · exact hread .msgLen (by decide) hoff rfl
  · exact hread .bitLen (by decide) hoff rfl
  · exact hread .textLen (by decide) hoff rfl
  · exact hread .decPos (by decide) hoff rfl
  · exact hread .config (by decide) hoff rfl
  · exact hread .gridRows (by decide) hoff rfl
  · exact hread .gridCols (by decide) hoff rfl
  · exact hread .treeInfo (by decide) hoff rfl

/-! ### Buffers (10_state.md R40 to R42, R48) -/

/-- Settles O13: an entry below its depth is the location its offset names, and reads as written or faults. -/
theorem bufferReadsReturnOrFault : Obligations.BufferReadsReturnOrFault := by
  intro s k hparams hp
  have hread (r : WindowReg) (hexists : r.exists s.params = true)
      (h : HostTurn s (.busRead 32 (s.params.blockBase + r.offset))) :
      (∀ v, s.readReg r = some v → step s = .next { hostStart s with reads := v :: s.reads }) ∧
        (s.readReg r = none → step s = .next { hostStart s with faulted := some .unwrittenRead }) :=
    have htarget := busTarget_existing hparams r hexists
    ⟨fun v hv => step_busRead_written htarget hp hv h, fun hv => step_busRead_unwritten htarget hp hv h⟩
  simp only [Nat.add_assoc]
  refine ⟨fun hk => ?_, fun hk => ?_, fun hk => ?_⟩
  · exact hread (.msg k) ((WindowReg.exists_msg s.params k).mpr hk)
  · exact hread (.bitw k) ((WindowReg.exists_bitw s.params k).mpr hk)
  · exact hread (.text k) ((WindowReg.exists_text s.params k).mpr hk)

theorem readReg_writeReg_msg (s : State) (k : Nat) (v : Word) (r : WindowReg) :
    (s.writeReg (.msg k) v).readReg r = if r = .msg k then some v else s.readReg r := by
  cases r with
  | msg j => simp [State.readReg, State.writeReg]
  | _ => rfl

theorem readReg_writeReg_bitw (s : State) (k : Nat) (v : Word) (r : WindowReg) :
    (s.writeReg (.bitw k) v).readReg r = if r = .bitw k then some v else s.readReg r := by
  cases r with
  | bitw j => simp [State.readReg, State.writeReg]
  | _ => rfl

/-- The input lists the host's move uses up are no part of what a location reads. -/
theorem readReg_hostStart (s : State) (r : WindowReg) : (hostStart s).readReg r = s.readReg r := by
  cases r <;> rfl

/-- Settles O14: the write is that of the entry, and reading after it goes by the buffer's cells. -/
theorem bufferWriteThenRead : Obligations.BufferWriteThenRead := by
  intro s v k hparams hp
  have hwrite (r : WindowReg) (hexists : r.exists s.params = true)
      (h : HostTurn s (.busWrite 32 (s.params.blockBase + r.offset) v)) :
      step s = .next ((hostStart s).writeReg r v) :=
    step_busWrite_allowed (busTarget_existing hparams r hexists) (.inl hp) h
  simp only [Nat.add_assoc]
  refine ⟨fun hk h => ?_, fun hk h => ?_⟩
  · refine ⟨_, hwrite (.msg k) ((WindowReg.exists_msg s.params k).mpr hk) h, fun r => ?_⟩
    rw [readReg_writeReg_msg, readReg_hostStart]
  · refine ⟨_, hwrite (.bitw k) ((WindowReg.exists_bitw s.params k).mpr hk) h, fun r => ?_⟩
    rw [readReg_writeReg_bitw, readReg_hostStart]

/-! ### The pixel memory (10_state.md R45) -/

theorem hostPixRead_idle {s : State} {a : Nat} (hp : s.pending = false) (ha : a < s.params.gridBytesMax) :
    hostPixRead a s = .next (s.deliver ((memRead s.pix a).setWidth 32)) := by
  rw [hostPixRead, if_neg (by omega), State.busy, hp]
  rfl

theorem hostPixWrite_idle {s : State} {a : Nat} (v : Byte) (hp : s.pending = false) (ha : a < s.params.gridBytesMax) :
    hostPixWrite a v s = .next { s with pix := memWrite s.pix a v } := by
  rw [hostPixWrite, if_neg (by omega), State.busy, hp]
  rfl

/-- Settles O18: an access within the pixel memory reads or writes its one byte. -/
theorem hostPixelReadsAndWrites : Obligations.HostPixelReadsAndWrites := by
  intro s a v hp ha
  refine ⟨fun h => ?_, fun h => ⟨memWrite s.pix a v, ?_, fun b => memRead_memWrite s.pix a b v⟩⟩
  · rw [step_of_hostTurn h, hostStep, hostPixRead_idle (s := hostStart s) hp ha, BitVec.ofNat_toNat]
    rfl
  · rw [step_of_hostTurn h, hostStep, hostPixWrite_idle (s := hostStart s) v hp ha]
    rfl

/-! ### Decodes that need an unwritten bit (10_state.md R41, R48) -/

/-- A raw stage that has met no delimiter in the written bits faults where a complete chunk is not all written. -/
theorem fixedDecodeStage_unwritten {s : State} (decoder : List Bool → Decoded)
    (hf : (rawDecode s.writtenPrefix).found = false) (hl : s.writtenPrefix.length / 8 < s.bitLen / 8) :
    fixedDecodeStage decoder s = .fault .unwrittenRead := by
  rw [fixedDecodeStage, if_pos ⟨hf, hl⟩]

/-- A walk that has met no delimiter in the written bits faults where it may examine more. -/
theorem huffDecodeStage_unwritten {s : State} {d : Decoded} (hv : s.treeValid = true)
    (hl : s.writtenPrefix.length < decodeBound s.params.huffBound s.bitLen)
    (hw : huffWalk s.tree s.tree.root 0 s.writtenPrefix = some d) (hf : d.found = false) :
    huffDecodeStage s = .fault .unwrittenRead := by
  have htake : s.writtenPrefix.take (decodeBound s.params.huffBound s.bitLen) = s.writtenPrefix :=
    List.take_of_length_le hl.le
  simp [huffDecodeStage, hv, htake, hw, hf, hl]

/-- Settles O41: the bits before the unwritten one are all that a decode can read, and it has not stopped within
them. -/
theorem decodeFaultsOnConsumedUnwrittenBit : Obligations.DecodeFaultsOnConsumedUnwrittenBit := by
  intro s bits hstarts hlen hnone
  obtain rfl := writtenPrefix_of_unwritten hstarts hnone
  refine ⟨fun hf hl => ⟨?_, ?_⟩, fun d hv hl hw hf => ?_⟩
  · exact congrArg StageOutcome.finish (fixedDecodeStage_unwritten rawDecode hf hl)
  · exact congrArg StageOutcome.finish (fixedDecodeStage_unwritten (fun b => caesarDecode b s.shift) hf hl)
  · exact congrArg StageOutcome.finish (huffDecodeStage_unwritten hv hl hw hf)

end Sys2Proof.Machine

/-! Memory (20_memory.md R60 to R74): which accesses of the window are bus errors, that a read changes nothing, and what is
left to the host while a command is pending. -/

namespace Sys2Proof.Machine

/-- The host's turn performs its operation or enters the fault state the operation answers. -/
theorem step_next_of_hostTurn {s t : State} {op : HostOp} (hturn : HostTurn s op) (h : step s = .next t) :
    hostStep op (hostStart s) = .next t ∨ ∃ r, t = (hostStart s).enterFault r := by
  rw [step_of_hostTurn hturn] at h
  exact (settleMove_next h).imp_right fun ⟨r, _, ht⟩ => ⟨r, ht⟩

/-! ### Bus errors (20_memory.md R61, 10_state.md R22, R39) -/

section Unmapped
variable {p : Params} {off : Nat}

theorem ifExists_of_not_exists {r : WindowReg} (h : ¬ r.exists p = true) : ifExists p r = none :=
  if_neg h

theorem windowReg_of_reserved (h : 0x28 ≤ off) (hend : off < 0x100000) : windowReg p off = none := by
  obtain ⟨n, hn⟩ : ∃ n, off / 4 = n + 10 := ⟨off / 4 - 10, by omega⟩
  rw [windowReg, if_pos hend, hn]
  rfl

theorem windowReg_of_pastMsg (h : 0x100000 + 4 * p.msgMax ≤ off) (hend : off < 0x200000) : windowReg p off = none := by
  rw [windowReg, if_neg (by omega), if_pos hend]
  exact ifExists_of_not_exists ((WindowReg.exists_msg p _).not.mpr (by omega))

theorem windowReg_of_pastBitw (h : 0x200000 + 4 * wordCount p.bitMax ≤ off) (hend : off < 0x300000) :
    windowReg p off = none := by
  rw [windowReg, if_neg (by omega), if_neg (by omega), if_pos hend]
  exact ifExists_of_not_exists ((WindowReg.exists_bitw p _).not.mpr (by omega))

theorem windowReg_of_pastText (h : 0x300000 + 4 * p.textMax ≤ off) (hend : off < 0x400000) : windowReg p off = none := by
  rw [windowReg, if_neg (by omega), if_neg (by omega), if_neg (by omega), if_pos hend]
  exact ifExists_of_not_exists ((WindowReg.exists_text p _).not.mpr (by omega))

end Unmapped

/-- A read or a write of an address that is a bus error faults, a command pending or not. -/
theorem step_of_busError {s : State} {op : HostOp} {width addr : Nat} (hturn : HostTurn s op)
    (hop : op = .busRead width addr ∨ ∃ v, op = .busWrite width addr v)
    (htarget : busTarget s.params width addr = .busError) :
    step s = .next ((hostStart s).enterFault .hostBusError) := by
  have htarget' : busTarget (hostStart s).params width addr = .busError := htarget
  rw [step_of_hostTurn hturn]
  rcases hop with rfl | ⟨v, rfl⟩
  · rw [hostStep, hostRead, htarget']
    rfl
  · rw [hostStep, hostWrite, htarget']
    rfl

/-- Settles O16: an offset in the reserved range or past a buffer's depth names no location, so each of these accesses
has a bus error as its target. -/
theorem badWindowAccessIsBusError : Obligations.BadWindowAccessIsBusError := by
  intro s width off op _ hoff hop hbad hturn
  refine step_of_busError hturn hop (busTarget_of_none hoff ?_)
  rcases hbad with hwidth | halign | ⟨h, hend⟩ | ⟨h, hend⟩ | ⟨h, hend⟩ | h
  · exact .inl hwidth
  · exact .inr (.inl halign)
  · exact .inr (.inr (windowReg_of_reserved h hend))
  · exact .inr (.inr (windowReg_of_pastMsg h hend))
  · exact .inr (.inr (windowReg_of_pastBitw h hend))
  · exact .inr (.inr (windowReg_of_pastText h hoff))

/-! ### Reads (20_memory.md R67) -/

/-- The operations of the host that read: of the window, of the pixel memory, and a poll. -/
def IsHostRead (op : HostOp) : Prop :=
  (∃ width addr, op = .busRead width addr) ∨ (∃ a, op = .pixRead a) ∨ op = .poll

/-- A read that answers only delivers a value; a poll may also stay in the list of operations. -/
theorem hostStep_read {op : HostOp} {s t : State} (hop : IsHostRead op) (h : hostStep op s = .next t) :
    ∃ ops rs, t = { s with hostOps := ops, reads := rs } := by
  rcases hop with ⟨width, addr, rfl⟩ | ⟨a, rfl⟩ | rfl
  · obtain ⟨r, v, -, -, -, rfl⟩ := hostRead_next h
    exact ⟨_, _, rfl⟩
  · obtain ⟨-, -, rfl⟩ := hostPixRead_next h
    exact ⟨_, _, rfl⟩
  · rcases hostPoll_next h with rfl | rfl <;> exact ⟨_, _, rfl⟩

/-- Settles O15: the read delivers a value or faults, and either leaves the block as it was. -/
theorem hostReadHasNoSideEffect : Obligations.HostReadHasNoSideEffect := by
  intro s t op hturn hop h
  rcases step_next_of_hostTurn hturn h with hread | ⟨r, rfl⟩
  · obtain ⟨ops, rs, rfl⟩ := hostStep_read hop hread
    rfl
  · rfl

/-! ### While a command is pending (20_memory.md R73, 70_reset_and_hazards.md R246 to R248) -/

/-- The writes allowed while BUSY = 1 are a dropped command, which sets OVR, and one of STATUS, which may clear it. -/
theorem writeReg_busy {s : State} {r : WindowReg} (v : Word) (hp : s.pending = true)
    (hallowed : r.allowedWhileBusy = true) : ∃ o, s.writeReg r v = { s with ovr := o } := by
  cases r with
  | cmd => exact ⟨true, if_pos hp⟩
  | status => exact ⟨_, rfl⟩
  | config | msgLen | bitLen | textLen | decPos | gridRows | gridCols | treeInfo | msg | bitw | text => cases hallowed

/-- An operation that answers while a command is pending reads, or makes an allowed write; a pixel write is a hazard. -/
theorem hostStep_busy {op : HostOp} {s t : State} (hop : op ≠ .reset) (hp : s.pending = true)
    (h : hostStep op s = .next t) : ∃ o ops rs, t = { s with ovr := o, hostOps := ops, reads := rs } := by
  have hread (hop : IsHostRead op) : ∃ o ops rs, t = { s with ovr := o, hostOps := ops, reads := rs } :=
    ⟨s.ovr, hostStep_read hop h⟩
  cases op with
  | busRead width addr => exact hread (.inl ⟨width, addr, rfl⟩)
  | busWrite width addr v =>
    obtain ⟨r, -, hallowed, rfl⟩ := hostWrite_next h
    obtain ⟨o, ho⟩ := writeReg_busy v hp (hallowed hp)
    exact ⟨o, _, _, ho⟩
  | pixRead a => exact hread (.inr (.inl ⟨a, rfl⟩))
  | pixWrite a v =>
    obtain ⟨-, hidle, -⟩ := hostPixWrite_next h
    exact absurd (hp.symm.trans hidle) (by decide)
  | poll => exact hread (.inr (.inr rfl))
  | reset => exact absurd rfl hop

/-- Settles O7: the operation answers and changes at most OVR, or faults and changes the fault state alone. -/
theorem busyHostChangesOnlyOvr : Obligations.BusyHostChangesOnlyOvr := by
  intro s t op hturn hop hp h
  rcases step_next_of_hostTurn hturn h with hbusy | ⟨r, rfl⟩
  · obtain ⟨o, ops, rs, rfl⟩ := hostStep_busy (s := hostStart s) hop hp hbusy
    rfl
  · rfl

end Sys2Proof.Machine

/-! Encoding (30_encoding.md R80 to R92): the decoder and the encoder against the command table, the engine's step of a
legal and of an illegal word, CMD writes, and what each command leaves unchanged. -/

namespace Sys2Proof.Machine

/-! ### The decoder and the command table (30_encoding.md R80 to R85) -/

@[simp] theorem op_decodeOf (k : Kind) : (decodeOf k).op = .decode := by cases k <;> rfl
@[simp] theorem op_extractOf (k : Kind) : (extractOf k).op = .extract := by cases k <;> rfl
@[simp] theorem kind_decodeOf (k : Kind) : (decodeOf k).kind = some k := by cases k <;> rfl
@[simp] theorem kind_extractOf (k : Kind) : (extractOf k).kind = some k := by cases k <;> rfl

/-- A word is its fields: RSV, then KIND, then OP (30_encoding.md R80). -/
theorem cmdFields_append (w : Word) : (cmdFields w).rsv ++ (cmdFields w).kind ++ (cmdFields w).op = w := by
  simp only [cmdFields, BitVec.extractLsb'_append_extractLsb'_eq_extractLsb']
  simp

theorem decodeKind_ok {k : BitVec 2} {c : Kind} (h : decodeKind k = .ok c) : k = kindCode (some c) := by
  revert k
  cases c <;> decide

theorem decodePlain_ok {k : BitVec 2} {i j : Instr} (h : decodePlain k i = .ok j) : k = kindCode none ∧ i = j := by
  unfold decodePlain at h
  split at h
  · rename_i hk
    cases h
    exact ⟨BitVec.eq_of_toNat_eq hk, rfl⟩
  · cases h
  · cases h

theorem map_decodeKind_ok {k : BitVec 2} {g : Kind → Instr} {i : Instr} (h : (decodeKind k).map g = .ok i) :
    ∃ c, k = kindCode (some c) ∧ g c = i := by
  cases hk : decodeKind k with
  | error e => rw [hk] at h; cases h
  | ok c =>
    rw [hk] at h
    cases h
    exact ⟨c, decodeKind_ok hk, rfl⟩

/-- Fields that decode to a command are its codes, with the reserved bits clear. -/
theorem decodeFields_ok {f : CmdFields} {i : Instr} (h : decodeFields f = .ok i) :
    f.rsv = 0#26 ∧ f.kind = kindCode i.kind ∧ f.op = i.op.code := by
  unfold decodeFields at h
  split at h
  · cases h
  · rename_i hrsv
    refine ⟨by simpa using hrsv, ?_⟩
    split at h
    case h_8 => cases h
    case h_1 hop | h_2 hop | h_5 hop | h_6 hop =>
      obtain ⟨c, hk, rfl⟩ := map_decodeKind_ok h
      exact ⟨by simpa using hk, by simpa using BitVec.eq_of_toNat_eq hop⟩
    case h_3 hop | h_4 hop | h_7 hop =>
      obtain ⟨hk, rfl⟩ := decodePlain_ok h
      exact ⟨hk, BitVec.eq_of_toNat_eq hop⟩

theorem decode_encode (i : Instr) : decode (encode i) = .ok i := by
  cases i <;> rfl

/-- The decoder and the encoder agree: a word is read as the one command that encodes to it. -/
theorem decode_eq_ok_iff {w : Word} {i : Instr} : decode w = .ok i ↔ w = encode i := by
  refine ⟨fun h => ?_, fun h => h ▸ decode_encode i⟩
  obtain ⟨hrsv, hkind, hop⟩ := decodeFields_ok h
  rw [← cmdFields_append w, hrsv, hkind, hop, encode]

theorem mem_commandTable_iff {w : Word} {i : Instr} : (w, i) ∈ commandTable ↔ w = encode i := by
  refine ⟨fun h => ?_, ?_⟩
  · have hrows : ∀ p ∈ commandTable, p.1 = encode p.2 := by decide
    exact hrows _ h
  · rintro rfl
    cases i <;> decide

/-- Settles O1: both sides say that the word is the command's encoding. -/
theorem decodeMatchesCommandTable : Obligations.DecodeMatchesCommandTable := fun _ _ =>
  decode_eq_ok_iff.trans mem_commandTable_iff.symm

/-- Settles O2: an encoding is its row of the table and decodes back; the sample words are evaluated. -/
theorem encodeMatchesCommandTable : Obligations.EncodeMatchesCommandTable :=
  ⟨fun i => ⟨mem_commandTable_iff.mpr rfl, decode_encode i⟩, by decide⟩

/-! ### Legal words (30_encoding.md R83) -/

/-- `legal(w)` as R83 spells it on the fields of a word. -/
def LegalFields (f : CmdFields) : Prop :=
  f.rsv = 0#26 ∧
    ((f.op.toNat ∈ [1, 2, 5, 6] ∧ f.kind.toNat ∈ [0, 1, 2]) ∨ (f.op.toNat ∈ [3, 4, 7] ∧ f.kind.toNat = 0))

theorem legalWord_iff (w : Word) : legalWord w = true ↔ LegalFields (cmdFields w) := by
  simp only [legalWord, LegalFields, cmdFields, Bool.and_eq_true, Bool.or_eq_true, beq_iff_eq, List.contains_iff_mem]

theorem decodeKind_of_legal {k : BitVec 2} (h : k.toNat ∈ [0, 1, 2]) : ∃ c, decodeKind k = .ok c := by
  simp only [List.mem_cons, List.not_mem_nil, or_false] at h
  rcases h with h | h | h <;> rw [decodeKind, h] <;> exact ⟨_, rfl⟩

/-- The decoder reads some command from legal fields: the one of their operation and, where it takes one, their kind. -/
theorem decodeFields_of_legal {f : CmdFields} (h : LegalFields f) : ∃ i, decodeFields f = .ok i := by
  obtain ⟨hrsv, ⟨hop, hkind⟩ | ⟨hop, hkind⟩⟩ := h
  · obtain ⟨c, hc⟩ := decodeKind_of_legal hkind
    simp only [List.mem_cons, List.not_mem_nil, or_false] at hop
    rcases hop with hop | hop | hop | hop <;> simp [decodeFields, hrsv, hop, hc, Except.map]
  · simp only [List.mem_cons, List.not_mem_nil, or_false] at hop
    rcases hop with hop | hop | hop <;> simp [decodeFields, hrsv, hop, decodePlain, hkind]

theorem legalWord_encode (i : Instr) : legalWord (encode i) = true := by
  cases i <;> rfl

/-- A word is legal exactly when it is a command's (30_encoding.md R83, R85). -/
theorem legalWord_iff_decode {w : Word} : legalWord w = true ↔ ∃ i, decode w = .ok i := by
  refine ⟨fun h => decodeFields_of_legal ((legalWord_iff w).mp h), ?_⟩
  rintro ⟨i, hi⟩
  rw [decode_eq_ok_iff.mp hi]
  exact legalWord_encode i

/-- Settles O3: the fields are those of the rule, and what is legal is what decodes. -/
theorem legalWordsAreTheCommands : Obligations.LegalWordsAreTheCommands := fun w =>
  ⟨legalWord_iff w, legalWord_iff_decode⟩

/-! ### The engine's step (30_encoding.md R85, R87, 60_exceptions.md R232) -/

@[simp] theorem engineStart_latched (s : State) : (engineStart s).latched = s.latched := by
  unfold engineStart
  split <;> rfl

/-- The engine executes the command LATCHED decodes to. -/
theorem step_of_decode_ok {s : State} {i : Instr} (hturn : EngineTurn s) (hi : decode s.latched = .ok i) :
    step s = settleMove (engineStart s) (exec i (engineStart s)) := by
  rw [step_of_engineTurn hturn, engineStep, engineStart_latched, hi]

/-- The engine completes a word that decodes to no command as an illegal one. -/
theorem step_of_decode_error {s : State} {e : DecodeReject} (hturn : EngineTurn s)
    (he : decode s.latched = .error e) : step s = .next (engineStart s).illegalCommand := by
  rw [step_of_engineTurn hturn, engineStep, engineStart_latched, he, settleMove]

theorem step_of_idle {s : State} (hf : s.faulted = none) (hp : s.pending = false) (ho : s.hostOps = []) :
    step s = .next s := by
  simp [step, liveStep, nextMove, hf, hp, ho]

/-- Settles O4: the engine's turn settles the command's outcome, and an idle machine keeps its state. -/
theorem stepRunsDecodedCommand : Obligations.StepRunsDecodedCommand := by
  refine ⟨fun s i hturn hi => ⟨fun t ht => ?_, fun r hr => ?_⟩, fun s => step_of_idle⟩
  · rw [step_of_decode_ok hturn hi, ht, settleMove]
  · rw [step_of_decode_ok hturn hi, hr, settleMove, State.enterFault]

/-- Settles O5: a word that is not legal decodes to no command. -/
theorem illegalWordCompletesWithIllegalCmd : Obligations.IllegalWordCompletesWithIllegalCmd := by
  refine ⟨rfl, fun s hturn hillegal => ?_⟩
  cases hd : decode s.latched with
  | error e => exact step_of_decode_error hturn hd
  | ok i =>
    have hlegal := legalWord_iff_decode.mpr ⟨i, hd⟩
    simp [hillegal] at hlegal

/-- Settles O6: the write reaches CMD, a command pending or not, and the two cases are those of `State.writeCmd`. -/
theorem commandWriteAcceptedOrDropped : Obligations.CommandWriteAcceptedOrDropped := fun s _ hturn =>
  step_busWrite_allowed (busTarget_cmd s.params) (.inr rfl) hturn

/-! ### What each command leaves unchanged (30_encoding.md R89, 10_state.md R41, R42) -/

theorem streamKept_refl (s : State) : StreamKept s s := ⟨rfl, fun _ => rfl⟩

theorem pixelsKept_refl (s : State) : PixelsKept s s := fun _ => rfl

theorem PixelsKept.trans {s t u : State} (hst : PixelsKept s t) (htu : PixelsKept t u) : PixelsKept s u :=
  fun a => (htu a).trans (hst a)

theorem StreamKept.wordsAboveKept {s t : State} (h : StreamKept s t) (n : Nat) : WordsAboveKept s t n :=
  fun w _ => h.2 w

theorem WordsAboveKept.trans_streamKept {s t u : State} (hst : WordsAboveKept s t t.bitLen) (htu : StreamKept t u) :
    WordsAboveKept s u u.bitLen := by
  obtain ⟨hlen, hwords⟩ := htu
  exact fun w hw => (hwords w).trans (hst w (hlen ▸ hw))

theorem TextKept.entriesAboveKept {s t : State} (h : TextKept s t) : EntriesAboveKept s t := by
  obtain ⟨-, -, -, htext⟩ := h
  exact fun k _ => htext k

theorem TextKept.trans_entriesAboveKept {s t u : State} (hst : TextKept s t) (htu : EntriesAboveKept t u) :
    EntriesAboveKept s u := by
  obtain ⟨-, -, -, htext⟩ := hst
  exact fun k hk => (htu k hk).trans (htext k)

/-- What an encode stage leaves: the text, the pixels, the words above its stream and, but for HUFF, the tree store. -/
def EncodeFrame (k : Kind) (s t : State) : Prop :=
  TextKept s t ∧ PixelsKept s t ∧ WordsAboveKept s t t.bitLen ∧ (k = .raw ∨ k = .caesar → t.tree = s.tree)

/-- What a decode stage leaves: the stream, the pixels, the tree and the entries above its text. -/
def DecodeFrame (s t : State) : Prop := StreamKept s t ∧ PixelsKept s t ∧ TreeKept s t ∧ EntriesAboveKept s t

/-- What the write stage leaves: the stream, the text and the tree. -/
def WriteFrame (s t : State) : Prop := StreamKept s t ∧ TextKept s t ∧ TreeKept s t

/-- What the read stage leaves: the text, the pixels, the tree and the words above its stream. -/
def ReadAllFrame (s t : State) : Prop :=
  TextKept s t ∧ PixelsKept s t ∧ TreeKept s t ∧ WordsAboveKept s t t.bitLen

theorem encodeStage_frame (k : Kind) (s : State) : (encodeStage k s).EndsIn fun _ => EncodeFrame k s := by
  have hdrop : EncodeFrame k s s.dropTree :=
    ⟨textKept_refl s, pixelsKept_refl s, (streamKept_refl s).wordsAboveKept _, fun _ => rfl⟩
  refine encodeStage_endsIn hdrop hdrop (fun bits => ?_) fun hk m bits => ?_
  · exact ⟨textKept_refl s, pixelsKept_refl s, wordsAboveKept_writeStream s.dropTree bits, fun _ => rfl⟩
  · exact ⟨textKept_refl s, pixelsKept_refl s, wordsAboveKept_writeStream s.dropTree bits,
      fun hkind => by simp [hk] at hkind⟩

theorem decodeFrame_refl (s : State) : DecodeFrame s s :=
  ⟨streamKept_refl s, pixelsKept_refl s, treeKept_refl s, (textKept_refl s).entriesAboveKept⟩

theorem decodeStage_frame (k : Kind) (s : State) : (decodeStage k s).EndsIn fun _ => DecodeFrame s := by
  refine decodeStage_endsIn (decodeFrame_refl s) (decodeFrame_refl s) fun out found pos => ?_
  exact ⟨streamKept_refl s, pixelsKept_refl s, treeKept_refl s, entriesAboveKept_writeText s out found pos⟩

theorem writeFrame_refl (s : State) : WriteFrame s s := ⟨streamKept_refl s, textKept_refl s, treeKept_refl s⟩

theorem writeStage_frame (s : State) : (writeStage s).EndsIn fun _ => WriteFrame s :=
  writeStage_endsIn (writeFrame_refl s) (writeFrame_refl s) fun _ => writeFrame_refl s

theorem readAllStage_frame (s : State) : (readAllStage s).EndsIn fun _ => ReadAllFrame s := by
  have hself : ReadAllFrame s s :=
    ⟨textKept_refl s, pixelsKept_refl s, treeKept_refl s, (streamKept_refl s).wordsAboveKept _⟩
  refine readAllStage_endsIn hself fun bits => ?_
  exact ⟨textKept_refl s, pixelsKept_refl s, treeKept_refl s, wordsAboveKept_writeStream s bits⟩

/-- An encode stage that raises an error ends the command; the frame of the write stage is then that of no stage. -/
theorem embedStages_frame (k : Kind) (s : State) :
    (embedStages k s).EndsIn fun _ t => ∃ u, EncodeFrame k s u ∧ WriteFrame u t :=
  (encodeStage_frame k s).andThen (fun _ u hu => ⟨u, hu, writeFrame_refl u⟩) fun u hu =>
    (writeStage_frame u).mono fun _ _ ht => ⟨u, hu, ht⟩

/-- A read stage that raises an error ends the command; the frame of the decode stage is then that of no stage. -/
theorem extractStages_frame (k : Kind) (s : State) :
    (extractStages k s).EndsIn fun _ t => ∃ u, ReadAllFrame s u ∧ DecodeFrame u t :=
  (readAllStage_frame s).andThen (fun _ u hu => ⟨u, hu, decodeFrame_refl u⟩) fun u hu =>
    (decodeStage_frame k u).mono fun _ _ ht => ⟨u, hu, ht⟩

/-- What a command leaves of the stream, the text, the pixels and the tree, by the columns of 30_encoding.md R89. -/
def ColumnsKept (i : Instr) (s t : State) : Prop :=
  (i.op ∉ [Op.encode, .readall, .embed, .extract] → StreamKept s t) ∧
  (i.op ∉ [Op.decode, .extract] → TextKept s t) ∧
  (i.op ∉ [Op.write, .embed] → PixelsKept s t) ∧
  (i.op ∉ [Op.encode, .embed, .newsession] → TreeKept s t) ∧
  (i.op = .newsession ∨ i.kind = some .raw ∨ i.kind = some .caesar → t.tree = s.tree) ∧
  WordsAboveKept s t t.bitLen ∧ EntriesAboveKept s t

theorem EncodeFrame.columnsKept {k : Kind} {s t : State} (h : EncodeFrame k s t) : ColumnsKept (encodeOf k) s t := by
  obtain ⟨htext, hpix, hwords, htree⟩ := h
  simpa [ColumnsKept] using ⟨htext, hpix, htree, hwords, htext.entriesAboveKept⟩

theorem DecodeFrame.columnsKept {k : Kind} {s t : State} (h : DecodeFrame s t) : ColumnsKept (decodeOf k) s t := by
  obtain ⟨hstream, hpix, htree, hentries⟩ := h
  simpa [ColumnsKept] using ⟨hstream, hpix, htree, fun _ => htree.2, hstream.wordsAboveKept _, hentries⟩

theorem WriteFrame.columnsKept {s t : State} (h : WriteFrame s t) : ColumnsKept .write s t := by
  obtain ⟨hstream, htext, htree⟩ := h
  exact ⟨fun _ => hstream, fun _ => htext, fun hop => absurd (by decide) hop, fun _ => htree, fun _ => htree.2,
    hstream.wordsAboveKept _, htext.entriesAboveKept⟩

theorem ReadAllFrame.columnsKept {s t : State} (h : ReadAllFrame s t) : ColumnsKept .readall s t := by
  obtain ⟨htext, hpix, htree, hwords⟩ := h
  exact ⟨fun hop => absurd (by decide) hop, fun _ => htext, fun _ => hpix, fun _ => htree, fun _ => htree.2, hwords,
    htext.entriesAboveKept⟩

theorem columnsKept_embedOf {k : Kind} {s u t : State} (hsu : EncodeFrame k s u) (hut : WriteFrame u t) :
    ColumnsKept (embedOf k) s t := by
  obtain ⟨htext, -, hwords, htree⟩ := hsu
  obtain ⟨hstream', htext', htree'⟩ := hut
  have htextst := htext.trans htext'
  simpa [ColumnsKept] using ⟨htextst, fun hkind => htree'.2.trans (htree hkind), hwords.trans_streamKept hstream',
    htextst.entriesAboveKept⟩

theorem columnsKept_extractOf {k : Kind} {s u t : State} (hsu : ReadAllFrame s u) (hut : DecodeFrame u t) :
    ColumnsKept (extractOf k) s t := by
  obtain ⟨htext, hpix, htree, hwords⟩ := hsu
  obtain ⟨hstream', hpix', htree', hentries'⟩ := hut
  have htreest := htree.trans htree'
  simpa [ColumnsKept] using ⟨hpix.trans hpix', htreest, fun _ => htreest.2, hwords.trans_streamKept hstream',
    htext.trans_entriesAboveKept hentries'⟩

theorem columnsKept_newsession (s : State) : ColumnsKept .newsession s s.dropTree :=
  ⟨fun _ => streamKept_refl s, fun _ => textKept_refl s, fun _ => pixelsKept_refl s, fun hop => absurd (by decide) hop,
    fun _ => rfl, (streamKept_refl s).wordsAboveKept _, (textKept_refl s).entriesAboveKept⟩

/-- The completion writes STATUS only, so a command leaves what its stages leave. -/
theorem exec_columnsKept {i : Instr} {s t : State} (h : exec i s = .next t) :
    t.pending = false ∧ t.done = true ∧ ColumnsKept i s t := by
  obtain ⟨e, u, hu, rfl⟩ := exec_endsIn (P := fun i _ => ColumnsKept i s)
    (fun k => (encodeStage_frame k s).mono fun _ _ hu => hu.columnsKept)
    (fun k => (decodeStage_frame k s).mono fun _ _ hu => hu.columnsKept)
    ((writeStage_frame s).mono fun _ _ hu => hu.columnsKept)
    ((readAllStage_frame s).mono fun _ _ hu => hu.columnsKept)
    (fun k => (embedStages_frame k s).mono fun _ _ ⟨_, hsu, hut⟩ => columnsKept_embedOf hsu hut)
    (fun k => (extractStages_frame k s).mono fun _ _ ⟨_, hsu, hut⟩ => columnsKept_extractOf hsu hut)
    (columnsKept_newsession s) h
  exact ⟨rfl, rfl, hu⟩

/-- Settles O53: what the stages of a command leave, with what no command writes. -/
theorem commandsWriteOnlyTheirColumn : Obligations.CommandsWriteOnlyTheirColumn := by
  intro i s t h
  obtain ⟨hpending, hdone, hcolumns⟩ := exec_columnsKept h
  exact ⟨hpending, hdone, exec_hostStateKept h, hcolumns⟩

end Sys2Proof.Machine

/-! Raw and Caesar codecs (40_codec_raw_caesar.md R100 to R114): the fixed-width codec, and the ENCODE.k, DECODE.RAW and
DECODE.CAESAR commands. -/

namespace Sys2Proof.Machine

/-! ### The raw stream, symbol by symbol (R100, R101) -/

theorem rawEncode_append (t u : List Symbol) : rawEncode (t ++ u) = rawEncode t ++ rawEncode u :=
  List.flatMap_append

/-- Settles O22, by induction on the text: the first eight bits are those of the first symbol, the others those of the
rest. -/
theorem rawEncodeBits : Obligations.RawEncodeBits := by
  refine fun t => ⟨rawEncode_length t, fun i k h hk => ?_⟩
  induction t generalizing i with
  | nil => simp at h
  | cons c t ih =>
    rw [rawEncode_cons]
    cases i with
    | zero =>
      have hlt : 8 * 0 + k < (bin8 c).length := by simp; omega
      rw [List.getElem?_append_left hlt, List.getElem?_eq_getElem hlt]
      simpa using bin8_getElem c k hk
    | succ i =>
      rw [List.getElem?_append_right (by simp; omega), bin8_length, show 8 * (i + 1) + k - 8 = 8 * i + k by omega]
      exact ih i (by simpa using h)

/-- The chunk of a symbol that is no delimiter decodes to the symbol. -/
theorem rawDecodeChunks_bin8 {c : Symbol} (hc : c ≠ delimSym) (m n : Nat) (x : List Bool) :
    rawDecodeChunks m (n + 1) (bin8 c ++ x) =
      { rawDecodeChunks (m + 1) n x with out := c :: (rawDecodeChunks (m + 1) n x).out } := by
  rw [rawDecodeChunks, List.take_left' (bin8_length c), List.drop_left' (bin8_length c), val8_bin8, if_neg hc]

/-- The chunk of the delimiter ends the decode. -/
theorem rawDecodeChunks_delim (m n : Nat) (x : List Bool) :
    rawDecodeChunks m (n + 1) (bin8 delimSym ++ x) = { out := [], found := true, pos := 8 * (m + 1) } := by
  rw [rawDecodeChunks, List.take_left' (bin8_length _), val8_bin8, if_pos rfl]

/-- The chunks of a text without delimiter decode to the text, and the decode goes on after them. -/
theorem rawDecodeChunks_rawEncode {t : List Symbol} (ht : delimSym ∉ t) (m n : Nat) (x : List Bool) :
    rawDecodeChunks m (t.length + n) (rawEncode t ++ x) =
      { rawDecodeChunks (m + t.length) n x with out := t ++ (rawDecodeChunks (m + t.length) n x).out } := by
  induction t generalizing m with
  | nil => simp
  | cons c t ih =>
    obtain ⟨hc, ht⟩ := not_or.mp (mt List.mem_cons.mpr ht)
    rw [List.length_cons, Nat.add_right_comm, rawEncode_cons, List.append_assoc, rawDecodeChunks_bin8 (Ne.symm hc),
      ih ht, Nat.add_right_comm m 1, Nat.add_assoc m, List.cons_append]

theorem rawDecode_rawEncode_append {t : List Symbol} (ht : delimSym ∉ t) (x : List Bool) :
    rawDecode (rawEncode t ++ x) =
      { rawDecodeChunks t.length (x.length / 8) x with
        out := t ++ (rawDecodeChunks t.length (x.length / 8) x).out } := by
  have hchunks : (rawEncode t ++ x).length / 8 = t.length + x.length / 8 := by
    rw [List.length_append, rawEncode_length]
    omega
  rw [rawDecode, hchunks, rawDecodeChunks_rawEncode ht, Nat.zero_add]

/-- Settles O23: after the message the decode meets the chunk of the delimiter. -/
theorem rawRoundTrip : Obligations.RawRoundTrip := by
  intro m x hm
  have hchunks : (bin8 delimSym ++ x).length / 8 = x.length / 8 + 1 := by
    rw [List.length_append, bin8_length]
    omega
  have hstream : rawEncode (m ++ [delimSym]) ++ x = rawEncode m ++ (bin8 delimSym ++ x) := by
    simp [rawEncode_append]
  rw [hstream, rawDecode_rawEncode_append hm, hchunks, rawDecodeChunks_delim, List.append_nil]

/-! ### The bit-serial form (R102) -/

theorem natOfBits_append (xs ys : List Bool) :
    natOfBits (xs ++ ys) = 2 ^ ys.length * natOfBits xs + natOfBits ys := by
  induction ys using List.reverseRecOn with
  | nil => simp
  | append_singleton ys b ih =>
    rw [← List.append_assoc, natOfBits_concat, natOfBits_concat, ih, List.length_append, List.length_singleton,
      Nat.pow_succ]
    ring

/-- An 8-bit register holds the last eight of the bits shifted into it. -/
theorem val8_append (xs : List Bool) {ys : List Bool} (h : ys.length = 8) : val8 (xs ++ ys) = val8 ys := by
  apply BitVec.eq_of_toNat_eq
  rw [val8, val8, natOfBits_append, h, BitVec.toNat_ofNat, BitVec.toNat_ofNat]
  omega

/-- Shifting a bit into the register that bits were shifted into. -/
theorem val8_concat (xs : List Bool) (b : Bool) :
    BitVec.ofNat 8 (2 * (val8 xs).toNat + b.toNat) = val8 (xs ++ [b]) := by
  apply BitVec.eq_of_toNat_eq
  rw [val8, val8, natOfBits_concat]
  simp only [BitVec.toNat_ofNat]
  omega

/-- At `ys` bits into chunk `m`, whatever bits `xs` were shifted in before, the bit-serial form goes on as the chunked
form does from the start of that chunk. -/
theorem rawDecodeSerial_eq_chunks (xs ys bits : List Bool) (m : Nat) (hys : ys.length < 8) :
    rawDecodeSerial (val8 (xs ++ ys)) ys.length (8 * m + ys.length) bits =
      rawDecodeChunks m ((ys.length + bits.length) / 8) (ys ++ bits) := by
  induction bits generalizing xs ys m with
  | nil =>
    rw [List.length_nil, Nat.add_zero, Nat.div_eq_of_lt hys, rawDecodeSerial, rawDecodeChunks, Nat.add_sub_cancel]
  | cons b bits ih =>
    have hsplit : ys ++ b :: bits = (ys ++ [b]) ++ bits := by simp
    rw [rawDecodeSerial, val8_concat, List.append_assoc, hsplit]
    by_cases hfull : ys.length + 1 = 8
    · have hchunk : (ys ++ [b]).length = 8 := by simpa using hfull
      have hcount : (ys.length + (b :: bits).length) / 8 = bits.length / 8 + 1 := by
        rw [List.length_cons]
        omega
      rw [if_pos hfull, val8_append xs hchunk, hcount, rawDecodeChunks, List.take_left' hchunk, List.drop_left' hchunk,
        show 8 * m + ys.length + 1 = 8 * (m + 1) by omega]
      have hnext := ih (ys ++ [b]) [] (m + 1) (by simp)
      simp only [List.append_nil, List.length_nil, Nat.add_zero, Nat.zero_add, List.nil_append] at hnext
      rw [hnext]
    · have hnext := ih xs (ys ++ [b]) m (by simp; omega)
      rw [List.length_append, List.length_singleton] at hnext
      rw [if_neg hfull, Nat.add_assoc, hnext, List.length_cons, Nat.add_right_comm, Nat.add_assoc]

/-- Settles O24: the two forms agree at the start of every chunk, so at the first. -/
theorem serialRawDecodeAgrees : Obligations.SerialRawDecodeAgrees := by
  intro bits
  have hstart := rawDecodeSerial_eq_chunks [] [] bits 0 (by decide)
  simp only [List.length_nil, Nat.zero_add, List.nil_append] at hstart
  exact hstart

/-! ### The Caesar shifts (R103) and the unshift stage (R105) -/

@[simp] theorem shiftDown_shiftUp (c : Symbol) (s : BitVec 8) : shiftDown (shiftUp c s) s = c :=
  add_sub_cancel_right c s

@[simp] theorem shiftUp_shiftDown (c : Symbol) (s : BitVec 8) : shiftUp (shiftDown c s) s = c :=
  sub_add_cancel c s

theorem shiftDown_toNat (c : Symbol) (s : BitVec 8) :
    ((shiftDown c s).toNat : Int) = ((c.toNat : Int) - s.toNat) % 256 := by
  have := c.isLt
  have := s.isLt
  rw [shiftDown, BitVec.toNat_sub]
  omega

/-- Settles O25: the shifts are the sum and the difference of 8-bit words. -/
theorem caesarShiftArithmetic : Obligations.CaesarShiftArithmetic := fun c s =>
  ⟨BitVec.toNat_add c s, shiftDown_toNat c s, shiftDown_shiftUp c s⟩

/-- A text without `down(0x23, s)` has no raw delimiter in its shifted form. -/
theorem delim_not_mem_shiftUp {t : List Symbol} {s : BitVec 8} (ht : shiftDown delimSym s ∉ t) :
    delimSym ∉ t.map fun c => shiftUp c s := by
  intro hmem
  obtain ⟨c, hc, hup⟩ := List.mem_map.mp hmem
  rw [← hup, shiftDown_shiftUp] at ht
  exact ht hc

/-- A shifted text without delimiter unshifts to the text, and the stage goes on after it. -/
theorem unshiftFrom_shiftUp {t : List Symbol} (ht : delimSym ∉ t) (s : BitVec 8) (found : Bool) (pos k : Nat)
    (cs : List Symbol) :
    unshiftFrom s found pos k ((t.map fun c => shiftUp c s) ++ cs) =
      { unshiftFrom s found pos (k + t.length) cs with
        out := t ++ (unshiftFrom s found pos (k + t.length) cs).out } := by
  induction t generalizing k with
  | nil => simp
  | cons c t ih =>
    obtain ⟨hc, ht⟩ := not_or.mp (mt List.mem_cons.mpr ht)
    rw [List.map_cons, List.cons_append, unshiftFrom, shiftDown_shiftUp, if_neg (Ne.symm hc), ih ht, List.length_cons,
      Nat.add_right_comm k 1, Nat.add_assoc k, List.cons_append]

/-- Where the raw stage stopped after a shifted text without delimiter, the Caesar decode is the text, with the raw
stage's boundary. -/
theorem caesarDecode_of_rawDecode {bits : List Bool} {t : List Symbol} {s : BitVec 8} {found : Bool} {pos : Nat}
    (ht : delimSym ∉ t) (h : rawDecode bits = { out := t.map fun c => shiftUp c s, found := found, pos := pos }) :
    caesarDecode bits s = { out := t, found := found, pos := pos } := by
  have hunshift := unshiftFrom_shiftUp ht s found pos 0 []
  simp only [caesarDecode, h]
  simpa [unshiftFrom] using hunshift

/-- Settles O27: the clashing symbol is a raw delimiter once shifted, and the message is all that comes before it. -/
theorem caesarDecodeStopsAtClash : Obligations.CaesarDecodeStopsAtClash := by
  intro m rest s x hm hclash
  have hstream : caesarEncode (m ++ shiftDown delimSym s :: rest) s ++ x =
      rawEncode ((m.map fun c => shiftUp c s) ++ [delimSym]) ++ (caesarEncode rest s ++ x) := by
    simp [caesarEncode, rawEncode_append]
  rw [hstream]
  have hraw := rawRoundTrip _ (caesarEncode rest s ++ x) (delim_not_mem_shiftUp hclash)
  rw [List.length_map] at hraw
  exact caesarDecode_of_rawDecode hm hraw

/-- A delimiter whose shifted form is no raw delimiter is met by the unshift stage. -/
theorem caesarDecode_delim_shifted {m : List Symbol} {s : BitVec 8} (hm : delimSym ∉ m)
    (hclash : shiftDown delimSym s ∉ m ++ [delimSym]) (x : List Bool) :
    caesarDecode (caesarEncode (m ++ [delimSym]) s ++ x) s =
      { out := m, found := true, pos := 8 * (m.length + 1) } := by
  have hraw := rawDecode_rawEncode_append (delim_not_mem_shiftUp hclash) x
  rw [List.map_append, List.map_singleton, List.append_assoc, List.singleton_append] at hraw
  rw [caesarEncode, List.map_append, List.map_singleton, caesarDecode, hraw, unshiftFrom_shiftUp hm, unshiftFrom,
    shiftDown_shiftUp, if_pos rfl, List.append_nil, Nat.zero_add]

/-- Settles O26: the delimiter ends the raw stage where the shift keeps it, and the unshift stage elsewhere. -/
theorem caesarRoundTrip : Obligations.CaesarRoundTrip := by
  intro m s x hm hclash
  by_cases hdelim : shiftDown delimSym s = delimSym
  · simpa only [hdelim] using caesarDecodeStopsAtClash m [] s x hm hclash
  · exact caesarDecode_delim_shifted hm (by simp [hclash, hdelim]) x

/-! ### The commands by their stages (30_encoding.md R85) -/

theorem exec_encodeOf (k : Kind) (s : State) : exec (encodeOf k) s = (encodeStage k s).finish := by
  cases k <;> rfl

theorem exec_decodeOf (k : Kind) (s : State) : exec (decodeOf k) s = (decodeStage k s).finish := by
  cases k <;> rfl

theorem exec_embedOf (k : Kind) (s : State) : exec (embedOf k) s = (embedStages k s).finish := by
  cases k <;> rfl

/-! ### Where an encode stage completes (R107, 41_huffman.md R146) -/

theorem commitStream_overflow {s : State} {bits : List Bool} (tree : Option TreeStore)
    (h : s.params.bitMax < bits.length) : commitStream s tree bits = .error .overflow s := by
  unfold commitStream
  rw [if_pos h]

theorem commitStream_fits {s : State} {bits : List Bool} (tree : Option TreeStore)
    (h : bits.length ≤ s.params.bitMax) :
    commitStream s tree bits = .ok (tree.elim (s.writeStream bits) (s.writeStream bits).storeTree) := by
  unfold commitStream
  rw [if_neg (Nat.not_lt.mpr h)]
  cases tree <;> rfl

/-- With a written message and its codec result, the stage is left with committing the stream. -/
theorem encodeStage_of_holdsMessage {k : Kind} {s : State} {m : List Symbol} {tree : Option TreeStore}
    {bits : List Bool} (hm : HoldsMessage s m) (htext : encodeText k s (m ++ [delimSym]) = some (tree, bits)) :
    encodeStage k s = commitStream s.dropTree tree bits := by
  have hsyms := textOf_symbols m
  rw [textOf] at hsyms
  simp only [encodeStage, message_of_holdsMessage hm, all_isSymbol_symbols, hsyms, htext, if_true]

/-- The state an encode stage commits holds the stream, and the tree where the codec has one; nothing else is
changed. -/
theorem encodeOf_completes {k : Kind} {s : State} {m : List Symbol} {tree : Option TreeStore} {bits : List Bool}
    (hm : HoldsMessage s m) (htext : encodeText k s (m ++ [delimSym]) = some (tree, bits))
    (hfit : bits.length ≤ s.params.bitMax) :
    ∃ t, exec (encodeOf k) s = .next t ∧ CompletedWith t .noError ∧ HoldsStream t bits ∧ LastWordZeroFilled t ∧
      t.treeValid = tree.isSome ∧ t.tree = tree.getD s.tree ∧
      HostStateKept s t ∧ WordsAboveKept s t t.bitLen ∧ TextKept s t ∧ PixelsKept s t := by
  have hstream := holdsStream_writeStream s.dropTree bits
  have hzero := lastWordZeroFilled_writeStream s.dropTree bits
  have hwords := wordsAboveKept_writeStream s.dropTree bits
  rw [exec_encodeOf, encodeStage_of_holdsMessage hm htext, commitStream_fits (s := s.dropTree) tree hfit]
  cases tree <;> exact ⟨_, rfl, ⟨rfl, rfl, rfl⟩, hstream, hzero, rfl, rfl, hostStateKept_refl s, hwords,
    textKept_refl s, pixelsKept_refl s⟩

/-- The raw stream of a text, shifted or not, has eight bits a symbol of the message and the delimiter. -/
theorem encodeText_fixed_length {k : Kind} {s : State} {m : List Symbol} {tree : Option TreeStore} {bits : List Bool}
    (hk : k = .raw ∨ k = .caesar) (htext : encodeText k s (m ++ [delimSym]) = some (tree, bits)) :
    bits.length = 8 * (m.length + 1) := by
  rcases hk with rfl | rfl <;> cases htext
  · simp
  · simp [caesarEncode]

/-- Settles O36: both codecs have a stream of eight bits a symbol and no tree. -/
theorem encodeFixedWidthResult : Obligations.EncodeFixedWidthResult := by
  intro s m hm hfit
  have hraw := encodeText_fixed_length (s := s) (m := m) (.inl rfl) rfl
  have hcaesar := encodeText_fixed_length (s := s) (m := m) (.inr rfl) rfl
  obtain ⟨t, hexec, hdone, hstream, hrest⟩ := encodeOf_completes (k := .raw) hm rfl (hraw.trans_le hfit)
  obtain ⟨t', hexec', hdone', hstream', hrest'⟩ := encodeOf_completes (k := .caesar) hm rfl (hcaesar.trans_le hfit)
  exact ⟨⟨t, hexec, hdone, hstream.1.trans hraw, hstream, hrest⟩,
    t', hexec', hdone', hstream'.1.trans hcaesar, hstream', hrest'⟩

/-! ### The codes of a message and its delimiter (41_huffman.md R140, R153) -/

theorem encodeWith_of_codes {T : TreeStore} {t : List Symbol} {codes : List (List Bool)}
    (h : t.map (findCode T) = codes.map some) : encodeWith T t = some codes.flatten := by
  induction t generalizing codes with
  | nil =>
    obtain rfl := List.map_eq_nil_iff.mp h.symm
    rfl
  | cons c t ih =>
    cases codes with
    | nil => simp at h
    | cons x codes =>
      obtain ⟨hx, ht⟩ := List.cons.inj h
      simp [encodeWith, hx, ih ht]

theorem huffEncode_of_codes {o : LeafOrder} {t : List Symbol} {codes : List (List Bool)}
    (h : t.map (findCode (buildTree o t)) = codes.map some) : huffEncode o t = some (buildTree o t, codes.flatten) := by
  rw [huffEncode, encodeWith_of_codes h, Option.map_some]

theorem encodeText_huff {s : State} {t : List Symbol} {tree : TreeStore} {bits : List Bool}
    (h : huffEncode s.params.leafOrder t = some (tree, bits)) : encodeText .huff s t = some (some tree, bits) := by
  rw [encodeText, h, Option.map_some]

/-- The symbols of a text have codes in its tree. -/
theorem exists_codes_buildTree (o : LeafOrder) (t : List Symbol) :
    ∃ codes : List (List Bool), t.map (findCode (buildTree o t)) = codes.map some := by
  refine ⟨t.map fun c => (findCode (buildTree o t) c).getD [], ?_⟩
  rw [List.map_map]
  refine List.map_congr_left fun c hc => ?_
  obtain ⟨x, hx⟩ := exists_findCode_buildTree o hc
  simp [hx]

/-- No code has more than 255 bits, a tree having at most 256 leaves. -/
theorem findCode_buildTree_length_le_255 {o : LeafOrder} {t : List Symbol} {c : Symbol} {x : List Bool} (hc : c ∈ t)
    (hx : findCode (buildTree o t) c = some x) : x.length ≤ 255 := by
  have hcode := findCode_buildTree_length_le (List.ne_nil_of_mem hc) hx
  have hleaves := length_le_256_of_nodup (leafOrder_nodup o t)
  omega

theorem flatten_codes_length_le {o : LeafOrder} {t : List Symbol} {codes : List (List Bool)}
    (h : t.map (findCode (buildTree o t)) = codes.map some) : codes.flatten.length ≤ 255 * t.length := by
  have hcount : codes.length = t.length := by simpa using (congrArg List.length h).symm
  have hbound : ∀ n ∈ codes.map List.length, n ≤ 255 := by
    intro n hn
    obtain ⟨x, hx, rfl⟩ := List.mem_map.mp hn
    have hmem : some x ∈ t.map (findCode (buildTree o t)) := h ▸ List.mem_map_of_mem hx
    obtain ⟨c, hc, hcode⟩ := List.mem_map.mp hmem
    exact findCode_buildTree_length_le_255 hc hcode
  have hsum := List.sum_le_card_nsmul _ 255 hbound
  rw [List.length_map, hcount, smul_eq_mul, Nat.mul_comm] at hsum
  rwa [List.length_flatten]

/-- Settles O37: the codes are the codec's stream, and a message and its delimiter have codes of at most 255 bits
each. -/
theorem encodeHuffResult : Obligations.EncodeHuffResult := by
  intro s m hm
  have hcompletes (codes : List (List Bool))
      (hcodes : (m ++ [delimSym]).map (findCode (buildTree s.params.leafOrder (m ++ [delimSym]))) = codes.map some) :=
    encodeOf_completes hm (encodeText_huff (huffEncode_of_codes hcodes))
  refine ⟨hcompletes, fun hfit => ?_⟩
  obtain ⟨codes, hcodes⟩ := exists_codes_buildTree s.params.leafOrder (m ++ [delimSym])
  have hlen := flatten_codes_length_le hcodes
  rw [List.length_append, List.length_singleton] at hlen
  obtain ⟨t, hexec, hdone, -⟩ := hcompletes codes hcodes (hlen.trans hfit)
  exact ⟨t, hexec, hdone⟩

/-! ### Where an encode stage stops (R106, R107, 60_exceptions.md R223, R224) -/

theorem encodeStage_unwritten (k : Kind) {s : State} (h : ∃ j, j < s.msgLen ∧ bufferRead s.msg j = none) :
    encodeStage k s = .fault .unwrittenRead := by
  have hmsg : s.message = none := readEntries_none_iff.mpr (by simpa using h)
  rw [encodeStage, hmsg]

theorem encodeStage_format (k : Kind) {s : State} (hwritten : ∀ j, j < s.msgLen → ∃ w, bufferRead s.msg j = some w)
    (hbad : ∃ j w, j < s.msgLen ∧ bufferRead s.msg j = some w ∧ 255 < w.toNat) :
    encodeStage k s = .error .format s.dropTree := by
  cases hmsg : s.message with
  | none =>
    obtain ⟨j, hj, hnone⟩ := readEntries_none_iff.mp hmsg
    obtain ⟨w, hw⟩ := hwritten j hj
    rw [Nat.zero_add, hw] at hnone
    cases hnone
  | some ws =>
    obtain ⟨hlen, hentries⟩ := readEntries_some hmsg
    obtain ⟨j, w, hj, hw, hbig⟩ := hbad
    have hmem : w ∈ ws := by
      have hget := hentries j (hlen ▸ hj)
      rw [Nat.zero_add, hw, Option.some.injEq] at hget
      exact hget ▸ List.getElem_mem _
    have hall : ws.all isSymbol = false := by
      rw [List.all_eq_false]
      exact ⟨w, hmem, by simpa [isSymbol] using hbig⟩
    simp [encodeStage, hmsg, hall]

theorem encodeStage_overflow {k : Kind} {s : State} {m : List Symbol} {tree : Option TreeStore} {bits : List Bool}
    (hm : HoldsMessage s m) (htext : encodeText k s (m ++ [delimSym]) = some (tree, bits))
    (hlong : s.params.bitMax < bits.length) : encodeStage k s = .error .overflow s.dropTree := by
  rw [encodeStage_of_holdsMessage hm htext, commitStream_overflow (s := s.dropTree) tree hlong]

/-- The commands that begin with the encode stage of a codec. -/
def Encodes (k : Kind) (i : Instr) : Prop := i = encodeOf k ∨ i = embedOf k

theorem Encodes.exec_of_fault {k : Kind} {i : Instr} {s : State} {r : Fault} (hi : Encodes k i)
    (h : encodeStage k s = .fault r) : exec i s = .fault r := by
  rcases hi with rfl | rfl
  · rw [exec_encodeOf, h]
    rfl
  · rw [exec_embedOf, embedStages, h]
    rfl

theorem Encodes.exec_of_error {k : Kind} {i : Instr} {s t : State} {e : ErrorCode} (hi : Encodes k i)
    (h : encodeStage k s = .error e t) : exec i s = .next (t.complete e) := by
  rcases hi with rfl | rfl
  · rw [exec_encodeOf, h]
    rfl
  · rw [exec_embedOf, embedStages, h]
    rfl

theorem encodes_of_mem {i : Instr}
    (hi : i ∈ [Instr.encodeRaw, .encodeCaesar, .encodeHuff, .embedRaw, .embedCaesar, .embedHuff]) :
    ∃ k, Encodes k i := by
  simp only [List.mem_cons, List.not_mem_nil, or_false] at hi
  rcases hi with rfl | rfl | rfl | rfl | rfl | rfl
  · exact ⟨.raw, .inl rfl⟩
  · exact ⟨.caesar, .inl rfl⟩
  · exact ⟨.huff, .inl rfl⟩
  · exact ⟨.raw, .inr rfl⟩
  · exact ⟨.caesar, .inr rfl⟩
  · exact ⟨.huff, .inr rfl⟩

theorem encodes_fixed_of_mem {i : Instr} (hi : i ∈ [Instr.encodeRaw, .encodeCaesar, .embedRaw, .embedCaesar]) :
    Encodes .raw i ∨ Encodes .caesar i := by
  simp only [List.mem_cons, List.not_mem_nil, or_false] at hi
  rcases hi with rfl | rfl | rfl | rfl
  · exact .inl (.inl rfl)
  · exact .inr (.inl rfl)
  · exact .inl (.inr rfl)
  · exact .inr (.inr rfl)

theorem encodes_huff_of_mem {i : Instr} (hi : i ∈ [Instr.encodeHuff, .embedHuff]) : Encodes .huff i := by
  simpa [Encodes, encodeOf, embedOf] using hi

/-- Settles O38: each stop is the encode stage's, and it ends either command. -/
theorem encodeStageStops : Obligations.EncodeStageStops := by
  intro s
  refine ⟨fun i hi => ?_, fun m hm => ⟨fun hlong i hi => ?_, fun tree bits henc hlong i hi => ?_⟩⟩
  · obtain ⟨k, hk⟩ := encodes_of_mem hi
    exact ⟨fun h => hk.exec_of_fault (encodeStage_unwritten k h),
      fun hwritten hbad => hk.exec_of_error (encodeStage_format k hwritten hbad)⟩
  · rcases encodes_fixed_of_mem hi with hk | hk
    · have hlen := encodeText_fixed_length (s := s) (m := m) (.inl rfl) rfl
      exact hk.exec_of_error (encodeStage_overflow hm rfl (hlong.trans_eq hlen.symm))
    · have hlen := encodeText_fixed_length (s := s) (m := m) (.inr rfl) rfl
      exact hk.exec_of_error (encodeStage_overflow hm rfl (hlong.trans_eq hlen.symm))
  · exact (encodes_huff_of_mem hi).exec_of_error (encodeStage_overflow hm (encodeText_huff henc) hlong)

/-! ### What the raw stage consumes (R101) -/

/-- The chunks that lie within the first bits do not depend on what follows these. -/
theorem rawDecodeChunks_append (m n : Nat) {bits : List Bool} (h : 8 * n ≤ bits.length) (x : List Bool) :
    rawDecodeChunks m n (bits ++ x) = rawDecodeChunks m n bits := by
  induction n generalizing m bits with
  | zero => rfl
  | succ n ih =>
    rw [rawDecodeChunks, rawDecodeChunks, List.take_append_of_le_length (by omega),
      List.drop_append_of_le_length (by omega), ih (m + 1) (by rw [List.length_drop]; omega)]

/-- A decode that met the delimiter reads no further chunk. -/
theorem rawDecodeChunks_add_of_found (m n k : Nat) {bits : List Bool} (h : (rawDecodeChunks m n bits).found = true) :
    rawDecodeChunks m (n + k) bits = rawDecodeChunks m n bits := by
  induction n generalizing m bits with
  | zero => cases h
  | succ n ih =>
    rw [Nat.add_right_comm, rawDecodeChunks, rawDecodeChunks]
    by_cases hdelim : val8 (bits.take 8) = delimSym
    · rw [if_pos hdelim, if_pos hdelim]
    · rw [rawDecodeChunks, if_neg hdelim] at h
      rw [if_neg hdelim, if_neg hdelim, ih (m + 1) h]

/-- The raw decode of a stream is that of its first bits, where these hold the delimiter or every complete chunk. -/
theorem rawDecode_append {bits x : List Bool}
    (h : (rawDecode bits).found = true ∨ (bits ++ x).length / 8 ≤ bits.length / 8) :
    rawDecode (bits ++ x) = rawDecode bits := by
  have hwithin : rawDecodeChunks 0 (bits.length / 8) (bits ++ x) = rawDecode bits :=
    rawDecodeChunks_append 0 _ (Nat.mul_div_le _ _) x
  have hle : bits.length / 8 ≤ (bits ++ x).length / 8 := Nat.div_le_div_right (by simp)
  rcases h with hfound | hcount
  · obtain ⟨k, hk⟩ := Nat.exists_eq_add_of_le hle
    rw [← hwithin] at hfound
    rw [rawDecode, hk, rawDecodeChunks_add_of_found 0 _ k hfound, hwithin]
  · rw [rawDecode, le_antisymm hcount hle, hwithin]

theorem caesarDecode_congr {bits bits' : List Bool} (h : rawDecode bits = rawDecode bits') (s : BitVec 8) :
    caesarDecode bits s = caesarDecode bits' s := by
  rw [caesarDecode, caesarDecode, h]

/-- The bits the raw stage consumes decode as the written bits of the stream do, and no chunk is missing. -/
theorem rawDecode_writtenPrefix {s : State} {bits : List Bool} (hstarts : StreamStarts s bits)
    (h : (rawDecode bits).found = true ∨ s.bitLen / 8 ≤ bits.length / 8) :
    rawDecode s.writtenPrefix = rawDecode bits ∧
      ((rawDecode bits).found = true ∨ s.bitLen / 8 ≤ s.writtenPrefix.length / 8) := by
  obtain ⟨x, hx⟩ := prefix_writtenPrefix hstarts
  obtain ⟨hlen, -, -⟩ := s.writtenPrefix_spec
  rw [← hx] at hlen ⊢
  have hle : bits.length / 8 ≤ (bits ++ x).length / 8 := Nat.div_le_div_right (by simp)
  exact ⟨rawDecode_append (h.imp_right (Nat.div_le_div_right hlen).trans), h.imp_right hle.trans'⟩

/-! ### DECODE.RAW and DECODE.CAESAR (R108, R111, R112) -/

/-- Where the raw stage meets no unwritten chunk, the outcome is the decode of the written bits. -/
theorem fixedDecodeStage_of_consumed {decoder : List Bool → Decoded} {s : State}
    (h : (rawDecode s.writtenPrefix).found = true ∨ s.bitLen / 8 ≤ s.writtenPrefix.length / 8) :
    fixedDecodeStage decoder s =
      if (decoder s.writtenPrefix).found = false ∧ s.params.rawPolicy = .raiseTruncated then .error .truncated s
      else .ok (s.writeText (decoder s.writtenPrefix).out (decoder s.writtenPrefix).found
        (decoder s.writtenPrefix).pos) := by
  have hread : ¬((rawDecode s.writtenPrefix).found = false ∧ s.writtenPrefix.length / 8 < s.bitLen / 8) := by
    rintro ⟨hfound, hlt⟩
    rcases h with h | h
    · simp [h] at hfound
    · omega
  simp only [fixedDecodeStage, if_neg hread]

/-- A decode stage that commits a text completes the command with it, and changes nothing else. -/
theorem decodeOf_completes {k : Kind} {s : State} {d : Decoded}
    (h : decodeStage k s = .ok (s.writeText d.out d.found d.pos)) :
    ∃ t, exec (decodeOf k) s = .next t ∧ CompletedWith t .noError ∧ HoldsText t d.out ∧ t.decPos = d.pos ∧
      t.delim = d.found ∧ EntriesAboveKept s t ∧ HostStateKept s t ∧ StreamKept s t ∧ TreeKept s t ∧
      PixelsKept s t := by
  rw [exec_decodeOf, h]
  exact ⟨_, rfl, ⟨rfl, rfl, rfl⟩, holdsText_writeText s d.out d.found d.pos, rfl, rfl,
    entriesAboveKept_writeText s d.out d.found d.pos, hostStateKept_refl s, streamKept_refl s, treeKept_refl s,
    pixelsKept_refl s⟩

theorem decodeOf_error {k : Kind} {s : State} {e : ErrorCode} (h : decodeStage k s = .error e s) :
    exec (decodeOf k) s = .next (s.complete e) := by
  rw [exec_decodeOf, h]
  rfl

/-- What DECODE.RAW and DECODE.CAESAR come to, from what their decode stage comes to. -/
theorem decodeOf_result {k : Kind} {s : State} {d : Decoded}
    (h : decodeStage k s = if d.found = false ∧ s.params.rawPolicy = .raiseTruncated then .error .truncated s
      else .ok (s.writeText d.out d.found d.pos)) :
    (d.found = true ∨ s.params.rawPolicy = .returnText →
      ∃ t, exec (decodeOf k) s = .next t ∧ CompletedWith t .noError ∧ HoldsText t d.out ∧ t.decPos = d.pos ∧
        t.delim = d.found ∧ EntriesAboveKept s t ∧ HostStateKept s t ∧ StreamKept s t ∧ TreeKept s t ∧
        PixelsKept s t) ∧
    (d.found = false → s.params.rawPolicy = .raiseTruncated →
      exec (decodeOf k) s = .next { s with err := .truncated, done := true, pending := false }) := by
  refine ⟨fun hok => decodeOf_completes ?_, fun hfound hpolicy => decodeOf_error ?_⟩
  · rw [h, if_neg]
    rintro ⟨hfound, hpolicy⟩
    simp [hfound, hpolicy] at hok
  · rw [h, if_pos ⟨hfound, hpolicy⟩]

/-- Settles O39: both decoders see the written bits through the raw decode, which the consumed bits determine. -/
theorem decodeFixedWidthResult : Obligations.DecodeFixedWidthResult := by
  intro s bits hstarts hconsumed
  obtain ⟨hraw, hread⟩ := rawDecode_writtenPrefix hstarts hconsumed
  rw [← hraw] at hread
  rw [← hraw, ← caesarDecode_congr hraw s.shift, List.forall_mem_cons, List.forall_mem_singleton]
  exact ⟨decodeOf_result (k := .raw) (fixedDecodeStage_of_consumed hread),
    decodeOf_result (k := .caesar) (fixedDecodeStage_of_consumed (decoder := (caesarDecode · s.shift)) hread)⟩

end Sys2Proof.Machine

/-! The Huffman codec (41_huffman.md R130 to R153): the sort and the leaf orders, the codes as paths of the tree, the
decoder along them, and the reach of the internal consistency failure. -/

namespace Sys2Proof.Machine

/-! ### The stable sort keeps ties in order (R134) -/

/-- Inserting passes only nodes of lower frequency, so the nodes of one frequency stay in order. -/
theorem filter_insertByFreq (nodes : List Node) (x f : Nat) (l : List Nat) :
    (insertByFreq nodes x l).filter (fun n => freqAt nodes n = f) = (x :: l).filter fun n => freqAt nodes n = f := by
  induction l with
  | nil => rfl
  | cons y l ih =>
    rw [insertByFreq]
    split
    case isTrue => rfl
    case isFalse hlt =>
      rw [List.filter_cons, ih]
      by_cases hx : freqAt nodes x = f
      · have hy : freqAt nodes y ≠ f := by omega
        simp [hx, hy]
      · simp [hx, List.filter_cons]

theorem filter_stableSortByFreq (nodes : List Node) (f : Nat) (l : List Nat) :
    (stableSortByFreq nodes l).filter (fun n => freqAt nodes n = f) = l.filter fun n => freqAt nodes n = f := by
  induction l with
  | nil => rfl
  | cons x l ih => rw [stableSortByFreq_cons, filter_insertByFreq, List.filter_cons, List.filter_cons, ih]

/-- Settles O28: each insertion keeps the list a permutation, ascending, and the ties in order. -/
theorem stableSortOrdersByFrequency : Obligations.StableSortOrdersByFrequency := fun nodes l =>
  ⟨stableSortByFreq_perm nodes l, stableSortByFreq_ascending nodes l, fun f => filter_stableSortByFreq nodes f l⟩

/-! ### The order of the leaf orders (R131) -/

theorem firstOccurrences_ascending (t : List Symbol) :
    (firstOccurrences t).Pairwise fun a b => t.idxOf a < t.idxOf b := by
  induction t with
  | nil => exact List.Pairwise.nil
  | cons c t ih =>
    have hidx : ∀ a ∈ (firstOccurrences t).filter (· != c), (c :: t).idxOf a = t.idxOf a + 1 := fun a ha =>
      List.idxOf_cons_ne t (Ne.symm (by simpa using (List.mem_filter.mp ha).2))
    refine List.pairwise_cons.mpr ⟨fun a ha => ?_, (ih.filter _).imp_of_mem fun {a b} ha hb hlt => ?_⟩
    · rw [List.idxOf_cons_self, hidx a ha]
      omega
    · rw [hidx a ha, hidx b hb]
      omega

theorem ascendingSymbols_ascending (t : List Symbol) :
    (ascendingSymbols t).Pairwise fun a b => a.toNat < b.toNat := by
  refine List.Pairwise.filter _ (List.pairwise_map.mpr (List.pairwise_lt_range.imp_of_mem fun {a b} ha hb hlt => ?_))
  rw [List.mem_range] at ha hb
  rwa [BitVec.toNat_ofNat, BitVec.toNat_ofNat, Nat.mod_eq_of_lt ha, Nat.mod_eq_of_lt hb]

/-- Settles O29: a first index in the rest of a text is one less than in the text, and code points are listed as they
rise. -/
theorem leafOrdersListDistinctSymbols : Obligations.LeafOrdersListDistinctSymbols := fun t =>
  ⟨fun _ _ => mem_leafOrder, fun o => leafOrder_nodup o t, firstOccurrences_ascending t, ascendingSymbols_ascending t⟩

/-! ### Paths to leaves (R138, R139, R149) -/

/-- The path from node `n` along `x` ends at the leaf of symbol `c`. -/
def LeadsToLeaf (nodes : List Node) (n : Nat) (x : List Bool) (c : Symbol) : Prop :=
  ∃ m f v, followPath nodes n x = some m ∧ nodes[m]? = some (.leaf f v c)

theorem leadsToLeaf_nil {nodes : List Node} {n : Nat} {c : Symbol} :
    LeadsToLeaf nodes n [] c ↔ ∃ f v, nodes[n]? = some (.leaf f v c) := by
  simp [LeadsToLeaf]

theorem leadsToLeaf_cons {nodes : List Node} {n : Nat} {b : Bool} {x : List Bool} {c : Symbol} :
    LeadsToLeaf nodes n (b :: x) c ↔
      ∃ f v l r, nodes[n]? = some (.internal f v l r) ∧ LeadsToLeaf nodes (if b then r else l) x c := by
  unfold LeadsToLeaf
  rw [followPath]
  split
  case h_1 f v l r h => simp [h]
  case h_2 h => simpa using fun f v l r hnode => absurd hnode (h f v l r)

/-- No path goes on past a leaf, so two paths of which the one begins with the other end at the same leaf. -/
theorem LeadsToLeaf.eq_of_prefix {nodes : List Node} {n : Nat} {x y : List Bool} {c d : Symbol}
    (hx : LeadsToLeaf nodes n x c) (hy : LeadsToLeaf nodes n y d) (h : x <+: y) : c = d := by
  obtain ⟨z, rfl⟩ := h
  obtain ⟨m, f, v, hpath, hleaf⟩ := hx
  have hrest : LeadsToLeaf nodes m z d := by rwa [LeadsToLeaf, followPath_append z hpath] at hy
  cases z with
  | nil =>
    obtain ⟨f', v', hleaf'⟩ := leadsToLeaf_nil.mp hrest
    rw [hleaf] at hleaf'
    cases hleaf'
    rfl
  | cons b z =>
    obtain ⟨f', v', l, r, hnode, -⟩ := leadsToLeaf_cons.mp hrest
    rw [hleaf] at hnode
    cases hnode

/-- In a sound arena a leaf whose set holds a symbol is that symbol's leaf. -/
theorem NodeSound.leaf_eq {nodes : List Node} {i f : Nat} {v : BitVec 256} {c d : Symbol}
    (h : NodeSound nodes i (.leaf f v d)) (hc : hasSym v c = true) : d = c := by
  obtain ⟨-, rfl⟩ := h
  simpa [hasSym_symsOf] using hc

section Lookup
variable {nodes : List Node} (hsound : ∀ i, (h : i < nodes.length) → NodeSound nodes i nodes[i])
include hsound

/-- A node of a sound arena that is a leaf is the leaf of every symbol in its set. -/
theorem eq_of_hasSym_leaf {n f : Nat} {v : BitVec 256} {c d : Symbol} (hleaf : nodes[n]? = some (.leaf f v d))
    (hc : hasSym (symsAt nodes n) c = true) : d = c := by
  obtain ⟨hn, hget⟩ := List.getElem?_eq_some_iff.mp hleaf
  have hnode := hsound n hn
  rw [hget] at hnode
  rw [symsAt, hleaf] at hc
  exact hnode.leaf_eq hc

/-- The lookup of a symbol goes down to its leaf. -/
theorem leadsToLeaf_of_findCodeFrom {c : Symbol} {fuel n : Nat} {x : List Bool}
    (hc : hasSym (symsAt nodes n) c = true) (hx : findCodeFrom nodes c fuel n = some x) : LeadsToLeaf nodes n x c := by
  induction fuel generalizing n x with
  | zero => cases hx
  | succ fuel ih =>
    unfold findCodeFrom at hx
    split at hx
    · cases hx
    · next f v d hleaf =>
      cases hx
      obtain rfl := eq_of_hasSym_leaf hsound hleaf hc
      exact leadsToLeaf_nil.mpr ⟨f, v, hleaf⟩
    · next f v l r hnode =>
      split at hx
      · next hright =>
        obtain ⟨y, hy, rfl⟩ := Option.map_eq_some_iff.mp hx
        exact leadsToLeaf_cons.mpr ⟨f, v, l, r, hnode, ih hright hy⟩
      · split at hx
        · next hleft =>
          obtain ⟨y, hy, rfl⟩ := Option.map_eq_some_iff.mp hx
          exact leadsToLeaf_cons.mpr ⟨f, v, l, r, hnode, ih hleft hy⟩
        · cases hx

end Lookup

/-! ### One leaf or more (R135, R136) -/

theorem rootIsLeaf_iff {t : TreeStore} :
    t.rootIsLeaf = true ↔ ∃ f v c, t.nodes[t.root]? = some (.leaf f v c) := by
  unfold TreeStore.rootIsLeaf
  cases t.nodes[t.root]? with
  | none => simp
  | some n => cases n <;> simp [Node.isLeaf]

theorem findCode_of_rootIsLeaf {t : TreeStore} (h : t.rootIsLeaf = true) (c : Symbol) :
    findCode t c = some [false] := by
  rw [findCode, if_pos h]

/-- Every code takes at least one bit: the root edge's, or the fallback's. -/
theorem findCode_ne_nil {t : TreeStore} {c : Symbol} : findCode t c ≠ some [] := by
  intro h
  rw [findCode] at h
  split at h
  · cases h
  case isFalse hroot =>
    cases hfuel : t.nnodes with
    | zero => rw [hfuel] at h; cases h
    | succ fuel =>
      rw [hfuel] at h
      unfold findCodeFrom at h
      split at h
      · cases h
      · next f v d hleaf => exact hroot (rootIsLeaf_iff.mpr ⟨f, v, d, hleaf⟩)
      · split at h
        · simp at h
        · split at h <;> simp at h

/-- A store whose nodes are sound and whose ROOT has the symbols of a text in its set (10_state.md R44). -/
structure Spells (T : TreeStore) (t : List Symbol) : Prop where
  node_sound : ∀ i, (h : i < T.nodes.length) → NodeSound T.nodes i T.nodes[i]
  root_syms  : ∀ c ∈ t, hasSym (symsAt T.nodes T.root) c = true

theorem spells_buildTree (o : LeafOrder) (t : List Symbol) (ht : t ≠ []) : Spells (buildTree o t) t where
  node_sound := (passInv_buildTree o ht).1.forest.node_sound
  root_syms c hc := by
    obtain ⟨n, hn, hsym⟩ := (passInv_buildTree o ht).1.covered c hc
    rw [passList_buildTree o ht, List.mem_singleton] at hn
    rwa [hn] at hsym

section Codes
variable {T : TreeStore} {t : List Symbol} {c d : Symbol} {x y : List Bool}

/-- Where ROOT is a leaf, it is the leaf of every symbol. -/
theorem Spells.root_leaf (hT : Spells T t) (hc : c ∈ t) (hroot : T.rootIsLeaf = true) :
    ∃ f v, T.nodes[T.root]? = some (.leaf f v c) := by
  obtain ⟨f, v, d, hleaf⟩ := rootIsLeaf_iff.mp hroot
  obtain rfl := eq_of_hasSym_leaf hT.node_sound hleaf (hT.root_syms c hc)
  exact ⟨f, v, hleaf⟩

/-- Where ROOT is no leaf, a code is the path to its symbol's leaf. -/
theorem Spells.leadsToLeaf (hT : Spells T t) (hc : c ∈ t) (hroot : T.rootIsLeaf = false)
    (hx : findCode T c = some x) : LeadsToLeaf T.nodes T.root x c := by
  rw [findCode, hroot] at hx
  exact leadsToLeaf_of_findCodeFrom hT.node_sound (hT.root_syms c hc) hx

theorem Spells.eq_of_prefix (hT : Spells T t) (hc : c ∈ t) (hd : d ∈ t) (hx : findCode T c = some x)
    (hy : findCode T d = some y) (h : x <+: y) : c = d := by
  cases hroot : T.rootIsLeaf with
  | true =>
    obtain ⟨f, v, hleaf⟩ := hT.root_leaf hc hroot
    exact eq_of_hasSym_leaf hT.node_sound hleaf (hT.root_syms d hd)
  | false => exact (hT.leadsToLeaf hc hroot hx).eq_of_prefix (hT.leadsToLeaf hd hroot hy) h

end Codes

/-- Settles O31: codes are paths to leaves, and no leaf lies on the way to another. -/
theorem codesArePrefixFree : Obligations.CodesArePrefixFree := fun o t _ _ _ _ hc hd hne hx hy hprefix =>
  hne ((spells_buildTree o t (List.ne_nil_of_mem hc)).eq_of_prefix hc hd hx hy hprefix)

/-- With two symbols or more, ROOT is the node of the last merge. -/
theorem rootIsLeaf_buildTree (o : LeafOrder) {t : List Symbol} (ht : t ≠ []) (hk : 2 ≤ (leafOrder o t).length) :
    (buildTree o t).rootIsLeaf = false := by
  obtain ⟨hp, hroot⟩ := passInv_buildTree o ht
  obtain ⟨f, v, l, r, -, hnode, -⟩ := hp.merges ((leafOrder o t).length - 2) (by omega)
  rw [show (leafOrder o t).length + ((leafOrder o t).length - 2) = (buildTree o t).root by omega] at hnode
  rw [TreeStore.rootIsLeaf, hnode]
  rfl

/-- Each listed code is the code of a symbol of the text. -/
theorem exists_symbol_of_code {T : TreeStore} {t : List Symbol} {codes : List (List Bool)}
    (h : t.map (findCode T) = codes.map some) {x : List Bool} (hx : x ∈ codes) : ∃ c ∈ t, findCode T c = some x := by
  have hmem : some x ∈ t.map (findCode T) := h ▸ List.mem_map_of_mem hx
  exact List.mem_map.mp hmem

theorem length_flatten_le {α : Type} {xs : List (List α)} {n : Nat} (h : ∀ x ∈ xs, x.length ≤ n) :
    xs.flatten.length ≤ xs.length * n := by
  have hsum := List.sum_le_card_nsmul (xs.map List.length) n fun m hm => by
    obtain ⟨x, hx, rfl⟩ := List.mem_map.mp hm
    exact h x hx
  rwa [List.length_map, smul_eq_mul, ← List.length_flatten] at hsum

/-- Settles O32: the lookup finds each symbol's leaf, in at least one step and at most one for each merge. -/
theorem huffmanCodesExistAndAreBounded : Obligations.HuffmanCodesExistAndAreBounded := by
  intro o t ht
  obtain ⟨codes, hcodes⟩ := exists_codes_buildTree o t
  have hlen : ∀ x ∈ codes, 1 ≤ x.length ∧ x.length ≤ max 1 ((leafOrder o t).length - 1) := fun x hx => by
    obtain ⟨c, -, hcode⟩ := exists_symbol_of_code hcodes hx
    exact ⟨List.length_pos_iff.mpr fun hnil => findCode_ne_nil (hnil ▸ hcode), findCode_buildTree_length_le ht hcode⟩
  have hcount : codes.length = t.length := by simpa using (congrArg List.length hcodes).symm
  refine ⟨leafOrder_length_pos ht, length_le_256_of_nodup (leafOrder_nodup o t), fun hk c hc => ?_,
    codes, hcodes, hlen, huffEncode_of_codes hcodes, hcount ▸ length_flatten_le fun x hx => (hlen x hx).2⟩
  obtain ⟨code, hcode⟩ := exists_findCode_buildTree o hc
  obtain ⟨n, f, v, hpath⟩ := (spells_buildTree o t ht).leadsToLeaf hc (rootIsLeaf_buildTree o ht hk) hcode
  exact ⟨code, n, f, v, hcode, hpath⟩

/-! ### The decoder along a path (R142, R143) -/

/-- What a walk comes to from the leaf of a symbol on: the end, or the symbol and the walk from ROOT. -/
def walkAfter (T : TreeStore) (c : Symbol) (j : Nat) (bits : List Bool) : Option Decoded :=
  if c = delimSym then some { out := [], found := true, pos := j }
  else (huffWalk T T.root j bits).map fun d => { d with out := c :: d.out }

theorem walkAfter_delim (T : TreeStore) (j : Nat) (bits : List Bool) :
    walkAfter T delimSym j bits = some { out := [], found := true, pos := j } := if_pos rfl

theorem walkAfter_of_ne {T : TreeStore} {c : Symbol} (hc : c ≠ delimSym) (j : Nat) (bits : List Bool) :
    walkAfter T c j bits = (huffWalk T T.root j bits).map fun d => { d with out := c :: d.out } := if_neg hc

theorem arriveAt_internal {nodes : List Node} {n f : Nat} {v : BitVec 256} {l r : Nat}
    (h : nodes[n]? = some (.internal f v l r)) : arriveAt nodes n = some (.inside n) := by
  rw [arriveAt, h]

theorem arriveAt_leaf {nodes : List Node} {n f : Nat} {v : BitVec 256} {c : Symbol}
    (h : nodes[n]? = some (.leaf f v c)) :
    arriveAt nodes n = some (if c = delimSym then .stop else .symbol c) := by
  rw [arriveAt, h]

theorem huffStep_internal {T : TreeStore} (hroot : T.rootIsLeaf = false) {n f : Nat} {v : BitVec 256} {l r : Nat}
    (h : T.nodes[n]? = some (.internal f v l r)) (b : Bool) :
    huffStep T n b = arriveAt T.nodes (if b then r else l) := by
  simp [huffStep, hroot, h]

theorem huffStep_rootIsLeaf {T : TreeStore} (hroot : T.rootIsLeaf = true) (cur : Nat) (b : Bool) :
    huffStep T cur b = arriveAt T.nodes T.root := by
  rw [huffStep, if_pos hroot]

/-- A step that arrives at a leaf ends a symbol. -/
theorem huffWalk_cons_leaf {T : TreeStore} {cur n : Nat} {b : Bool} (hstep : huffStep T cur b = arriveAt T.nodes n)
    {f : Nat} {v : BitVec 256} {c : Symbol} (hleaf : T.nodes[n]? = some (.leaf f v c)) (j : Nat) (bits : List Bool) :
    huffWalk T cur j (b :: bits) = walkAfter T c (j + 1) bits := by
  rw [huffWalk, hstep, arriveAt_leaf hleaf]
  by_cases hc : c = delimSym
  · rw [if_pos hc, hc, walkAfter_delim]
  · rw [if_neg hc, walkAfter_of_ne hc]

/-- A step that arrives at an internal node stays inside the code. -/
theorem huffWalk_cons_internal {T : TreeStore} {cur n : Nat} {b : Bool}
    (hstep : huffStep T cur b = arriveAt T.nodes n) {f : Nat} {v : BitVec 256} {l r : Nat}
    (hnode : T.nodes[n]? = some (.internal f v l r)) (j : Nat) (bits : List Bool) :
    huffWalk T cur j (b :: bits) = huffWalk T n (j + 1) bits := by
  rw [huffWalk, hstep, arriveAt_internal hnode]

/-- The decoder follows a path to its leaf. -/
theorem LeadsToLeaf.huffWalk_eq {T : TreeStore} (hroot : T.rootIsLeaf = false) {n : Nat} {x : List Bool} {c : Symbol}
    (h : LeadsToLeaf T.nodes n x c) (hx : x ≠ []) (j : Nat) (bits : List Bool) :
    huffWalk T n j (x ++ bits) = walkAfter T c (j + x.length) bits := by
  induction x generalizing n j with
  | nil => exact absurd rfl hx
  | cons b x ih =>
    obtain ⟨f, v, l, r, hnode, hchild⟩ := leadsToLeaf_cons.mp h
    have hstep := huffStep_internal hroot hnode b
    cases x with
    | nil =>
      obtain ⟨f', v', hleaf⟩ := leadsToLeaf_nil.mp hchild
      exact huffWalk_cons_leaf hstep hleaf j bits
    | cons b' x =>
      obtain ⟨f', v', l', r', hnode', -⟩ := leadsToLeaf_cons.mp hchild
      rw [List.cons_append, huffWalk_cons_internal hstep hnode', ih hchild (List.cons_ne_nil b' x),
        List.length_cons (a := b), Nat.add_right_comm, Nat.add_assoc]

/-- The decoder reads the code of a symbol as the symbol, on a one-leaf tree too. -/
theorem Spells.huffWalk_code {T : TreeStore} {t : List Symbol} (hT : Spells T t) {c : Symbol} (hc : c ∈ t)
    {x : List Bool} (hx : findCode T c = some x) (j : Nat) (bits : List Bool) :
    huffWalk T T.root j (x ++ bits) = walkAfter T c (j + x.length) bits := by
  cases hroot : T.rootIsLeaf with
  | true =>
    obtain ⟨f, v, hleaf⟩ := hT.root_leaf hc hroot
    rw [findCode_of_rootIsLeaf hroot] at hx
    cases hx
    exact huffWalk_cons_leaf (huffStep_rootIsLeaf hroot _ false) hleaf j bits
  | false =>
    have hne : x ≠ [] := fun hnil => findCode_ne_nil (hnil ▸ hx)
    exact (hT.leadsToLeaf hc hroot hx).huffWalk_eq hroot hne j bits

theorem encodeWith_cons {T : TreeStore} {c : Symbol} {t : List Symbol} {bits : List Bool}
    (h : encodeWith T (c :: t) = some bits) :
    ∃ x rest, findCode T c = some x ∧ encodeWith T t = some rest ∧ bits = x ++ rest := by
  rw [encodeWith] at h
  split at h
  · cases h
  · next x hx =>
    obtain ⟨rest, hrest, rfl⟩ := Option.map_eq_some_iff.mp h
    exact ⟨x, rest, hx, hrest, rfl⟩

/-- The codes of a message and its delimiter decode to the message, whatever follows them. -/
theorem Spells.huffWalk_encodeWith {T : TreeStore} {t : List Symbol} (hT : Spells T t) {m : List Symbol}
    (hm : delimSym ∉ m) (hsub : m ++ [delimSym] ⊆ t) {bits : List Bool}
    (h : encodeWith T (m ++ [delimSym]) = some bits) (j : Nat) (x : List Bool) :
    huffWalk T T.root j (bits ++ x) = some { out := m, found := true, pos := j + bits.length } := by
  induction m generalizing bits j with
  | nil =>
    obtain ⟨code, rest, hcode, hrest, rfl⟩ := encodeWith_cons h
    cases hrest
    rw [List.append_nil, hT.huffWalk_code (hsub (List.mem_singleton_self _)) hcode, walkAfter_delim]
  | cons c m ih =>
    obtain ⟨hc, hm⟩ := not_or.mp (mt List.mem_cons.mpr hm)
    obtain ⟨hmem, hsub⟩ := List.cons_subset.mp hsub
    obtain ⟨code, rest, hcode, hrest, rfl⟩ := encodeWith_cons h
    rw [List.append_assoc, hT.huffWalk_code hmem hcode, walkAfter_of_ne (Ne.symm hc), ih hm hsub hrest,
      Option.map_some, List.length_append, Nat.add_assoc]

/-! ### The one-leaf tree (R136) -/

/-- A text of delimiters has the delimiter as its one leaf. -/
theorem leafOrder_delims (o : LeafOrder) {m : List Symbol} (h : ∀ c ∈ m, c = delimSym) :
    leafOrder o (m ++ [delimSym]) = [delimSym] := by
  refine List.perm_singleton.mp ((List.perm_ext_iff_of_nodup (leafOrder_nodup o _) (List.nodup_singleton _)).mpr ?_)
  intro c
  rw [mem_leafOrder, List.mem_append, List.mem_singleton]
  exact ⟨fun hc => hc.elim (h c) id, .inr⟩

theorem leafOrder_length_eq_one_iff (o : LeafOrder) (m : List Symbol) :
    (leafOrder o (m ++ [delimSym])).length = 1 ↔ ∀ c ∈ m, c = delimSym := by
  refine ⟨fun h c hc => ?_, fun h => by rw [leafOrder_delims o h, List.length_singleton]⟩
  obtain ⟨a, ha⟩ := List.length_eq_one_iff.mp h
  have hall : ∀ d ∈ m ++ [delimSym], d = a := fun d hd => List.mem_singleton.mp (ha ▸ mem_leafOrder.mpr hd)
  rw [hall c (by simp [hc]), hall delimSym (by simp)]

theorem root_buildTree_delims (o : LeafOrder) {m : List Symbol} (h : ∀ c ∈ m, c = delimSym) :
    ∃ f v, (buildTree o (m ++ [delimSym])).nodes[(buildTree o (m ++ [delimSym])).root]? =
      some (.leaf f v delimSym) := by
  have ht : m ++ [delimSym] ≠ [] := by simp
  have hroot := (passInv_buildTree o ht).2
  have hleaf := getElem?_buildTree_leaf o ht (i := 0) (leafOrder_length_pos ht)
  simp only [leafOrder_delims o h, List.length_singleton, List.getElem_cons_zero] at hroot hleaf
  exact ⟨_, _, by rw [hroot]; exact hleaf⟩

/-- Settles O33: with delimiters alone ROOT is the delimiter's leaf, where every lookup answers `[0]` and every bit
arrives. -/
theorem oneLeafTreeUsesOneBit : Obligations.OneLeafTreeUsesOneBit := by
  refine ⟨leafOrder_length_eq_one_iff, fun o m h => ?_⟩
  obtain ⟨f, v, hleaf⟩ := root_buildTree_delims o h
  have hroot := rootIsLeaf_iff.mpr ⟨f, v, delimSym, hleaf⟩
  have hcodes : (m ++ [delimSym]).map (findCode (buildTree o (m ++ [delimSym]))) =
      (List.replicate (m.length + 1) [false]).map some := by
    rw [funext (findCode_of_rootIsLeaf hroot), List.map_const', List.map_replicate, List.length_append,
      List.length_singleton]
  refine ⟨findCode_of_rootIsLeaf hroot delimSym, ?_, fun cur j b x => ?_⟩
  · rw [huffEncode_of_codes hcodes, List.flatten_replicate_singleton]
  · rw [huffWalk_cons_leaf (huffStep_rootIsLeaf hroot cur b) hleaf, walkAfter_delim]

/-! ### DECODE.HUFF (R144, R145, R147) -/

/-- A walk that met the delimiter, or failed, reads no further bit. -/
theorem huffWalk_append {T : TreeStore} {cur j : Nat} {bits : List Bool}
    (h : ∀ d, huffWalk T cur j bits = some d → d.found = true) (x : List Bool) :
    huffWalk T cur j (bits ++ x) = huffWalk T cur j bits := by
  induction bits generalizing cur j with
  | nil => exact absurd (h _ rfl) Bool.false_ne_true
  | cons b bits ih =>
    rw [huffWalk] at h
    rw [List.cons_append, huffWalk, huffWalk]
    cases hstep : huffStep T cur b with
    | none => rfl
    | some w =>
      rw [hstep] at h
      cases w with
      | inside n => exact ih h
      | symbol c =>
        refine congrArg (Option.map _) (ih fun d hd => ?_)
        exact h { d with out := c :: d.out } (by simp only [hd, Option.map_some])
      | stop => rfl

/-- Within the bits before the last one that a walk took to the delimiter, it has not met it. -/
theorem exists_huffWalk_not_found {T : TreeStore} {cur j : Nat} {bits x : List Bool} {d : Decoded}
    (h : huffWalk T cur j (bits ++ x) = some d) (hpos : j + bits.length < d.pos) :
    ∃ d', huffWalk T cur j bits = some d' ∧ d'.found = false := by
  by_contra hnone
  have hstop : ∀ d', huffWalk T cur j bits = some d' → d'.found = true := fun d' hd' =>
    eq_true_of_ne_false fun hf => hnone ⟨d', hd', hf⟩
  rw [huffWalk_append hstop x] at h
  have := (huffWalk_bounds h).2
  omega

theorem huffDecodeStage_of_invalid {s : State} (hv : s.treeValid = false) :
    huffDecodeStage s = .error .session s := by
  rw [huffDecodeStage, if_pos hv]

/-- The stage commits the text of a walk that met the delimiter in the bits it may examine. -/
theorem huffDecodeStage_of_found {s : State} {d : Decoded} (hv : s.treeValid = true)
    (hw : huffWalk s.tree s.tree.root 0 (s.writtenPrefix.take (decodeBound s.params.huffBound s.bitLen)) = some d)
    (hd : d.found = true) : huffDecodeStage s = .ok (s.writeText d.out d.found d.pos) := by
  simp [huffDecodeStage, hv, hw, hd]

/-- The stage raises TRUNCATED where all the bits it may examine are written and none ends the text. -/
theorem huffDecodeStage_truncated {s : State} {bits : List Bool} {d : Decoded} (hv : s.treeValid = true)
    (hbits : s.writtenPrefix.take (decodeBound s.params.huffBound s.bitLen) = bits)
    (hlen : bits.length = decodeBound s.params.huffBound s.bitLen)
    (hw : huffWalk s.tree s.tree.root 0 bits = some d) (hd : d.found = false) :
    huffDecodeStage s = .error .truncated s := by
  simp only [huffDecodeStage, hv, hbits, hw, hd, hlen]
  simp

/-- Settles O40: the bits given are the first of those the stage examines, and are all of them where it runs out. -/
theorem decodeHuffResult : Obligations.DecodeHuffResult := by
  intro s
  refine ⟨fun hv => decodeOf_error (k := .huff) (huffDecodeStage_of_invalid hv),
    fun hv bits d hstarts hlen hw => ⟨fun hd => ?_, fun hd hall => ?_⟩⟩
  · obtain ⟨x, hx⟩ := (prefix_writtenPrefix hstarts).take (decodeBound s.params.huffBound s.bitLen)
    rw [List.take_of_length_le hlen] at hx
    have hwalk := huffWalk_append (x := x) fun d' hd' => by rwa [Option.some.inj (hd'.symm.trans hw)]
    rw [hx, hw] at hwalk
    have hstage := huffDecodeStage_of_found hv hwalk hd
    have hresult := decodeOf_completes (k := .huff) hstage
    rwa [hd] at hresult
  · have htake := (List.prefix_iff_eq_take.mp (prefix_writtenPrefix hstarts)).symm
    rw [hall] at htake
    exact decodeOf_error (k := .huff) (huffDecodeStage_truncated hv htake hall hw hd)

/-! ### The round trip (R151) -/

theorem huffEncode_eq_some {o : LeafOrder} {t : List Symbol} {T : TreeStore} {bits : List Bool}
    (h : huffEncode o t = some (T, bits)) : T = buildTree o t ∧ encodeWith T t = some bits := by
  obtain ⟨bits', hbits, hpair⟩ := Option.map_eq_some_iff.mp h
  cases hpair
  exact ⟨rfl, hbits⟩

/-- The stream of a message and its delimiter decodes to the message with the tree of the two. -/
theorem huffWalk_huffEncode {o : LeafOrder} {m : List Symbol} (hm : delimSym ∉ m) {T : TreeStore} {bits : List Bool}
    (h : huffEncode o (m ++ [delimSym]) = some (T, bits)) (x : List Bool) :
    huffWalk T T.root 0 (bits ++ x) = some { out := m, found := true, pos := bits.length } := by
  obtain ⟨rfl, hbits⟩ := huffEncode_eq_some h
  simpa using (spells_buildTree o _ (by simp)).huffWalk_encodeWith hm (List.Subset.refl _) hbits 0 x

theorem HoldsStream.streamStarts {s : State} {bits x : List Bool} (h : HoldsStream s (bits ++ x)) :
    StreamStarts s bits := by
  obtain ⟨hlen, hbits⟩ := h
  rw [List.length_append] at hlen
  refine ⟨by omega, fun j hj => ?_⟩
  rw [hbits j (by simp; omega), List.getElem_append_left hj]

/-- A stream that something follows may be examined whole under either bound (R144). -/
theorem le_decodeBound {b : HuffDecodeBound} {x : List Bool} (h : b = .allBits ∨ x ≠ []) (n : Nat) :
    n ≤ decodeBound b (n + x.length) := by
  cases b with
  | allBits => exact Nat.le_add_right n _
  | allButLast =>
    have hx : 0 < x.length := List.length_pos_iff.mpr (h.resolve_left nofun)
    simp only [decodeBound]
    omega

/-- Settles O35: the walk of the stream meets the delimiter at its last bit, which ALL_BUT_LAST leaves out where
nothing follows. -/
theorem huffmanRoundTrip : Obligations.HuffmanRoundTrip := by
  intro s m bits x hm hv henc hstream
  have hdecode := (decodeHuffResult s).2 hv
  have hwalk := huffWalk_huffEncode hm henc []
  rw [List.append_nil] at hwalk
  have hlen : s.bitLen = bits.length + x.length := by rw [hstream.1, List.length_append]
  refine ⟨fun hbound => ?_, fun hbound hnil => ?_⟩
  · have hle : bits.length ≤ decodeBound s.params.huffBound s.bitLen := hlen ▸ le_decodeBound hbound _
    obtain ⟨t, hexec, hdone, htext, hpos, hdelim, -⟩ := (hdecode bits _ hstream.streamStarts hle hwalk).1 rfl
    exact ⟨t, hexec, hdone, htext, hpos, hdelim⟩
  · have hne : bits ≠ [] := by
      rintro rfl
      cases hwalk
    have hall : bits.dropLast.length = decodeBound s.params.huffBound s.bitLen := by
      rw [hbound, List.length_dropLast, hlen, hnil]
      rfl
    rw [hnil, List.append_nil] at hstream
    rw [← List.dropLast_append_getLast hne] at hwalk hstream
    obtain ⟨d, hd, hfound⟩ := exists_huffWalk_not_found hwalk (by simp)
    exact (hdecode _ d hstream.streamStarts hall.le hd).2 hfound hall

/-! ### No internal consistency failure (R141, 60_exceptions.md R216) -/

/-- The outcome is no fault but that of an unwritten entry. -/
def StageOutcome.FaultsOnlyUnwritten (o : StageOutcome) : Prop := ∀ r, o = .fault r → r = .unwrittenRead

theorem StageOutcome.FaultsOnlyUnwritten.andThen {o : StageOutcome} {next : State → StageOutcome}
    (ho : o.FaultsOnlyUnwritten) (hnext : ∀ u, o = .ok u → (next u).FaultsOnlyUnwritten) :
    (o.andThen next).FaultsOnlyUnwritten := by
  cases o with
  | ok u => exact hnext u rfl
  | error e u => exact fun r h => nomatch h
  | fault r => exact fun r' h => by cases h; exact ho r rfl

theorem StageOutcome.FaultsOnlyUnwritten.finish {o : StageOutcome} (ho : o.FaultsOnlyUnwritten) :
    (∃ t, o.finish = .next t) ∨ o.finish = .fault .unwrittenRead := by
  cases o with
  | ok u => exact .inl ⟨_, rfl⟩
  | error e u => exact .inl ⟨_, rfl⟩
  | fault r =>
    rw [ho r rfl]
    exact .inr rfl

/-- A walk is at home at a node where it can take a step: an internal node, or any node of a one-leaf tree. -/
def WalksFrom (T : TreeStore) (cur : Nat) : Prop :=
  T.rootIsLeaf = true ∨ ∃ f v l r, T.nodes[cur]? = some (.internal f v l r)

theorem WalksFrom.of_arriveAt {T : TreeStore} {n m : Nat} (h : arriveAt T.nodes n = some (.inside m)) :
    WalksFrom T m := by
  unfold arriveAt at h
  split at h
  · cases h
  · next f v l r hnode =>
    cases h
    exact .inr ⟨f, v, l, r, hnode⟩
  · next f v c hleaf => split at h <;> cases h

theorem exists_arriveAt {nodes : List Node} {n : Nat} (h : n < nodes.length) : ∃ w, arriveAt nodes n = some w := by
  rw [arriveAt, List.getElem?_eq_getElem h]
  cases nodes[n] with
  | leaf f v c => exact ⟨_, rfl⟩
  | internal f v l r => exact ⟨_, rfl⟩

section Sound
variable {T : TreeStore} (hT : TreeSound T)
include hT

theorem TreeSound.root_lt : T.root < T.nodes.length := by
  have := hT.root_last
  rw [TreeStore.nnodes] at this
  omega

theorem TreeSound.walksFrom_root : WalksFrom T T.root := by
  have hnode := List.getElem?_eq_getElem hT.root_lt
  cases hroot : T.nodes[T.root]'hT.root_lt with
  | leaf f v c => exact .inl (rootIsLeaf_iff.mpr ⟨f, v, c, hnode.trans (congrArg some hroot)⟩)
  | internal f v l r => exact .inr ⟨f, v, l, r, hnode.trans (congrArg some hroot)⟩

/-- A step of a walk arrives at a node of the arena: the children of a sound node come before it. -/
theorem TreeSound.huffStep_arrives {cur : Nat} (hcur : WalksFrom T cur) (b : Bool) :
    ∃ n, n < T.nodes.length ∧ huffStep T cur b = arriveAt T.nodes n := by
  cases hroot : T.rootIsLeaf with
  | true => exact ⟨T.root, hT.root_lt, huffStep_rootIsLeaf hroot cur b⟩
  | false =>
    obtain ⟨f, v, l, r, hnode⟩ := hcur.resolve_left (by simp [hroot])
    obtain ⟨hlt, hget⟩ := List.getElem?_eq_some_iff.mp hnode
    have hsound := hT.node_sound cur hlt
    rw [hget] at hsound
    obtain ⟨hl, hr, -⟩ := hsound
    refine ⟨if b then r else l, ?_, huffStep_internal hroot hnode b⟩
    split <;> omega

/-- The walk of a sound tree never fails. -/
theorem TreeSound.exists_huffWalk {cur : Nat} (hcur : WalksFrom T cur) (j : Nat) (bits : List Bool) :
    ∃ d, huffWalk T cur j bits = some d := by
  induction bits generalizing cur j with
  | nil => exact ⟨_, rfl⟩
  | cons b bits ih =>
    obtain ⟨n, hn, hstep⟩ := hT.huffStep_arrives hcur b
    obtain ⟨w, hw⟩ := exists_arriveAt hn
    rw [huffWalk, hstep, hw]
    cases w with
    | inside m => exact ih (.of_arriveAt hw) (j + 1)
    | symbol c =>
      obtain ⟨d, hd⟩ := ih hT.walksFrom_root (j + 1)
      exact ⟨_, by simp only [hd, Option.map_some]; rfl⟩
    | stop => exact ⟨_, rfl⟩

end Sound

/-- Every text an encode stage encodes has its stream: the lookups of R141 do not fail. -/
theorem exists_encodeText (k : Kind) (s : State) (t : List Symbol) : ∃ r, encodeText k s t = some r := by
  cases k with
  | raw => exact ⟨_, rfl⟩
  | caesar => exact ⟨_, rfl⟩
  | huff =>
    obtain ⟨codes, hcodes⟩ := exists_codes_buildTree s.params.leafOrder t
    exact ⟨_, encodeText_huff (huffEncode_of_codes hcodes)⟩

theorem encodeStage_faultsOnlyUnwritten (k : Kind) (s : State) : (encodeStage k s).FaultsOnlyUnwritten := by
  intro r h
  obtain ⟨-, e⟩ | ⟨m, -, ⟨-, e⟩ | ⟨-, ⟨hnone, -⟩ | ⟨_, -, ⟨-, e⟩ | ⟨-, -, e⟩ | ⟨_, -, -, e⟩⟩⟩⟩ :=
    encodeStage_cases k s
  · rw [e] at h
    cases h
    rfl
  · simp [e] at h
  · obtain ⟨r', hr'⟩ := exists_encodeText k s (textOf m)
    simp [hr'] at hnone
  · simp [e] at h
  · simp [e] at h
  · simp [e] at h

theorem fixedDecodeStage_faultsOnlyUnwritten (decoder : List Bool → Decoded) (s : State) :
    (fixedDecodeStage decoder s).FaultsOnlyUnwritten := by
  intro r h
  obtain ⟨-, -, e⟩ | ⟨-, ⟨-, -, e⟩ | ⟨-, e⟩⟩ := fixedDecodeStage_cases decoder s
  · rw [e] at h
    cases h
    rfl
  · simp [e] at h
  · simp [e] at h

theorem huffDecodeStage_faultsOnlyUnwritten {s : State} (hs : TreeInv s) :
    (huffDecodeStage s).FaultsOnlyUnwritten := by
  intro r h
  obtain ⟨-, e⟩ | ⟨hv, ⟨hnone, -⟩ | ⟨d, -, ⟨-, e⟩ | ⟨-, -, e⟩ | ⟨-, -, e⟩⟩⟩ := huffDecodeStage_cases s
  · simp [e] at h
  · obtain ⟨d, hd⟩ := (hs hv).exists_huffWalk (hs hv).walksFrom_root 0
      (s.writtenPrefix.take (decodeBound s.params.huffBound s.bitLen))
    simp [hd] at hnone
  · simp [e] at h
  · rw [e] at h
    cases h
    rfl
  · simp [e] at h

theorem decodeStage_faultsOnlyUnwritten (k : Kind) {s : State} (hs : TreeInv s) :
    (decodeStage k s).FaultsOnlyUnwritten := by
  cases k with
  | raw => exact fixedDecodeStage_faultsOnlyUnwritten rawDecode s
  | caesar => exact fixedDecodeStage_faultsOnlyUnwritten (fun bits => caesarDecode bits s.shift) s
  | huff => exact huffDecodeStage_faultsOnlyUnwritten hs

theorem writeStage_faultsOnlyUnwritten (s : State) : (writeStage s).FaultsOnlyUnwritten := by
  intro r h
  obtain ⟨-, e⟩ | ⟨-, ⟨-, e⟩ | ⟨-, ⟨-, e⟩ | ⟨-, e⟩⟩⟩ := writeStage_cases s
  · simp [e] at h
  · simp [e] at h
  · rw [e] at h
    cases h
    rfl
  · simp [e] at h

theorem readAllStage_faultsOnlyUnwritten (s : State) : (readAllStage s).FaultsOnlyUnwritten := by
  intro r h
  obtain ⟨-, e⟩ | ⟨-, e⟩ := readAllStage_cases s
  · simp [e] at h
  · simp [e] at h

theorem embedStages_faultsOnlyUnwritten (k : Kind) (s : State) : (embedStages k s).FaultsOnlyUnwritten :=
  (encodeStage_faultsOnlyUnwritten k s).andThen fun u _ => writeStage_faultsOnlyUnwritten u

/-- The read stage keeps the tree that the decode stage walks. -/
theorem extractStages_faultsOnlyUnwritten (k : Kind) {s : State} (hs : TreeInv s) :
    (extractStages k s).FaultsOnlyUnwritten := by
  refine (readAllStage_faultsOnlyUnwritten s).andThen fun u hu => decodeStage_faultsOnlyUnwritten k fun hv => ?_
  have hends := readAllStage_treeKept s
  rw [hu] at hends
  obtain ⟨hvalid, htree⟩ := hends
  rw [htree]
  exact hs (hvalid ▸ hv)

/-- Settles O56: no stage of a command faults but on an unwritten entry, with a sound tree to decode by. -/
theorem commandsCompleteOrMeetUnwritten : Obligations.CommandsCompleteOrMeetUnwritten := by
  intro i s hs
  cases i with
  | encodeRaw => exact (encodeStage_faultsOnlyUnwritten .raw s).finish
  | encodeCaesar => exact (encodeStage_faultsOnlyUnwritten .caesar s).finish
  | encodeHuff => exact (encodeStage_faultsOnlyUnwritten .huff s).finish
  | decodeRaw => exact (decodeStage_faultsOnlyUnwritten .raw hs).finish
  | decodeCaesar => exact (decodeStage_faultsOnlyUnwritten .caesar hs).finish
  | decodeHuff => exact (decodeStage_faultsOnlyUnwritten .huff hs).finish
  | write => exact (writeStage_faultsOnlyUnwritten s).finish
  | readall => exact (readAllStage_faultsOnlyUnwritten s).finish
  | embedRaw => exact (embedStages_faultsOnlyUnwritten .raw s).finish
  | embedCaesar => exact (embedStages_faultsOnlyUnwritten .caesar s).finish
  | embedHuff => exact (embedStages_faultsOnlyUnwritten .huff s).finish
  | extractRaw => exact (extractStages_faultsOnlyUnwritten .raw hs).finish
  | extractCaesar => exact (extractStages_faultsOnlyUnwritten .caesar hs).finish
  | extractHuff => exact (extractStages_faultsOnlyUnwritten .huff hs).finish
  | newsession => exact .inl ⟨_, rfl⟩

end Sys2Proof.Machine

/-! The embedder (42_embedder.md R171 to R180): slots and the capacity check, WRITE and READALL by their stages, what a
pixel write leaves, and the round trip through the LSBs. -/

namespace Sys2Proof.Machine

/-! ### Slots and the capacity check (R171, R172, R178) -/

/-- Settles O44: `i` is its channel plus three times its pixel, and the pixel is its column plus `COLS` times its row. -/
theorem slotIsPixelByte : Obligations.SlotIsPixelByte := by
  intro rows cols i hi
  have hcols : 0 < cols := Nat.pos_of_ne_zero (by rintro rfl; simp at hi)
  have hrow : i / (cols * 3) = i / 3 / cols := by rw [Nat.mul_comm, Nat.div_div_eq_div_mul]
  have hpixel : i / 3 / cols * cols + i / 3 % cols = i / 3 := Nat.div_add_mod' (i / 3) cols
  have haddr : (i / (cols * 3) * cols + i / 3 % cols) * 3 + i % 3 = i := by
    rw [hrow, hpixel, Nat.div_add_mod']
  have hrowlt : i / (cols * 3) < rows := Nat.div_lt_of_lt_mul (by rwa [Nat.mul_comm, ← Nat.mul_assoc])
  exact ⟨rfl, rfl, rfl, hrowlt, Nat.mod_lt _ hcols, Nat.mod_lt _ (by decide), haddr, haddr⟩

theorem fits_exactRule {l c : Nat} : fits .exactRule l c = true ↔ l ≤ c := decide_eq_true_iff

theorem fits_marginRule {l c : Nat} : fits .marginRule l c = true ↔ 8 * ((l + 7) / 8 + 1) ≤ c := decide_eq_true_iff

/-- Settles O45: each bound is that of the rule's inequality. -/
theorem capacityCheckBounds : Obligations.CapacityCheckBounds := by
  intro l c
  rw [← Bool.not_eq_true (fits .marginRule l c), fits_marginRule]
  exact ⟨fits_exactRule, Iff.rfl, by omega, by omega, by omega, by omega⟩

/-! ### WRITE (R173, R176) -/

theorem exec_write (s : State) : exec .write s = (writeStage s).finish := rfl

/-- The per-slot read-modify-write of a stream, from slot 0, puts the stream into the LSBs. -/
theorem pixelsCarry_embedFrom (s : State) (bits : List Bool) :
    PixelsCarry s { s with pix := embedFrom s.pix 0 bits } bits := by
  have hin (a : Nat) (ha : a < bits.length) :
      memRead (embedFrom s.pix 0 bits) a = setLsb (memRead s.pix a) bits[a] := by
    rw [memRead_embedFrom, if_pos ⟨Nat.zero_le a, by omega⟩]
    simp [ha]
  refine ⟨fun a ha => ⟨?_, fun i hi => ?_⟩, fun a ha => ?_⟩
  · simp only [hin a ha, setLsb_getLsbD_zero]
  · simp only [hin a ha, setLsb_getLsbD_succ _ _ i hi]
  · simp only [memRead_embedFrom]
    rw [if_neg (by omega)]

section Write
variable {s : State}

theorem writeStage_geometry (h : s.params.gridBytesMax < s.capacity) : writeStage s = .error .geometry s :=
  if_pos h

theorem writeStage_capacity (hgrid : GridInMemory s) (hfits : fits s.params.capacityRule s.bitLen s.capacity = false) :
    writeStage s = .error .capacity s := by
  rw [writeStage, if_neg (Nat.not_lt.mpr hgrid), if_pos hfits]

/-- Past the checks only the stream decides: it is read whole, or the stage faults. -/
theorem writeStage_of_fits (hgrid : GridInMemory s) (hfits : fits s.params.capacityRule s.bitLen s.capacity = true) :
    writeStage s = if s.writtenPrefix.length < s.bitLen then .fault .unwrittenRead
      else .ok { s with pix := embedFrom s.pix 0 s.writtenPrefix } := by
  rw [writeStage, if_neg (Nat.not_lt.mpr hgrid), if_neg (by simp [hfits])]

theorem writtenPrefix_lt_of_unwritten {j : Nat} (hj : j < s.bitLen) (hnone : s.streamBit j = none) :
    s.writtenPrefix.length < s.bitLen := by
  obtain ⟨-, hbits, -⟩ := s.writtenPrefix_spec
  by_contra hle
  simp [hbits j (by omega)] at hnone

theorem holdsStream_writtenPrefix (h : s.writtenPrefix.length = s.bitLen) : HoldsStream s s.writtenPrefix := by
  obtain ⟨-, hbits, -⟩ := s.writtenPrefix_spec
  exact ⟨h.symm, hbits⟩

/-- A write stage that commits passed its checks, read the whole stream and wrote it into the LSBs. -/
theorem writeStage_ok {t : State} (h : writeStage s = .ok t) :
    GridInMemory s ∧ fits s.params.capacityRule s.bitLen s.capacity = true ∧
      ∃ bits, HoldsStream s bits ∧ t = { s with pix := embedFrom s.pix 0 bits } := by
  rcases writeStage_cases s with ⟨-, e⟩ | ⟨hgrid, ⟨-, e⟩ | ⟨hfits, ⟨-, e⟩ | ⟨hlen, e⟩⟩⟩ <;> rw [e] at h <;> cases h
  exact ⟨hgrid, hfits, s.writtenPrefix, holdsStream_writtenPrefix hlen, rfl⟩

/-- A write stage that raises an error commits nothing (60_exceptions.md R224). -/
theorem writeStage_error {t : State} {e : ErrorCode} (h : writeStage s = .error e t) :
    t = s ∧ (e = .geometry ∨ e = .capacity) := by
  rcases writeStage_cases s with ⟨-, he⟩ | ⟨-, ⟨-, he⟩ | ⟨-, ⟨-, he⟩ | ⟨-, he⟩⟩⟩ <;> rw [he] at h <;> cases h
  · exact ⟨rfl, .inl rfl⟩
  · exact ⟨rfl, .inr rfl⟩

end Write

/-- Settles O42: the checks in their order, then the stream that is read whole before the first pixel write. -/
theorem writeResult : Obligations.WriteResult := by
  intro s
  rw [exec_write]
  refine ⟨fun hgeometry => ?_, fun hgrid hfits => ?_, fun hgrid hfits => ⟨?_, fun bits hbits => ?_⟩⟩
  · rw [writeStage_geometry hgeometry]
    rfl
  · rw [writeStage_capacity hgrid hfits]
    rfl
  · rintro ⟨j, hj, hnone⟩
    rw [writeStage_of_fits hgrid hfits, if_pos (writtenPrefix_lt_of_unwritten hj hnone)]
    rfl
  · rw [writeStage_of_fits hgrid hfits, writtenPrefix_of_holdsStream hbits, if_neg hbits.1.not_gt]
    exact ⟨_, rfl, ⟨rfl, rfl, rfl⟩, pixelsCarry_embedFrom s bits, hostStateKept_refl s, streamKept_refl s,
      textKept_refl s, treeKept_refl s⟩

/-! ### READALL (R174, R177) -/

theorem exec_readall (s : State) : exec .readall s = (readAllStage s).finish := rfl

theorem readAllStage_geometry {s : State} (h : s.params.gridBytesMax < s.capacity) :
    readAllStage s = .error .geometry s :=
  if_pos h

theorem readAllStage_of_gridInMemory {s : State} (h : GridInMemory s) :
    readAllStage s = .ok (s.writeStream (readLsbs s.pix s.capacity)) :=
  if_neg (Nat.not_lt.mpr h)

/-- The stream of a grid's LSBs, bit by bit. -/
theorem streamBit_writeStream_readLsbs (s : State) (m : Memory) {n i : Nat} (hi : i < n) :
    (s.writeStream (readLsbs m n)).streamBit i = some ((memRead m i).getLsbD 0) := by
  obtain ⟨-, hbits⟩ := holdsStream_writeStream s (readLsbs m n)
  rw [hbits i (by simpa using hi), readLsbs_getElem m n i hi]

/-- Settles O43: the one write is that of the LSBs as a stream, and its laws are those of a stream write. -/
theorem readAllResult : Obligations.ReadAllResult := by
  intro s
  rw [exec_readall]
  refine ⟨fun hgrid => ?_, fun hgeometry => ?_⟩
  · have hlen : (readLsbs s.pix s.capacity).length = s.capacity := readLsbs_length _ _
    have habove := wordsAboveKept_writeStream s (readLsbs s.pix s.capacity)
    rw [hlen] at habove
    rw [readAllStage_of_gridInMemory hgrid]
    exact ⟨_, rfl, ⟨rfl, rfl, rfl⟩, hlen, fun i => streamBit_writeStream_readLsbs s s.pix,
      lastWordZeroFilled_writeStream s _, habove, hostStateKept_refl s, textKept_refl s, treeKept_refl s,
      pixelsKept_refl s⟩
  · rw [readAllStage_geometry hgeometry]
    rfl

/-! ### Pixel writes are all or nothing (R179) -/

/-- At most the LSBs of the bytes below BIT_LEN differ. -/
def OnlyLsbsChanged (s t : State) : Prop :=
  (∀ a, t.bitLen ≤ a → memRead t.pix a = memRead s.pix a) ∧
    ∀ a j, 1 ≤ j → (memRead t.pix a).getLsbD j = (memRead s.pix a).getLsbD j

/-- What the pixel memory may show of a command that ends with a code: nothing on an error, else the LSBs below BIT_LEN. -/
def PixelsAllOrNothing (s : State) (e : ErrorCode) (t : State) : Prop :=
  (e ≠ .noError → PixelsKept s t) ∧ (e = .noError → OnlyLsbsChanged s t)

theorem PixelsKept.allOrNothing {s t : State} (h : PixelsKept s t) (e : ErrorCode) : PixelsAllOrNothing s e t :=
  ⟨fun _ => h, fun _ => ⟨fun a _ => h a, fun a _ _ => by rw [h a]⟩⟩

/-- A stage that keeps the pixels may come first. -/
theorem PixelsKept.trans_allOrNothing {s t u : State} {e : ErrorCode} (hst : PixelsKept s t)
    (htu : PixelsAllOrNothing t e u) : PixelsAllOrNothing s e u := by
  obtain ⟨hnothing, hall⟩ := htu
  refine ⟨fun he => hst.trans (hnothing he), fun he => ?_⟩
  obtain ⟨habove, hhigh⟩ := hall he
  exact ⟨fun a ha => (habove a ha).trans (hst a), fun a j hj => by rw [hhigh a j hj, hst a]⟩

theorem PixelsCarry.onlyLsbsChanged {s t : State} {bits : List Bool} (h : PixelsCarry s t bits)
    (hlen : t.bitLen = bits.length) : OnlyLsbsChanged s t := by
  obtain ⟨hbelow, habove⟩ := h
  refine ⟨fun a ha => habove a (hlen ▸ ha), fun a j hj => ?_⟩
  by_cases ha : a < bits.length
  · exact (hbelow a ha).2 j hj
  · rw [habove a (by omega)]

theorem writeStage_allOrNothing (s : State) : (writeStage s).EndsIn (PixelsAllOrNothing s) := by
  cases h : writeStage s with
  | ok t =>
    obtain ⟨-, -, bits, ⟨hlen, -⟩, rfl⟩ := writeStage_ok h
    exact ⟨fun he => absurd rfl he, fun _ => (pixelsCarry_embedFrom s bits).onlyLsbsChanged hlen⟩
  | error e t =>
    obtain ⟨rfl, -⟩ := writeStage_error h
    exact (pixelsKept_refl t).allOrNothing e
  | fault r => trivial

/-- The encode stage keeps the pixels, so an EMBED's pixel writes are those of its write stage. -/
theorem embedStages_allOrNothing (k : Kind) (s : State) : (embedStages k s).EndsIn (PixelsAllOrNothing s) :=
  (encodeStage_frame k s).andThen (fun e _ ⟨_, hpix, _⟩ => hpix.allOrNothing e) fun u ⟨_, hpix, _⟩ =>
    (writeStage_allOrNothing u).mono fun _ _ ht => hpix.trans_allOrNothing ht

theorem pixelsAllOrNothing_of_finish {o : StageOutcome} {s t : State} (ho : o.EndsIn (PixelsAllOrNothing s))
    (h : o.finish = .next t) : PixelsAllOrNothing s t.err t := by
  obtain ⟨e, u, hu, rfl⟩ := ho.finish h
  exact hu

/-- Settles O46: the write stage is the only one of these commands that writes pixels, and the completion writes STATUS
only. -/
theorem pixelWritesAreAllOrNothing : Obligations.PixelWritesAreAllOrNothing := by
  intro s t i hi h
  simp only [List.mem_cons, List.not_mem_nil, or_false] at hi
  rcases hi with rfl | rfl | rfl | rfl
  · exact pixelsAllOrNothing_of_finish (writeStage_allOrNothing s) h
  · exact pixelsAllOrNothing_of_finish (embedStages_allOrNothing .raw s) h
  · exact pixelsAllOrNothing_of_finish (embedStages_allOrNothing .caesar s) h
  · exact pixelsAllOrNothing_of_finish (embedStages_allOrNothing .huff s) h

/-! ### The round trip through the pixels (R180) -/

/-- A WRITE that completed without error wrote the whole stream, which the grid takes. -/
theorem exec_write_succeeds {s t : State} (h : exec .write s = .next t) (herr : t.err = .noError) :
    GridInMemory s ∧ s.bitLen ≤ s.capacity ∧ ∃ bits, HoldsStream s bits ∧ PixelsCarry s t bits := by
  rcases StageOutcome.finish_next h with ⟨u, hok, rfl⟩ | ⟨e, u, herror, rfl⟩
  · obtain ⟨hgrid, hfits, bits, hbits, rfl⟩ := writeStage_ok hok
    exact ⟨hgrid, fits_le hfits, bits, hbits, pixelsCarry_embedFrom s bits⟩
  · obtain ⟨-, rfl | rfl⟩ := writeStage_error herror <;> cases herr

/-- Settles O47: READALL gives the LSBs, which below the stream's length are the stream and above it those of before. -/
theorem packUnpackRoundTrip : Obligations.PackUnpackRoundTrip := by
  intro s t u hwrite herr hpix hrows hcols hparams
  obtain ⟨hgrid, hfit, bits, ⟨hlen, hbits⟩, hbelow, habove⟩ := exec_write_succeeds hwrite herr
  have hcap : u.capacity = s.capacity := by rw [State.capacity, State.capacity, hrows, hcols]
  have hgridu : GridInMemory u := by rwa [GridInMemory, hcap, hparams]
  obtain ⟨v, hexec, ⟨-, -, hverr⟩, hvlen, hvbits, -⟩ := (readAllResult u).1 hgridu
  rw [hcap] at hvlen hvbits
  refine ⟨v, hexec, hverr, hvlen, fun i hi => ?_, fun i hi hicap => ?_⟩
  · have hib : i < bits.length := hlen ▸ hi
    rw [hvbits i (by omega), hpix i, (hbelow i hib).1, hbits i hib]
  · rw [hvbits i hicap, hpix i, habove i (hlen ▸ hi)]

end Sys2Proof.Machine

/-! Composite and session commands (43_session.md R190 to R198): EMBED.k and EXTRACT.k by their stages, what they end in,
the round trip through the pixels, and the end of the session. -/

namespace Sys2Proof.Machine

/-! ### A stage after the completion of another (R190, R194) -/

theorem exec_extractOf (k : Kind) (s : State) : exec (extractOf k) s = (extractStages k s).finish := by
  cases k <;> rfl

theorem State.complete_writtenFrom (s : State) (e : ErrorCode) (j n : Nat) :
    (s.complete e).writtenFrom j n = s.writtenFrom j n := by
  induction n generalizing j with
  | zero => rfl
  | succ n ih =>
    rw [State.writtenFrom, State.writtenFrom, ih]
    rfl

/-- A completion writes STATUS only, so the written stream is that of before. -/
theorem State.complete_writtenPrefix (s : State) (e : ErrorCode) : (s.complete e).writtenPrefix = s.writtenPrefix :=
  s.complete_writtenFrom e 0 s.bitLen

/-- The write stage does not read what a completion writes. -/
theorem finish_writeStage_complete (s : State) (e : ErrorCode) :
    (writeStage (s.complete e)).finish = (writeStage s).finish := by
  rw [writeStage, writeStage, s.complete_writtenPrefix]
  simp only [apply_ite StageOutcome.finish]
  rfl

theorem finish_fixedDecodeStage_complete (decoder : List Bool → Decoded) (s : State) (e : ErrorCode) :
    (fixedDecodeStage decoder (s.complete e)).finish = (fixedDecodeStage decoder s).finish := by
  rw [fixedDecodeStage, fixedDecodeStage, s.complete_writtenPrefix]
  simp only [apply_ite StageOutcome.finish]
  rfl

/-- With a valid tree the Huffman stage ends as its walk does. -/
theorem huffDecodeStage_of_walk {s : State} {d : Decoded} (hv : s.treeValid = true)
    (hw : huffWalk s.tree s.tree.root 0 (s.writtenPrefix.take (decodeBound s.params.huffBound s.bitLen)) = some d) :
    huffDecodeStage s =
      if d.found = true then .ok (s.writeText d.out true d.pos)
      else if (s.writtenPrefix.take (decodeBound s.params.huffBound s.bitLen)).length <
        decodeBound s.params.huffBound s.bitLen then .fault .unwrittenRead
      else .error .truncated s := by
  rw [huffDecodeStage, if_neg (by simp [hv])]
  simp only [hw]

theorem huffDecodeStage_of_stuck {s : State} (hv : s.treeValid = true)
    (hw : huffWalk s.tree s.tree.root 0 (s.writtenPrefix.take (decodeBound s.params.huffBound s.bitLen)) = none) :
    huffDecodeStage s = .fault .internalConsistency := by
  rw [huffDecodeStage, if_neg (by simp [hv])]
  simp only [hw]

theorem finish_huffDecodeStage_complete (s : State) (e : ErrorCode) :
    (huffDecodeStage (s.complete e)).finish = (huffDecodeStage s).finish := by
  have hprefix := s.complete_writtenPrefix e
  cases hv : s.treeValid with
  | false =>
    rw [huffDecodeStage_of_invalid hv, huffDecodeStage_of_invalid (s := s.complete e) hv]
    rfl
  | true =>
    cases hw : huffWalk s.tree s.tree.root 0 (s.writtenPrefix.take (decodeBound s.params.huffBound s.bitLen)) with
    | none => rw [huffDecodeStage_of_stuck hv hw, huffDecodeStage_of_stuck (s := s.complete e) hv (by rwa [hprefix])]
    | some d =>
      rw [huffDecodeStage_of_walk hv hw, huffDecodeStage_of_walk (s := s.complete e) hv (by rwa [hprefix]), hprefix]
      simp only [apply_ite StageOutcome.finish]
      rfl

/-- The decode stage does not read what a completion writes. -/
theorem finish_decodeStage_complete (k : Kind) (s : State) (e : ErrorCode) :
    (decodeStage k (s.complete e)).finish = (decodeStage k s).finish := by
  cases k with
  | raw => exact finish_fixedDecodeStage_complete rawDecode s e
  | caesar => exact finish_fixedDecodeStage_complete (caesarDecode · s.shift) s e
  | huff => exact finish_huffDecodeStage_complete s e

/-- A composite of two stages is the first as a command, then the second as a command where the first raised no error. -/
theorem finish_andThen {o : StageOutcome} {next : State → StageOutcome} {t : State}
    (hnext : ∀ (u : State) e, (next (u.complete e)).finish = (next u).finish)
    (herror : ∀ e u, o = .error e u → e ≠ .noError) (h : o.finish = .next t) :
    (o.andThen next).finish = if t.err = .noError then (next t).finish else .next t := by
  rcases StageOutcome.finish_next h with ⟨u, rfl, rfl⟩ | ⟨e, u, rfl, rfl⟩
  · rw [if_pos (State.complete_err u _), hnext]
    rfl
  · rw [State.complete_err, if_neg (herror e u rfl)]
    rfl

theorem encodeStage_error_ne_noError {k : Kind} {s t : State} {e : ErrorCode} (h : encodeStage k s = .error e t) :
    e ≠ .noError := by
  obtain ⟨-, rfl | rfl⟩ := encodeStage_error h <;> decide

theorem readAllStage_error_ne_noError {s t : State} {e : ErrorCode} (h : readAllStage s = .error e t) :
    e ≠ .noError := by
  rcases readAllStage_cases s with ⟨-, he⟩ | ⟨-, he⟩ <;> rw [he] at h <;> cases h
  decide

/-- Settles O48: each composite is its two stages, and the second does not see the completion between the two
commands. -/
theorem compositesRunTheirStages : Obligations.CompositesRunTheirStages := by
  intro k s
  rw [exec_encodeOf, exec_embedOf, exec_extractOf, exec_readall]
  refine ⟨fun t ht => ?_, fun r hr => ?_, fun t ht => ?_⟩
  · exact finish_andThen finish_writeStage_complete (fun _ _ => encodeStage_error_ne_noError) ht
  · rw [embedStages, StageOutcome.finish_fault hr]
    rfl
  · rw [exec_decodeOf]
    exact finish_andThen (finish_decodeStage_complete k) (fun _ _ => readAllStage_error_ne_noError) ht

/-! ### EMBED.k (R190 to R193) -/

theorem StreamKept.holdsStream {s t : State} {bits : List Bool} (h : StreamKept s t) (hs : HoldsStream s bits) :
    HoldsStream t bits := by
  obtain ⟨hlen, hwords⟩ := h
  obtain ⟨hslen, hbits⟩ := hs
  refine ⟨hlen.trans hslen, fun j hj => ?_⟩
  rw [State.streamBit, hwords]
  exact hbits j hj

theorem StreamKept.lastWordZeroFilled {s t : State} (h : StreamKept s t) (hs : LastWordZeroFilled s) :
    LastWordZeroFilled t := by
  obtain ⟨hlen, hwords⟩ := h
  intro j hj hw
  rw [State.streamBit, hwords]
  exact hs j (hlen ▸ hj) (hlen ▸ hw)

theorem PixelsKept.trans_pixelsCarry {s t u : State} {bits : List Bool} (hst : PixelsKept s t)
    (htu : PixelsCarry t u bits) : PixelsCarry s u bits := by
  simpa only [PixelsCarry, hst _] using htu

theorem HostStateKept.capacity_eq {s t : State} (h : HostStateKept s t) : t.capacity = s.capacity := by
  obtain ⟨-, -, -, -, hrows, hcols, -⟩ := h
  rw [State.capacity, State.capacity, hrows, hcols]

theorem HostStateKept.params_eq {s t : State} (h : HostStateKept s t) : t.params = s.params := by
  obtain ⟨-, -, -, -, -, -, -, -, hparams, -⟩ := h
  exact hparams

theorem HostStateKept.shift_eq {s t : State} (h : HostStateKept s t) : t.shift = s.shift := by
  obtain ⟨-, -, hshift, -⟩ := h
  exact hshift

/-- An EMBED.k whose stream fits the bit buffer and the grid completes as ENCODE.k and then WRITE do. -/
theorem embedOf_completes {k : Kind} {s : State} {m : List Symbol} {tree : Option TreeStore} {bits : List Bool}
    (hm : HoldsMessage s m) (htext : encodeText k s (m ++ [delimSym]) = some (tree, bits))
    (hfit : bits.length ≤ s.params.bitMax) (hgrid : GridInMemory s)
    (hfits : fits s.params.capacityRule bits.length s.capacity = true) :
    ∃ t, exec (embedOf k) s = .next t ∧ CompletedWith t .noError ∧ HoldsStream t bits ∧ PixelsCarry s t bits ∧
      t.treeValid = tree.isSome ∧ t.tree = tree.getD s.tree ∧ LastWordZeroFilled t ∧
      HostStateKept s t ∧ WordsAboveKept s t t.bitLen ∧ TextKept s t := by
  obtain ⟨u, hencode, ⟨-, -, herr⟩, hstream, hzero, hvalid, htree, hhost, hwords, hkept, hpix⟩ :=
    encodeOf_completes hm htext hfit
  obtain ⟨hembed, -⟩ := compositesRunTheirStages k s
  have hthen := hembed u hencode
  rw [if_pos herr] at hthen
  have hlen : u.bitLen = bits.length := hstream.1
  rw [← hhost.capacity_eq, ← hhost.params_eq, ← hlen] at hfits
  rw [GridInMemory, ← hhost.capacity_eq, ← hhost.params_eq] at hgrid
  obtain ⟨-, -, hwrites⟩ := writeResult u
  obtain ⟨t, hwrite, hdone, hcarry, hhost', hstream', hkept', hvalid', htree'⟩ :=
    (hwrites hgrid hfits).2 bits hstream
  exact ⟨t, hthen.trans hwrite, hdone, hstream'.holdsStream hstream, hpix.trans_pixelsCarry hcarry,
    hvalid'.trans hvalid, htree'.trans htree, hstream'.lastWordZeroFilled hzero, hhost.trans hhost',
    hwords.trans_streamKept hstream', hkept.trans hkept'⟩

/-- Settles O49: the streams of the three codecs, committed by the two stages. -/
theorem embedResult : Obligations.EmbedResult := by
  intro s m hm hgrid
  refine ⟨fun hfit hfits => ?_, fun tree bits henc hfit hfits =>
    embedOf_completes hm (encodeText_huff henc) hfit hgrid hfits⟩
  have hraw := encodeText_fixed_length (s := s) (m := m) (.inl rfl) rfl
  have hcaesar := encodeText_fixed_length (s := s) (m := m) (.inr rfl) rfl
  exact ⟨embedOf_completes (k := .raw) hm rfl (hraw.trans_le hfit) hgrid (by rwa [hraw]),
    embedOf_completes (k := .caesar) hm rfl (hcaesar.trans_le hfit) hgrid (by rwa [hcaesar])⟩

/-! ### EXTRACT.k (R194 to R197) -/

/-- What the read stage commits: the stream of the grid's LSBs. -/
def State.readGrid (s : State) : State := s.writeStream (readLsbs s.pix s.capacity)

/-- On a grid in memory EXTRACT.k ends as the decode stage does on the grid's LSBs. -/
theorem exec_extractOf_of_gridInMemory (k : Kind) {s : State} (hgrid : GridInMemory s) :
    exec (extractOf k) s = (decodeStage k s.readGrid).finish := by
  rw [exec_extractOf, extractStages, readAllStage_of_gridInMemory hgrid]
  rfl

/-- What an EXTRACT.k that has read the grid leaves, however its decode stage ends. -/
def ExtractFrame (s t : State) : Prop :=
  HoldsStream t (readLsbs s.pix s.capacity) ∧ WordsAboveKept s t s.capacity ∧ HostStateKept s t ∧ TreeKept s t ∧
    PixelsKept s t

theorem extractFrame_readGrid (s : State) : ExtractFrame s s.readGrid := by
  have hwords := wordsAboveKept_writeStream s (readLsbs s.pix s.capacity)
  rw [readLsbs_length] at hwords
  exact ⟨holdsStream_writeStream s _, hwords, hostStateKept_refl s, treeKept_refl s, pixelsKept_refl s⟩

theorem writtenPrefix_writeStream (s : State) (bits : List Bool) : (s.writeStream bits).writtenPrefix = bits :=
  writtenPrefix_of_holdsStream (holdsStream_writeStream s bits)

/-- No chunk of a stream just written is missing, so the raw and Caesar stages decode the whole of it. -/
theorem fixedDecodeStage_writeStream (decoder : List Bool → Decoded) (s : State) (bits : List Bool) :
    fixedDecodeStage decoder (s.writeStream bits) =
      if (decoder bits).found = false ∧ s.params.rawPolicy = .raiseTruncated then
        .error .truncated (s.writeStream bits)
      else .ok ((s.writeStream bits).writeText (decoder bits).out (decoder bits).found (decoder bits).pos) := by
  have hprefix := writtenPrefix_writeStream s bits
  rw [fixedDecodeStage_of_consumed (.inr (by rw [hprefix, State.writeStream_bitLen])), hprefix,
    State.writeStream_params]

theorem decodeBound_le (b : HuffDecodeBound) (n : Nat) : decodeBound b n ≤ n := by
  cases b with
  | allBits => exact le_rfl
  | allButLast => exact Nat.sub_le n 1

/-- The Huffman stage walks the bits of a stream just written that its bound allows. -/
theorem huffDecodeStage_writeStream {s : State} {bits : List Bool} {d : Decoded} (hv : s.treeValid = true)
    (hw : huffWalk s.tree s.tree.root 0 (bits.take (decodeBound s.params.huffBound bits.length)) = some d) :
    huffDecodeStage (s.writeStream bits) =
      if d.found = false then .error .truncated (s.writeStream bits)
      else .ok ((s.writeStream bits).writeText d.out d.found d.pos) := by
  have hprefix := writtenPrefix_writeStream s bits
  have hall : (bits.take (decodeBound s.params.huffBound bits.length)).length =
      decodeBound s.params.huffBound bits.length := by
    rw [List.length_take, Nat.min_eq_left (decodeBound_le _ _)]
  split_ifs with hd
  · exact huffDecodeStage_truncated (s := s.writeStream bits) hv (by rw [hprefix]; rfl) hall hw hd
  · refine huffDecodeStage_of_found (s := s.writeStream bits) hv ?_ (by simpa using hd)
    rw [hprefix]
    exact hw

/-- A decode stage that raises an error leaves the text. -/
theorem extractOf_error {k : Kind} {s : State} {e : ErrorCode} (hgrid : GridInMemory s)
    (h : decodeStage k s.readGrid = .error e s.readGrid) :
    ∃ t, exec (extractOf k) s = .next t ∧ ExtractFrame s t ∧ CompletedWith t e ∧ TextKept s t := by
  rw [exec_extractOf_of_gridInMemory k hgrid, h]
  exact ⟨_, rfl, extractFrame_readGrid s, ⟨rfl, rfl, rfl⟩, textKept_refl s⟩

/-- A decode stage that commits a text completes EXTRACT.k with it. -/
theorem extractOf_completes {k : Kind} {s : State} {d : Decoded} (hgrid : GridInMemory s)
    (h : decodeStage k s.readGrid = .ok (s.readGrid.writeText d.out d.found d.pos)) :
    ∃ t, exec (extractOf k) s = .next t ∧ ExtractFrame s t ∧ CompletedWith t .noError ∧ HoldsText t d.out ∧
      t.decPos = d.pos ∧ t.delim = d.found ∧ EntriesAboveKept s t := by
  rw [exec_extractOf_of_gridInMemory k hgrid, h]
  exact ⟨_, rfl, extractFrame_readGrid s, ⟨rfl, rfl, rfl⟩, holdsText_writeText s.readGrid d.out d.found d.pos, rfl,
    rfl, entriesAboveKept_writeText s.readGrid d.out d.found d.pos⟩

/-- What EXTRACT.k on a grid in memory comes to, where its decode stage stops with TRUNCATED or commits a text. -/
theorem extractOf_result {k : Kind} {s : State} {d : Decoded} {stop : Prop} [Decidable stop] (hgrid : GridInMemory s)
    (h : decodeStage k s.readGrid =
      if stop then .error .truncated s.readGrid else .ok (s.readGrid.writeText d.out d.found d.pos)) :
    ∃ t, exec (extractOf k) s = .next t ∧ ExtractFrame s t ∧
      (¬stop → CompletedWith t .noError ∧ HoldsText t d.out ∧ t.decPos = d.pos ∧ t.delim = d.found ∧
        EntriesAboveKept s t) ∧
      (stop → CompletedWith t .truncated ∧ TextKept s t) := by
  by_cases hstop : stop
  · rw [if_pos hstop] at h
    obtain ⟨t, hexec, hframe, hkept⟩ := extractOf_error hgrid h
    exact ⟨t, hexec, hframe, (absurd hstop ·), fun _ => hkept⟩
  · rw [if_neg hstop] at h
    obtain ⟨t, hexec, hframe, htext⟩ := extractOf_completes hgrid h
    exact ⟨t, hexec, hframe, fun _ => htext, (absurd · hstop)⟩

/-- What EXTRACT.RAW and EXTRACT.CAESAR come to, from the decoder of their decode stage. -/
theorem extractOf_fixed_result {k : Kind} {s : State} {decoder : List Bool → Decoded} {d : Decoded}
    (hgrid : GridInMemory s) (hk : decodeStage k s.readGrid = fixedDecodeStage decoder s.readGrid)
    (hd : decoder (readLsbs s.pix s.capacity) = d) :
    ∃ t, exec (extractOf k) s = .next t ∧ HoldsStream t (readLsbs s.pix s.capacity) ∧ WordsAboveKept s t s.capacity ∧
      HostStateKept s t ∧ TreeKept s t ∧ PixelsKept s t ∧
      (d.found = true ∨ s.params.rawPolicy = .returnText →
        CompletedWith t .noError ∧ HoldsText t d.out ∧ t.decPos = d.pos ∧ t.delim = d.found ∧ EntriesAboveKept s t) ∧
      (d.found = false → s.params.rawPolicy = .raiseTruncated → CompletedWith t .truncated ∧ TextKept s t) := by
  subst hd
  obtain ⟨t, hexec, ⟨hstream, hwords, hhost, htree, hpix⟩, hok, herror⟩ :=
    extractOf_result hgrid (hk.trans (fixedDecodeStage_writeStream decoder s _))
  refine ⟨t, hexec, hstream, hwords, hhost, htree, hpix, fun hfound => hok ?_, fun hd hp => herror ⟨hd, hp⟩⟩
  rintro ⟨hd, hp⟩
  simp [hd, hp] at hfound

/-- Settles O50: the grid's LSBs are written as the stream, and the decode stage of each kind sees all of them. -/
theorem extractResult : Obligations.ExtractResult := by
  intro s hgrid
  rw [List.forall_mem_cons, List.forall_mem_singleton]
  refine ⟨⟨extractOf_fixed_result (k := .raw) hgrid rfl rfl,
    extractOf_fixed_result (k := .caesar) (decoder := (caesarDecode · s.shift)) hgrid rfl rfl⟩,
    fun hv => ?_, fun hv d hw => ?_⟩
  · obtain ⟨t, hexec, ⟨hstream, hwords, hhost, htree, hpix⟩, hdone, htext⟩ :=
      extractOf_error (k := .huff) hgrid (huffDecodeStage_of_invalid (s := s.readGrid) hv)
    exact ⟨t, hexec, hdone, hstream, hwords, hhost, htext, htree, hpix⟩
  · obtain ⟨t, hexec, ⟨hstream, hwords, hhost, htree, hpix⟩, hok, herror⟩ :=
      extractOf_result (k := .huff) hgrid (huffDecodeStage_writeStream hv (by rwa [readLsbs_length]))
    refine ⟨t, hexec, hstream, hwords, hhost, htree, hpix, fun hd => ?_, herror⟩
    rw [← hd]
    exact hok (by simp [hd])

/-! ### The round trip through the pixels (R195 to R197) -/

/-- An EMBED.k that completed without error is an ENCODE.k that did, then a WRITE that did. -/
theorem embedOf_succeeds {k : Kind} {s t : State} (h : exec (embedOf k) s = .next t) (herr : t.err = .noError) :
    ∃ u, encodeStage k s = .ok u ∧ exec .write u = .next t := by
  rw [exec_embedOf, embedStages] at h
  rcases (encodeStage k s).andThen_cases writeStage with ⟨u, hu, hthen⟩ | ⟨e, u, hu, hthen⟩ | ⟨r, -, hthen⟩ <;>
    rw [hthen] at h
  · exact ⟨u, hu, h⟩
  · cases h
    exact absurd herr (encodeStage_error_ne_noError hu)
  · cases h

theorem exec_write_fits {s t : State} (h : exec .write s = .next t) (herr : t.err = .noError) :
    GridInMemory s ∧ fits s.params.capacityRule s.bitLen s.capacity = true := by
  rcases StageOutcome.finish_next h with ⟨u, hok, rfl⟩ | ⟨e, u, herror, rfl⟩
  · obtain ⟨hgrid, hfits, -⟩ := writeStage_ok hok
    exact ⟨hgrid, hfits⟩
  · obtain ⟨-, rfl | rfl⟩ := writeStage_error herror <;> cases herr

/-- A successful EMBED.k of a message had a stream that the bit buffer and the grid take. -/
theorem embedOf_succeeds_fits {k : Kind} {s t : State} {m : List Symbol} (hm : HoldsMessage s m)
    (h : exec (embedOf k) s = .next t) (herr : t.err = .noError) :
    ∃ tree bits, encodeText k s (m ++ [delimSym]) = some (tree, bits) ∧ bits.length ≤ s.params.bitMax ∧
      GridInMemory s ∧ fits s.params.capacityRule bits.length s.capacity = true := by
  obtain ⟨u, hencode, hwrite⟩ := embedOf_succeeds h herr
  obtain ⟨⟨tree, bits⟩, htext⟩ := exists_encodeText k s (m ++ [delimSym])
  have hcommit := (encodeStage_of_holdsMessage hm htext).symm.trans hencode
  have hfit : bits.length ≤ s.params.bitMax := by
    by_contra hlong
    rw [commitStream_overflow (s := s.dropTree) tree (Nat.not_le.mp hlong)] at hcommit
    cases hcommit
  rw [commitStream_fits (s := s.dropTree) tree hfit] at hcommit
  have hfits := exec_write_fits hwrite herr
  cases tree <;> cases hcommit <;> exact ⟨_, bits, htext, hfit, hfits⟩

theorem fixedDecodeStage_writeStream_of_found {decoder : List Bool → Decoded} {s : State} {bits : List Bool}
    {d : Decoded} (hd : decoder bits = d) (hfound : d.found = true) :
    fixedDecodeStage decoder (s.writeStream bits) = .ok ((s.writeStream bits).writeText d.out d.found d.pos) := by
  rw [fixedDecodeStage_writeStream, hd, if_neg (by simp [hfound])]

/-- The decode stage of a kind, on the stream of its encode stage and whatever follows, commits the message: by the
round trip of each codec, with the shift and the tree it was encoded with. -/
theorem decodeStage_encodeText {k : Kind} {s u : State} {m : List Symbol} {tree : Option TreeStore}
    {bits x : List Bool} (hm : delimSym ∉ m) (hclash : k = .caesar → shiftDown delimSym s.shift ∉ m)
    (hbound : k = .huff → u.params.huffBound = .allBits ∨ x ≠ [])
    (htext : encodeText k s (m ++ [delimSym]) = some (tree, bits)) (hshift : u.shift = s.shift)
    (hvalid : u.treeValid = tree.isSome) (htree : u.tree = tree.getD s.tree) :
    decodeStage k (u.writeStream (bits ++ x)) = .ok ((u.writeStream (bits ++ x)).writeText m true bits.length) := by
  cases k with
  | raw =>
    rw [encodeText_fixed_length (.inl rfl) htext]
    cases htext
    exact fixedDecodeStage_writeStream_of_found (rawRoundTrip m x hm) rfl
  | caesar =>
    rw [encodeText_fixed_length (.inr rfl) htext]
    cases htext
    have hd := caesarRoundTrip m s.shift x hm (hclash rfl)
    rw [← hshift] at hd ⊢
    exact fixedDecodeStage_writeStream_of_found (decoder := (caesarDecode · u.shift)) hd rfl
  | huff =>
    obtain ⟨⟨T, bits⟩, henc, hpair⟩ := Option.map_eq_some_iff.mp htext
    cases hpair
    have hle := le_decodeBound (hbound rfl) bits.length
    rw [← List.length_append] at hle
    have hw := huffWalk_huffEncode hm henc (x.take (decodeBound u.params.huffBound (bits ++ x).length - bits.length))
    have htake := List.take_append (l₁ := bits) (l₂ := x) (i := decodeBound u.params.huffBound (bits ++ x).length)
    rw [List.take_of_length_le hle] at htake
    exact huffDecodeStage_writeStream hvalid (by rwa [htake, htree])

/-- Pixels that carry a stream give it back, whatever the slots past it hold. -/
theorem prefix_readLsbs {s t u : State} {bits : List Bool} {n : Nat} (hcarry : PixelsCarry s t bits)
    (hpix : PixelsKept t u) (hn : bits.length ≤ n) : bits <+: readLsbs u.pix n := by
  obtain ⟨hbelow, -⟩ := hcarry
  rw [List.prefix_iff_getElem]
  refine ⟨by simpa using hn, fun i hi => ?_⟩
  obtain ⟨hbit, -⟩ := hbelow i hi
  rw [readLsbs_getElem u.pix n i (by omega), hpix i, hbit]

/-- Under the MARGIN rule slots follow the stream, so the bound of a Huffman decode lets it read all of the stream
(R197). -/
theorem allBits_or_ne_nil {p : Params} {bits x : List Bool} {c : Nat}
    (h : p.huffBound = .allBits ∨ p.capacityRule = .marginRule) (hfits : fits p.capacityRule bits.length c = true)
    (hc : (bits ++ x).length = c) : p.huffBound = .allBits ∨ x ≠ [] := by
  refine h.imp_right fun hmargin => ?_
  rintro rfl
  obtain ⟨-, -, -, -, -, hroom⟩ := capacityCheckBounds bits.length c
  rw [hmargin] at hfits
  have := hroom hfits
  rw [List.append_nil] at hc
  omega

/-- Settles O51: the LSBs are the embedded stream and what follows it, and the decode stage of the same kind, shift and
tree gives the message back. -/
theorem embedExtractRoundTrip : Obligations.EmbedExtractRoundTrip := by
  intro k s t u m hm hdelim hclash hrule hexec herr hpix hrows hcols hshift hparams ⟨hvalidu, htreeu⟩
  obtain ⟨tree, bits, htext, hfit, hgrid, hfits⟩ := embedOf_succeeds_fits hm hexec herr
  obtain ⟨t', hexec', -, ⟨hlen, -⟩, hcarry, hvalid, htreet, -, hhost, -⟩ :=
    embedOf_completes hm htext hfit hgrid hfits
  cases hexec.symm.trans hexec'
  have hcap : u.capacity = s.capacity := by rw [← hhost.capacity_eq, State.capacity, State.capacity, hrows, hcols]
  have hparamsu : u.params = s.params := hparams.trans hhost.params_eq
  have hgridu : GridInMemory u := by rwa [GridInMemory, hcap, hparamsu]
  obtain ⟨x, hx⟩ := prefix_readLsbs hcarry hpix (hcap.ge.trans' (fits_le hfits))
  have hslots : (bits ++ x).length = s.capacity := by rw [hx, readLsbs_length, hcap]
  have hstage := decodeStage_encodeText (x := x) hdelim hclash
    (fun hk => hparamsu ▸ allBits_or_ne_nil (hrule hk) hfits hslots) htext (hshift.trans hhost.shift_eq)
    (hvalidu.trans hvalid) (htreeu.trans htreet)
  rw [hx] at hstage
  obtain ⟨v, hv, -, hdone, hout, hpos, hfound, -⟩ :=
    extractOf_completes (d := { out := m, found := true, pos := bits.length }) hgridu hstage
  exact ⟨v, hv, hdone, hout, hfound, hpos.trans hlen.symm⟩

/-! ### The end of the session (R198, 60_exceptions.md R214) -/

/-- Only the Huffman decode stage looks at the tree, so no other raises SESSION. -/
theorem decodeStage_ne_session {k : Kind} (hk : k ≠ .huff) (s : State) :
    (decodeStage k s).EndsIn fun e _ => e ≠ .session := by
  cases h : decodeStage k s with
  | ok t => exact nofun
  | error e t =>
    obtain ⟨-, rfl | ⟨-, hhuff, -⟩⟩ := decodeStage_error h
    · exact nofun
    · exact absurd hhuff hk
  | fault r => trivial

theorem extractStages_ne_session {k : Kind} (hk : k ≠ .huff) (s : State) :
    (extractStages k s).EndsIn fun e _ => e ≠ .session :=
  (readAllStage_endsIn (P := fun e _ => e ≠ .session) nofun fun _ => nofun).andThen (fun _ _ he => he)
    fun u _ => decodeStage_ne_session hk u

theorem err_ne_session_of_finish {o : StageOutcome} {t : State} (ho : o.EndsIn fun e _ => e ≠ .session)
    (h : o.finish = .next t) : t.err ≠ .session := by
  obtain ⟨e, u, he, rfl⟩ := ho.finish h
  exact he

/-- Settles O52: NEWSESSION drops the tree, and DECODE.HUFF then stops at its tree check, which the raw and Caesar
decodes do not have. -/
theorem newSessionEndsTheSession : Obligations.NewSessionEndsTheSession := by
  refine ⟨fun s => rfl, fun s t h => ?_, fun s t i hi h => ?_⟩
  · cases h
    obtain ⟨hsession, -⟩ := decodeHuffResult (s.dropTree.complete .noError)
    exact hsession rfl
  · simp only [List.mem_cons, List.not_mem_nil, or_false] at hi
    rcases hi with rfl | rfl | rfl | rfl
    · exact err_ne_session_of_finish (decodeStage_ne_session (k := .raw) nofun s) h
    · exact err_ne_session_of_finish (decodeStage_ne_session (k := .caesar) nofun s) h
    · exact err_ne_session_of_finish (extractStages_ne_session (k := .raw) nofun s) h
    · exact err_ne_session_of_finish (extractStages_ne_session (k := .caesar) nofun s) h

end Sys2Proof.Machine

/-! The error codes of the commands (60_exceptions.md R211, R223): those of each stage, and the codes of a command from
those of its stages. -/

namespace Sys2Proof.Machine

/-! ### The code a command completes with -/

/-- The code a stage ends a command with, where it does not fault, is one of `codes`. -/
def StageOutcome.CodesIn (o : StageOutcome) (codes : List ErrorCode) : Prop := o.EndsIn fun e _ => e ∈ codes

theorem StageOutcome.CodesIn.andThen {first second codes : List ErrorCode} {o : StageOutcome}
    {next : State → StageOutcome}
    (ho : o.CodesIn first) (hfirst : first ⊆ codes) (hnext : ∀ u, (next u).CodesIn second) (hsecond : second ⊆ codes) :
    (o.andThen next).CodesIn codes :=
  EndsIn.andThen ho (fun _ _ he => hfirst he) fun u _ => (hnext u).mono fun _ _ he => hsecond he

theorem StageOutcome.CodesIn.err_mem {o : StageOutcome} {codes : List ErrorCode} {t : State} (ho : o.CodesIn codes)
    (h : o.finish = .next t) : t.err ∈ codes := by
  obtain ⟨e, u, he, rfl⟩ := EndsIn.finish ho h
  exact he

/-! ### The codes of each stage -/

theorem encodeStage_codesIn (k : Kind) (s : State) : (encodeStage k s).CodesIn [.noError, .format, .overflow] :=
  encodeStage_endsIn (by decide) (by decide) (fun _ => by decide) fun _ _ _ => by decide

theorem writeStage_codesIn (s : State) : (writeStage s).CodesIn [.noError, .geometry, .capacity] :=
  writeStage_endsIn (by decide) (by decide) fun _ => by decide

theorem readAllStage_codesIn (s : State) : (readAllStage s).CodesIn [.noError, .geometry] :=
  readAllStage_endsIn (by decide) fun _ => by decide

theorem decodeStage_codesIn (k : Kind) (s : State) : (decodeStage k s).CodesIn [.noError, .session, .truncated] :=
  decodeStage_endsIn (by decide) (by decide) fun _ _ _ => by decide

/-- The RAW and CAESAR decodes do not look at the tree, so TRUNCATED is their only error. -/
theorem decodeStage_codesIn_of_ne_huff {k : Kind} (hk : k ≠ .huff) (s : State) :
    (decodeStage k s).CodesIn [.noError, .truncated] := by
  cases h : decodeStage k s with
  | ok t => exact List.mem_cons_self
  | error e t =>
    obtain ⟨-, rfl | ⟨-, hhuff, -⟩⟩ := decodeStage_error h
    · exact List.mem_cons_of_mem _ List.mem_cons_self
    · exact absurd hhuff hk
  | fault r => trivial

/-! ### The codes of the composites (43_session.md R190, R194) -/

theorem embedStages_codesIn (k : Kind) (s : State) :
    (embedStages k s).CodesIn [.noError, .format, .overflow, .geometry, .capacity] :=
  (encodeStage_codesIn k s).andThen (by decide) writeStage_codesIn (by decide)

theorem extractStages_codesIn (k : Kind) (s : State) :
    (extractStages k s).CodesIn [.noError, .geometry, .session, .truncated] :=
  (readAllStage_codesIn s).andThen (by decide) (decodeStage_codesIn k) (by decide)

theorem extractStages_codesIn_of_ne_huff {k : Kind} (hk : k ≠ .huff) (s : State) :
    (extractStages k s).CodesIn [.noError, .geometry, .truncated] :=
  (readAllStage_codesIn s).andThen (by decide) (decodeStage_codesIn_of_ne_huff hk) (by decide)

/-- Settles O55: a command completes with a code of its stages, and only the Huffman decode stage can raise SESSION. -/
theorem errorCodesByCommand : Obligations.ErrorCodesByCommand := by
  intro i s t h
  cases i with
  | encodeRaw | encodeCaesar | encodeHuff => exact (encodeStage_codesIn _ s).err_mem h
  | decodeRaw => exact (decodeStage_codesIn_of_ne_huff (k := .raw) nofun s).err_mem h
  | decodeCaesar => exact (decodeStage_codesIn_of_ne_huff (k := .caesar) nofun s).err_mem h
  | decodeHuff => exact (decodeStage_codesIn .huff s).err_mem h
  | write => exact (writeStage_codesIn s).err_mem h
  | readall => exact (readAllStage_codesIn s).err_mem h
  | embedRaw | embedCaesar | embedHuff => exact (embedStages_codesIn _ s).err_mem h
  | extractRaw => exact (extractStages_codesIn_of_ne_huff (k := .raw) nofun s).err_mem h
  | extractCaesar => exact (extractStages_codesIn_of_ne_huff (k := .caesar) nofun s).err_mem h
  | extractHuff => exact (extractStages_codesIn .huff s).err_mem h
  | newsession =>
    cases h
    exact List.mem_cons_self

end Sys2Proof.Machine

/-! Reset and hazards (70_reset_and_hazards.md R240 to R249): what reset leaves, the first commands after it, and the
host's accesses while a command is pending. -/

namespace Sys2Proof.Machine

/-! ### The reset action (R240 to R242) -/

/-- Reset uses up its entry of the input lists and then resets, so the pixel memory and the parameters are those of the
state it was asserted in. -/
theorem step_resets {s : State} (h : ResetTurn s) :
    ∃ u : State, step s = .next u.hardReset ∧ u.pix = s.pix ∧ u.params = s.params := by
  refine ⟨_, step_of_resetTurn h, ?_⟩
  split <;> exact ⟨rfl, rfl⟩

theorem hardReset_status (s : State) : s.hardReset.status = 0#32 :=
  calc s.hardReset.status = State.reset.status := rfl
    _ = 0#32 := rfl

/-- Settles O20: reset is the next move whether it comes as the host's turn or out of the fault state, and its registers
and buffers are those of `State.reset`. -/
theorem resetAction : Obligations.ResetAction := by
  intro s hturn
  obtain ⟨u, hstep, hpix, hparams⟩ := step_resets hturn
  exact ⟨u.hardReset, hstep, rfl, rfl, rfl, rfl, rfl, rfl, hardReset_status u, rfl, rfl, rfl, rfl, rfl, rfl, rfl,
    treeInfoDescribesTheTree.1 _ rfl, fun _ => rfl, fun _ => rfl, fun _ => rfl, rfl, fun a => congrArg (memRead · a) hpix,
    hparams⟩

/-! ### The state after reset (R241, 10_state.md R47) -/

theorem storageInv_reset : StorageInv State.reset :=
  ⟨(Params.wellFormed_iff Params.chosen).mpr (by decide),
    ⟨Nat.zero_le _, Nat.zero_le _, Nat.zero_le _, Nat.zero_le _⟩, Memory.wf_reset, rfl, rfl, rfl, rfl⟩

theorem treeInv_reset : TreeInv State.reset := fun h => absurd h Bool.false_ne_true

/-- Settles O60: the state after reset is a hard reset of itself, no tree is valid in it, and it lists no cell. -/
theorem resetStateMeetsInvariants : Obligations.ResetStateMeetsInvariants :=
  ⟨rfl, rfl, rfl, rfl, rfl, rfl, rfl, rfl, rfl, rfl, rfl, rfl, rfl, rfl, treeInfoDescribesTheTree.1 _ rfl, rfl,
    fun _ => ⟨rfl, rfl, rfl⟩, storageInv_reset, treeInv_reset, hardReset_keepsLifecycle State.reset⟩

/-! ### The first commands after reset (R243) -/

/-- The state after reset, with the parameters and the pixel memory the platform gives it. -/
def State.resetWith (p : Params) (m : Memory) : State := { State.reset with params := p, pix := m }

section AfterReset
variable (p : Params) (m : Memory)

/-- The lengths are 0 after reset, so the message and the stream are empty. -/
theorem holdsMessage_resetWith : HoldsMessage (.resetWith p m) [] := ⟨rfl, nofun⟩

theorem streamStarts_resetWith : StreamStarts (.resetWith p m) [] := ⟨Nat.zero_le _, nofun⟩

/-- The grid has no slot after reset. -/
theorem gridInMemory_resetWith : GridInMemory (.resetWith p m) := Nat.zero_le _

/-- Neither decoder of the fixed-width codec finds a symbol in an empty stream. -/
theorem fixedDecodes_empty (sh : BitVec 8) {i : Instr} (hi : i ∈ [Instr.decodeRaw, .decodeCaesar]) :
    (i, { out := [], found := false, pos := 0 }) ∈
      [(Instr.decodeRaw, rawDecode []), (Instr.decodeCaesar, caesarDecode [] sh)] := by
  simpa [rawDecode, caesarDecode, rawDecodeChunks, unshiftFrom] using hi

/-- DECODE.RAW and DECODE.CAESAR find no delimiter, so the policy decides. -/
theorem exec_fixedDecode_resetWith {i : Instr} (hi : i ∈ [Instr.decodeRaw, .decodeCaesar]) :
    (p.rawPolicy = .returnText → ∃ t, exec i (.resetWith p m) = .next t ∧ t.textLen = 0 ∧ t.decPos = 0 ∧
      t.delim = false ∧ t.err = .noError) ∧
    (p.rawPolicy = .raiseTruncated → exec i (.resetWith p m) = .next ((State.resetWith p m).complete .truncated)) := by
  obtain ⟨htext, htruncated⟩ :=
    decodeFixedWidthResult _ [] (streamStarts_resetWith p m) (.inr (Nat.le_refl (0 / 8))) _ (fixedDecodes_empty _ hi)
  refine ⟨fun hp => ?_, htruncated rfl⟩
  obtain ⟨t, hexec, ⟨-, -, herr⟩, ⟨hlen, -⟩, hpos, hdelim, -⟩ := htext (.inr hp)
  exact ⟨t, hexec, hlen, hpos, hdelim, herr⟩

/-- MARGIN asks for 8 slots even of the empty stream (42_embedder.md R171). -/
theorem exec_write_resetWith (hp : p.capacityRule = .marginRule) :
    exec .write (.resetWith p m) = .next ((State.resetWith p m).complete .capacity) :=
  have hfits : fits p.capacityRule 0 0 = false := hp ▸ rfl
  (writeResult _).2.1 (gridInMemory_resetWith p m) hfits

theorem exec_readall_resetWith : ∃ t, exec .readall (.resetWith p m) = .next t ∧ t.bitLen = 0 ∧ t.err = .noError := by
  obtain ⟨t, hexec, ⟨-, -, herr⟩, hlen, -⟩ := (readAllResult _).1 (gridInMemory_resetWith p m)
  exact ⟨t, hexec, hlen, herr⟩

/-- An encode command encodes the delimiter alone. -/
theorem exec_encodeOf_resetWith {k : Kind} {tree : Option TreeStore} {bits : List Bool}
    (htext : encodeText k (.resetWith p m) [delimSym] = some (tree, bits)) (hfit : bits.length ≤ p.bitMax) :
    ∃ t, exec (encodeOf k) (.resetWith p m) = .next t ∧ t.err = .noError ∧ HoldsStream t bits := by
  obtain ⟨t, hexec, ⟨-, -, herr⟩, hstream, -⟩ := encodeOf_completes (holdsMessage_resetWith p m) htext hfit
  exact ⟨t, hexec, herr, hstream⟩

end AfterReset

/-- Settles O21: each case is what the command's own result says of an empty message, stream and grid and no tree. -/
theorem firstCommandsAfterReset : Obligations.FirstCommandsAfterReset := by
  rintro p m _ rfl
  refine ⟨(decodeHuffResult _).1 rfl, fun hp i hi => (exec_fixedDecode_resetWith p m hi).1 hp,
    fun hp i hi => (exec_fixedDecode_resetWith p m hi).2 hp, exec_write_resetWith p m, exec_readall_resetWith p m,
    fun hfit => ⟨?_, ?_⟩, fun hfit => ?_, newSessionEndsTheSession.1 _⟩
  · exact exec_encodeOf_resetWith p m (k := .raw) rfl hfit
  · exact exec_encodeOf_resetWith p m (k := .caesar) rfl hfit
  · have hcode := (oneLeafTreeUsesOneBit.2 p.leafOrder [] nofun).2.1
    exact exec_encodeOf_resetWith p m (encodeText_huff (s := .resetWith p m) hcode) hfit

/-! ### Hazards (R246 to R248) -/

section Hazard
variable {s : State} (hp : s.pending = true)
include hp

theorem step_busRead_hazard {r : WindowReg} {addr : Nat} (hr : busTarget s.params 32 addr = .reg r)
    (hforbidden : r.allowedWhileBusy = false) (h : HostTurn s (.busRead 32 addr)) :
    step s = .next ((hostStart s).enterFault .hostHazard) := by
  rw [step_busRead hr h, hp, hforbidden]
  rfl

theorem step_busWrite_hazard {r : WindowReg} {addr : Nat} {v : Word} (hr : busTarget s.params 32 addr = .reg r)
    (hforbidden : r.allowedWhileBusy = false) (h : HostTurn s (.busWrite 32 addr v)) :
    step s = .next ((hostStart s).enterFault .hostHazard) := by
  rw [step_busWrite hr h, hp, hforbidden]
  rfl

theorem hostPixRead_hazard {a : Nat} (ha : a < s.params.gridBytesMax) : hostPixRead a s = .fault .hostHazard := by
  rw [hostPixRead, if_neg (Nat.not_le.mpr ha), State.busy, if_pos hp]

theorem hostPixWrite_hazard {a : Nat} (b : Byte) (ha : a < s.params.gridBytesMax) :
    hostPixWrite a b s = .fault .hostHazard := by
  rw [hostPixWrite, if_neg (Nat.not_le.mpr ha), State.busy, if_pos hp]

end Hazard

theorem WindowReg.allowedWhileBusy_eq_false {r : WindowReg} (hstatus : r ≠ .status) (hcmd : r ≠ .cmd) :
    r.allowedWhileBusy = false := by
  cases r with
  | cmd => exact absurd rfl hcmd
  | status => exact absurd rfl hstatus
  | config | msgLen | bitLen | textLen | decPos | gridRows | gridCols | treeInfo | msg | bitw | text => rfl

/-- A location that may be read while BUSY = 1 delivers its value, a command pending or not. -/
theorem step_busRead_allowed {s : State} {r : WindowReg} {addr : Nat} {v : Word}
    (hr : busTarget s.params 32 addr = .reg r) (hallowed : r.allowedWhileBusy = true) (hv : s.readReg r = some v)
    (h : HostTurn s (.busRead 32 addr)) : step s = .next ((hostStart s).deliver v) := by
  rw [step_busRead hr h, hallowed, hv, Bool.not_true, Bool.and_false]
  rfl

/-- Settles O17: every location but STATUS and CMD is forbidden while BUSY = 1, and so is every pixel byte; the accesses
of STATUS and CMD have their own effect. -/
theorem busyAccessIsHazard : Obligations.BusyAccessIsHazard := by
  intro s r v a b hparams hp
  refine ⟨fun hexists hstatus hcmd h => ?_, fun ha h => ?_, ?_, step_writeStatus, ?_, fun h => ?_⟩
  · have htarget := busTarget_existing hparams r hexists
    have hforbidden := WindowReg.allowedWhileBusy_eq_false hstatus hcmd
    exact h.elim (step_busRead_hazard hp htarget hforbidden) (step_busWrite_hazard hp htarget hforbidden)
  · rcases h with h | h
    · rw [step_of_hostTurn h, hostStep, hostPixRead_hazard (s := hostStart s) hp ha]
      rfl
    · rw [step_of_hostTurn h, hostStep, hostPixWrite_hazard (s := hostStart s) hp b ha]
      rfl
  · exact step_busRead_allowed (busTarget_status s.params) rfl rfl
  · exact step_busRead_allowed (busTarget_cmd s.params) rfl rfl
  · rw [commandWriteAcceptedOrDropped s v h, if_pos hp]

end Sys2Proof.Machine
